-- ==== Sys2Proof/Word.lean ====
section
/-! DEFINITION. The widths of the spec (00_scope.md R9): the names `uN` that the rules use, as bit vectors. -/

namespace Sys2Proof

/-- `u8`: a data byte, a pin number's operand, a status code (R9). -/
abbrev Byte := BitVec 8

/-- `u16`: a device address as ADDR carries it and as `CA` holds it (R7 ADDR_REG_WIDTH, R22). -/
abbrev Address := BitVec 16

/-- `u24`: the COUNT operand (R94). -/
abbrev Count := BitVec 24

/-- `u32`: a command word, a response word, a transport-request word (R90, R100, R102). -/
abbrev Word := BitVec 32

/-- A microcontroller pin number, 0 to 255 (R7 `PIN_MAP`, R102 `PIN`). -/
abbrev Pin := BitVec 8

/-- `u17`: the index `BI` of a bulk operation (R28). -/
abbrev BulkIndex := BitVec 17

end Sys2Proof
end

