-- ==== Sys2Proof/Config.lean ====
section
/-! DEFINITION. What an implementation fixes (00_scope.md R7, 10_state.md R30) and the free values. -/

namespace Sys2Proof

/-- The mode of a microcontroller pin (R50), and the bus direction held by `DIR` (R24). -/
inductive PinMode where
  | input
  | output
  deriving DecidableEq, Repr

/-- The level of a pin (R50). -/
inductive Level where
  | low
  | high
  deriving DecidableEq, Repr

/-- The 13 pin roles of R27: shift-data, shift-clock, latch-clock, data-bit-0..7, write-enable, output-enable. -/
inductive Role where
  | sd
  | sc
  | latch
  | d (i : Fin 8)
  | we
  | oe
  deriving DecidableEq, Repr

/-- A role's place in `PIN_MAP` and in the environment's pin file. DESIGN CHOICE (log 1): the order is R27's; nothing
observes it. -/
def Role.index : Role → Fin 13
  | .sd => 0
  | .sc => 1
  | .latch => 2
  | .d i => ⟨i.val + 3, by omega⟩
  | .we => 11
  | .oe => 12

/-- The 13 roles, in the order of their index. -/
def Role.all : List Role :=
  [.sd, .sc, .latch, .d 0, .d 1, .d 2, .d 3, .d 4, .d 5, .d 6, .d 7, .we, .oe]

/-- The configuration parameters of R7: fixed at construction and read-only afterwards (R30). -/
structure Params where
  /-- `CAPACITY`, the device size in bytes. -/
  capacity : Nat
  /-- `ERASED_VALUE`, the byte CLEAR writes. -/
  erasedValue : Byte
  /-- `PIN_MAP`, the pin number of each role, at the role's index. -/
  pinMap : Vector Pin 13
  /-- `T_LATCH_US`, the latch-high delay in microseconds, 0 = none issued. -/
  tLatchUs : Nat
  /-- `T_SETTLE_US`, the post-latch settle delay in microseconds, 0 = none issued. -/
  tSettleUs : Nat
  /-- `T_WE_NS`, the write-enable low hold in nanoseconds, 0 = none issued. -/
  tWeNs : Nat
  /-- `TICK_HZ`, the platform clock's ticks per second. -/
  tickHz : Nat
  /-- `POLL_LIMIT`: `none` is unbounded polling, `some n` the count of polling reads before WriteTimeout. -/
  pollLimit : Option Nat
  deriving DecidableEq, Repr

/-- The constraints R7 puts on the parameters: `CAPACITY` a power of two in 16..65536, `PIN_MAP` injective, `TICK_HZ`
positive, a poll limit of at least 1. -/
def Params.wf (p : Params) : Bool :=
  p.capacity == 2 ^ p.capacity.log2 && decide (16 ≤ p.capacity) && decide (p.capacity ≤ 65536) &&
    decide p.pinMap.toList.Nodup && decide (0 < p.tickHz) && p.pollLimit != some 0

/-- The reference configuration (R7, R8). `PIN_MAP` and `TICK_HZ` are OPEN in the spec: the values here are the example
values of 95_test_vectors.md section 0 (DESIGN CHOICE, log 2). Statements quantify over every configuration. -/
def Params.reference : Params where
  capacity := 2048
  erasedValue := 0xFF#8
  pinMap := #v[2, 3, 4, 5, 6, 7, 8, 9, 10, 11, 12, 13, 14]
  tLatchUs := 10
  tSettleUs := 0
  tWeNs := 0
  tickHz := 10000000
  pollLimit := none

namespace Config

/-- The device byte at an address that nothing has written since power-up: any value (R60, 93 I10). A free value. -/
opaque initialByte : Nat → Byte

/-- A bit the spec calls "any value" (R69, R71, R191): the first argument is the draw counter of the environment, the
second tells apart the draws of one event. A free value. -/
opaque freeBit : Nat → Nat → Bool

/-- A byte the spec calls "any value" (R68, R71, R191, R275, R305), drawn as `freeBit` is. A free value. -/
opaque freeByte : Nat → Nat → Byte

/-- An address on address lines that are Unknown (R66), drawn as `freeBit` is. A free value. -/
opaque freeAddress : Nat → Nat → Nat

end Config

end Sys2Proof
end

