-- ==== Sys2Proof/Syntax.lean ====
section
/-! DEFINITION. The instructions: one constructor for each row of spec/opcode_table.json (30_encoding.md R93, R95, R96,
R102). The table's rows live in three streams: the host's command words, the payload words after a WRITE_BLOCK, and the
transport-request words the block issues at its pin port. -/

namespace Sys2Proof

/-- The bit order operand of SHIFT_OUT (R50). The block uses MSBFIRST only. -/
inductive BitOrder where
  | lsbFirst
  | msbFirst
  deriving DecidableEq, Repr

/-- The stream a word is read in: the `stream` column of the opcode table (R97). -/
inductive Stream where
  | command
  | payload
  | request
  deriving DecidableEq, Repr

/-- The four transport requests of R50, the operands as pin numbers. -/
inductive Request where
  | setPinMode (pin : Pin) (mode : PinMode)
  | digitalWrite (pin : Pin) (level : Level)
  | digitalRead (pin : Pin)
  | shiftOut (dataPin clockPin : Pin) (order : BitOrder) (byte : Byte)
  deriving DecidableEq, Repr

/-- The rows of the opcode table. Fields the manual numbers as bits of a word are bit vectors. -/
inductive Instr where
  /-- OP 0x1, format N (R251). -/
  | setup
  /-- OP 0x2, format A (R141). -/
  | setAddr (addr : Address)
  /-- OP 0x3, format B: FLAG 0 Input, 1 Output (R161). -/
  | setMode (direction : PinMode)
  /-- OP 0x4, format B: FLAG 1 enabled (R163). -/
  | setOe (enabled : Bool)
  /-- OP 0x5, format A (R181). -/
  | read (addr : Address)
  /-- OP 0x6, format AV (R183). -/
  | write (addr : Address) (value : Byte)
  /-- OP 0x7, format C (R124). -/
  | delayNs (count : Count)
  /-- OP 0x8, format C (R125). -/
  | delayUs (count : Count)
  /-- OP 0x9, format C (R126). -/
  | delayMs (count : Count)
  /-- OP 0xA, format C; COUNT payload words follow (R95, R221). -/
  | writeBlock (count : Count)
  /-- OP 0xB, format C (R222). -/
  | clear (count : Count)
  /-- OP 0xC, format C (R223). -/
  | dump (count : Count)
  /-- OP 0xD, format N (R252). -/
  | close
  /-- OP 0x0 at a command position: reserved whatever the other 28 bits are (R96). -/
  | reserved0 (rest : BitVec 28)
  /-- OP 0xE: reserved (R96). -/
  | reservedE (rest : BitVec 28)
  /-- OP 0xF: reserved (R96). -/
  | reservedF (rest : BitVec 28)
  /-- A payload word after a WRITE_BLOCK, format P (R95). -/
  | payload (byte : Byte)
  /-- TOP 0x1: `SET_PIN_MODE(pin, mode)` (R50, R102). -/
  | setPinMode (pin : Pin) (mode : PinMode)
  /-- TOP 0x2: `DIGITAL_WRITE(pin, level)` (R50, R102). -/
  | digitalWrite (pin : Pin) (level : Level)
  /-- TOP 0x3: `DIGITAL_READ(pin)` (R50, R102). -/
  | digitalRead (pin : Pin)
  /-- TOP 0x4: `SHIFT_OUT(dataPin, clockPin, bitOrder, byteValue)` (R50, R102). -/
  | shiftOut (dataPin clockPin : Pin) (order : BitOrder) (byte : Byte)
  deriving DecidableEq, Repr

/-- The stream a row of the opcode table belongs to. -/
def Instr.stream : Instr → Stream
  | .setup | .setAddr _ | .setMode _ | .setOe _ | .read _ | .write _ _ | .delayNs _ | .delayUs _ | .delayMs _ => .command
  | .writeBlock _ | .clear _ | .dump _ | .close | .reserved0 _ | .reservedE _ | .reservedF _ => .command
  | .payload _ => .payload
  | .setPinMode _ _ | .digitalWrite _ _ | .digitalRead _ | .shiftOut _ _ _ _ => .request

/-- A transport request as the row of the opcode table it is. -/
def Request.instr : Request → Instr
  | .setPinMode p m => .setPinMode p m
  | .digitalWrite p l => .digitalWrite p l
  | .digitalRead p => .digitalRead p
  | .shiftOut dp cp o b => .shiftOut dp cp o b

end Sys2Proof
end

