-- ==== Sys2Proof/WellFormed.lean ====
section
/-! DEFINITION. Which terms of `Instr` the spec has: the one restriction that the fields' widths do not already make. -/

namespace Sys2Proof

/-- A SHIFT_OUT has `bitOrder = MSBFIRST` (R50, R102 `ORD`); every other field holds what its width admits (R92). -/
def Instr.wellFormed : Instr → Bool
  | .shiftOut _ _ order _ => order == .msbFirst
  | .setup | .setAddr _ | .setMode _ | .setOe _ | .read _ | .write _ _ | .delayNs _ | .delayUs _ | .delayMs _ => true
  | .writeBlock _ | .clear _ | .dump _ | .close | .reserved0 _ | .reservedE _ | .reservedF _ | .payload _ => true
  | .setPinMode _ _ | .digitalWrite _ _ | .digitalRead _ => true

end Sys2Proof
end

