-- ==== Sys2Proof/Decode.lean ====
section
/-! DEFINITION. The decoder of each stream, total on every u32 word, and the encoder (30_encoding.md R90 to R97, R102). -/

namespace Sys2Proof

/-- Why a word spells no row of its stream's table. At a command or payload position the command cycle answers
REFUSED_RESERVED_ENCODING (R96, R254); the decoder only names the reason. -/
inductive DecodeError where
  /-- `RSV = w[27:24]` is not 0 (R96). -/
  | reservedField
  /-- A bit that the command's format marks 0 is 1 (R92, R96). -/
  | mustBeZero
  /-- A payload word with `w[31:8] ≠ 0` (R96). -/
  | payloadHighBits
  /-- A transport word whose `TOP` is none of the four requests (R102). -/
  | requestOpcode
  /-- A transport word with a bit set that R102 makes 0 for its request. -/
  | requestField
  /-- A SHIFT_OUT word whose `ORD` is not MSBFIRST (R50, R102). -/
  | bitOrder
  deriving DecidableEq, Repr

/-- `w[lo+len-1 : lo]` (R9). -/
abbrev field (w : Word) (lo len : Nat) : BitVec len :=
  w.extractLsb' lo len

/-- FLAG of SET_MODE and ARG of SET_PIN_MODE: 0 Input, 1 Output (R93, R102). -/
def modeOfBit (b : BitVec 1) : PinMode :=
  if b = 1#1 then .output else .input

/-- ARG of DIGITAL_WRITE: 0 Low, 1 High (R102). -/
def levelOfBit (b : BitVec 1) : Level :=
  if b = 1#1 then .high else .low

/-- `i` where the bits the format marks 0 are 0 (R92), a rejection by name otherwise (R96). -/
def requireZero (zero : Bool) (i : Instr) : Except DecodeError Instr :=
  if zero then .ok i else .error .mustBeZero

/-- A command word with `RSV = 0`, by its opcode (R92, R93, R94). -/
def decodeOperand (w : Word) : Except DecodeError Instr :=
  match (field w 28 4).toNat with
  | 0x1 => requireZero (field w 0 24 == 0) .setup
  | 0x2 => requireZero (field w 0 8 == 0) (.setAddr (field w 8 16))
  | 0x3 => requireZero (field w 1 23 == 0) (.setMode (modeOfBit (field w 0 1)))
  | 0x4 => requireZero (field w 1 23 == 0) (.setOe (field w 0 1 == 1#1))
  | 0x5 => requireZero (field w 0 8 == 0) (.read (field w 8 16))
  | 0x6 => .ok (.write (field w 8 16) (field w 0 8))
  | 0x7 => .ok (.delayNs (field w 0 24))
  | 0x8 => .ok (.delayUs (field w 0 24))
  | 0x9 => .ok (.delayMs (field w 0 24))
  | 0xA => .ok (.writeBlock (field w 0 24))
  | 0xB => .ok (.clear (field w 0 24))
  | 0xC => .ok (.dump (field w 0 24))
  | 0xD => requireZero (field w 0 24 == 0) .close
  | 0xE => .ok (.reservedE (field w 0 28))
  | 0xF => .ok (.reservedF (field w 0 28))
  | _ => .ok (.reserved0 (field w 0 28))

/-- The opcodes 0x0, 0xE and 0xF, reserved whatever the rest of the word is (R93, R96). -/
def reservedOpcode (w : Word) : Bool :=
  field w 28 4 == 0x0#4 || field w 28 4 == 0xE#4 || field w 28 4 == 0xF#4

/-- A word at a command position (R91, R93, R96). -/
def decodeCommand (w : Word) : Except DecodeError Instr :=
  if reservedOpcode w || field w 24 4 == 0 then decodeOperand w else .error .reservedField

/-- A word in one of the COUNT positions after a WRITE_BLOCK (R92 format P, R95). -/
def decodePayload (w : Word) : Except DecodeError Instr :=
  if field w 8 24 = 0 then .ok (.payload (field w 0 8)) else .error .payloadHighBits

/-- `i` where the bits R102 makes 0 are 0. -/
def requireRequest (zero : Bool) (i : Instr) : Except DecodeError Instr :=
  if zero then .ok i else .error .requestField

/-- A transport-request word (R102). -/
def decodeRequest (w : Word) : Except DecodeError Instr :=
  match (field w 28 4).toNat with
  | 0x1 => requireRequest (field w 1 19 == 0) (.setPinMode (field w 20 8) (modeOfBit (field w 0 1)))
  | 0x2 => requireRequest (field w 1 19 == 0) (.digitalWrite (field w 20 8) (levelOfBit (field w 0 1)))
  | 0x3 => requireRequest (field w 0 20 == 0) (.digitalRead (field w 20 8))
  | 0x4 =>
    if field w 8 1 = 1#1 then
      requireRequest (field w 9 3 == 0) (.shiftOut (field w 20 8) (field w 12 8) .msbFirst (field w 0 8))
    else .error .bitOrder
  | _ => .error .requestOpcode

/-- The decoder: a word read in a stream is one row of that stream's table or is rejected by name (R97). -/
def decode (stream : Stream) (w : Word) : Except DecodeError Instr :=
  match stream with
  | .command => decodeCommand w
  | .payload => decodePayload w
  | .request => decodeRequest w

/-- The bit of a mode in FLAG and in ARG (R93, R102). -/
def PinMode.bit : PinMode → BitVec 1
  | .input => 0#1
  | .output => 1#1

/-- The bit of a level in ARG (R102). -/
def Level.bit : Level → BitVec 1
  | .low => 0#1
  | .high => 1#1

/-- `ORD` of R102: 1 = MSBFIRST. -/
def BitOrder.bit : BitOrder → BitVec 1
  | .lsbFirst => 0#1
  | .msbFirst => 1#1

/-- The word of a command with a format C operand (R92). -/
def encodeCount (op : BitVec 4) (n : Count) : Word :=
  op ++ 0#4 ++ n

/-- The word of a command with a format A operand (R92). -/
def encodeAddress (op : BitVec 4) (a : Address) : Word :=
  op ++ 0#4 ++ a ++ 0#8

/-- The word of a command with a format B operand (R92). -/
def encodeFlag (op : BitVec 4) (b : BitVec 1) : Word :=
  op ++ 0#4 ++ 0#23 ++ b

/-- The word of a one-pin transport request (R102). -/
def encodePin (top : BitVec 4) (pin : Pin) (arg : BitVec 1) : Word :=
  top ++ pin ++ 0#19 ++ arg

/-- The encoder: the one word of an instruction, laid out by R92 and R102. A WRITE_BLOCK's payload words are
instructions of their own (R95). -/
def encode : Instr → Word
  | .setup => encodeCount 0x1#4 0#24
  | .setAddr a => encodeAddress 0x2#4 a
  | .setMode d => encodeFlag 0x3#4 d.bit
  | .setOe e => encodeFlag 0x4#4 (BitVec.ofBool e)
  | .read a => encodeAddress 0x5#4 a
  | .write a v => 0x6#4 ++ 0#4 ++ a ++ v
  | .delayNs n => encodeCount 0x7#4 n
  | .delayUs n => encodeCount 0x8#4 n
  | .delayMs n => encodeCount 0x9#4 n
  | .writeBlock n => encodeCount 0xA#4 n
  | .clear n => encodeCount 0xB#4 n
  | .dump n => encodeCount 0xC#4 n
  | .close => encodeCount 0xD#4 0#24
  | .reserved0 r => 0x0#4 ++ r
  | .reservedE r => 0xE#4 ++ r
  | .reservedF r => 0xF#4 ++ r
  | .payload b => 0#24 ++ b
  | .setPinMode p m => encodePin 0x1#4 p m.bit
  | .digitalWrite p l => encodePin 0x2#4 p l.bit
  | .digitalRead p => encodePin 0x3#4 p 0#1
  | .shiftOut dp cp o b => 0x4#4 ++ dp ++ cp ++ 0#3 ++ o.bit ++ b

/-- The word of a transport request in a trace (R102). -/
def Request.word (r : Request) : Word :=
  encode r.instr

/-- Whether a decoded command is one of the 13 of R93 (and not a reserved row). -/
def Instr.isReserved : Instr → Bool
  | .reserved0 _ | .reservedE _ | .reservedF _ => true
  | .setup | .setAddr _ | .setMode _ | .setOe _ | .read _ | .write _ _ | .delayNs _ | .delayUs _ | .delayMs _ => false
  | .writeBlock _ | .clear _ | .dump _ | .close | .payload _ => false
  | .setPinMode _ _ | .digitalWrite _ _ | .digitalRead _ | .shiftOut _ _ _ _ => false

/-- The row of the opcode table that a word stands for when nothing says which stream it comes from (the table's rows of
different streams share words). DESIGN CHOICE (log 3), the host's tool only: one of the 13 commands first, then a
transport request, then a payload word other than the all-zero word, then a reserved command word. The machine never
uses it: `decode` is always told its stream. -/
def decodeAnyStream (w : Word) : Option Instr :=
  match decode .command w, decode .request w, decode .payload w with
  | .ok i, .ok r, _ => if i.isReserved then some r else some i
  | .ok i, .error _, .ok p => if i.isReserved && w != 0 then some p else some i
  | .ok i, .error _, .error _ => some i
  | .error _, .ok r, _ => some r
  | .error _, .error _, .ok p => some p
  | .error _, .error _, .error _ => none

/-- The instruction the decoder reads from a word whose bits are `w`, numbered as spec/opcode_table.json numbers them. -/
def decodeTableWord (nbits w : Nat) : Option Instr :=
  if nbits ≤ 32 ∧ w < 2 ^ 32 then decodeAnyStream (BitVec.ofNat 32 w) else none

end Sys2Proof
end

