-- ==== Sys2Proof/Machine/State.lean ====
section
/-! DEFINITION. The state of the machine as plain data: the sequencer (10_state.md R20 to R32), its ports (R33), the
environment behind the pin port (20_memory.md R64 to R71), the inputs that have not arrived yet, and the trace (R55). -/

namespace Sys2Proof.Machine

/-- Why the machine would stop with a fault. It has no constructor: "No behaviour of the block is treated as `fault`"
(93_implementation_defined.md Part 1, R270). Safe: nothing is cut short. -/
inductive Fault where
  deriving DecidableEq, Repr

/-- Why an instruction would have no meaning. -/
inductive Refusal where
  /-- An arm of `exec` that has no meaning yet. No arm raises it. Safe: it would only stop a run. -/
  | notModelled (mnemonic : String)
  deriving DecidableEq, Repr

/-- `LC` (R21). The u2 encoding 3 is never held, so the type has no name for it. -/
inductive Lifecycle where
  /-- 0, before a Setup has succeeded. -/
  | unconfigured
  /-- 1, after a Setup. -/
  | ready
  /-- 2, after CLOSE. -/
  | closed
  deriving DecidableEq, Repr

/-- The status codes of R101. -/
inductive Status where
  | ok
  | transportFailure
  | capacityExceeded
  | writeTimeout
  | refusedReservedEncoding
  | refusedNotConfigured
  | refusedClosed
  | refusedAddressOutOfRange
  deriving DecidableEq, Repr

/-- The error kinds of EPN that a command's pseudocode can raise (R270, R271). -/
inductive ErrorKind where
  | transportFailure
  | capacityExceeded
  | writeTimeout
  deriving DecidableEq, Repr

/-- The kind of a delay event (R123). -/
inductive DelayKind where
  | ns
  | us
  | ms
  deriving DecidableEq, Repr

/-- Whose iterations a bulk loop runs (45_bulk.md R220, R222, R223). -/
inductive BulkKind where
  | block
  | clear
  | dump
  deriving DecidableEq, Repr

/-- The answer of the transport to one request (R50, R51). -/
inductive Response where
  | ack
  | bit (b : Bool)
  | error
  deriving DecidableEq, Repr

/-- The micro-steps that a command's procedure is made of (R10, R32). The operations up to `takePayload` are the ones
that a step of R5 performs; the others take no step of their own and are carried out together with the step before. -/
inductive MicroOp where
  /-- `T(req)` whose response is only ack or error. -/
  | request (r : Request)
  /-- `RA <- ((RA << 1) | DR(Di))[7:0]` (R180 step 4). -/
  | sample (i : Fin 8)
  /-- State P2 of `Poll()` (R184). -/
  | pollRead
  /-- `SPM(D7, Out)` of states P3 and P4 of `Poll()` (R184). -/
  | restoreBit7
  /-- `DelayNs(n)`, `DelayUs(n)`, `DelayMs(n)` (R124 to R126). -/
  | delay (kind : DelayKind) (n : Nat)
  /-- `respond(status, 0)`. -/
  | respond (status : Status)
  /-- `respond(OK, RA)` (R181). -/
  | respondByte
  /-- Waiting for the given number of payload words (R254). -/
  | takePayload (remaining : Nat)
  /-- The procedure `Setup()` (R250). -/
  | setup
  /-- `LC <- l`. -/
  | lifecycle (l : Lifecycle)
  /-- The procedure `SetAddress(a)` (R140). -/
  | setAddress (a : Address)
  /-- `CA <- a; CAV <- 1` (R143). -/
  | latched (a : Address)
  /-- The procedure `SetMode(d)` (R160). -/
  | setMode (d : PinMode)
  /-- `DIR <- d; DIRV <- 1` (R160). -/
  | directionSet (d : PinMode)
  /-- The procedure `SetOutputEnabled(e)` (R162). -/
  | setOutputEnabled (e : Bool)
  /-- `OE <- e; OEV <- 1` (R162). -/
  | outputEnableSet (e : Bool)
  /-- `RA <- 0` (R180). -/
  | clearAccumulator
  /-- `EM <- v[7]; WV <- v` (R182 step 4). -/
  | captureValue (v : Byte)
  /-- `DW(Di, if WV[0] = 1 then H else L)` (R182 step 5). -/
  | driveBit (i : Fin 8)
  /-- `WV <- WV >> 1` (R182 step 5). -/
  | shiftValue
  /-- `PCNT <- 0` (R184 P1). -/
  | clearPollCount
  /-- `raise WriteTimeout` (R184 P4). -/
  | raiseTimeout
  /-- `BI <- 0`, the start of a bulk loop. -/
  | clearIndex
  /-- `BI <- BI + 1`, the end of an iteration. -/
  | nextIndex
  /-- The rest of a bulk loop of `count` iterations, at index `BI`. -/
  | loop (kind : BulkKind) (count : Nat)
  /-- Before the first read of a dump row (R223). -/
  | clearRow
  /-- `row[j] <- RA`, `j` the number of bytes the row already has (R223). -/
  | storeRow
  /-- `emit DumpLine(16 r, row)` with `r = BI` (R223). -/
  | emitLine
  deriving DecidableEq, Repr

/-- What the block is doing: whose procedure `MS` is in (R32, R254, R302). -/
inductive Activity where
  /-- Between commands. -/
  | idle
  /-- The Setup that runs by itself after reset (R302). -/
  | automaticSetup
  /-- A command. -/
  | command (i : Instr)
  /-- A command word that spells no row of the table (R96). -/
  | reservedWord (w : Word)
  deriving DecidableEq, Repr

/-- The observable events of R55, in the order they happen. -/
inductive Event where
  /-- A transport request with its response. -/
  | request (r : Request) (response : Response)
  /-- `Delay(kind, n, targetTicks)` (R123); a ms delay has no tick count (R126). -/
  | delay (kind : DelayKind) (n : Nat) (ticks : Option Nat)
  /-- A response word to the host (R100). -/
  | response (w : Word)
  /-- A text line to the host (R224). -/
  | text (line : List Char)
  deriving DecidableEq, Repr

/-- A role pin of the environment (R64): `none` is Unknown. -/
structure PinState where
  mode : Option PinMode
  level : Option Level
  deriving DecidableEq, Repr

/-- `SR`, the two cascaded shift registers (R65): the byte in the far register and the byte in the near one, `none`
Unknown. Every SHIFT_OUT moves a whole byte, so nothing finer can be told apart. -/
structure ShiftChain where
  far : Option Byte
  near : Option Byte
  deriving DecidableEq, Repr

/-- What the agents outside the sequencer do next (R6), in the order in which it happens. -/
inductive Input where
  /-- The transport answers the outstanding request: with `error` if `fails`, otherwise with ack or a read bit (R50). -/
  | reply (fails : Bool)
  /-- Nothing arrives before the sequencer's next step. -/
  | pass
  /-- The host writes a word to the command port (R33, R90). -/
  | hostWord (w : Word)
  /-- The EEPROM completes its write cycle (R70). -/
  | complete
  /-- After a WriteTimeout: the byte and the write cycle that timed out take any value (R275, 93 I12). -/
  | deviceFault
  /-- Something outside the block changes the pins or the shift registers, for example a reset of the microcontroller or
  a hand-moved pin (R79, R304). -/
  | external (pins : Vector PinState 13) (shift : ShiftChain) (latch : Option Address)
  /-- The reset input (R300). -/
  | reset
  deriving DecidableEq, Repr

/-- `busy = (a, d)`: an internal write cycle in progress (R68). -/
structure WriteCycle where
  addr : Nat
  data : Byte
  deriving DecidableEq, Repr

/-- The environment of R64 to R71: the microcontroller's pins, the shift registers and the EEPROM. -/
structure Env where
  /-- `mode(p)` and `level(p)` of the 13 role pins, at the role's index (R64). -/
  pins : Vector PinState 13
  /-- `SR` (R65). -/
  shift : ShiftChain
  /-- `LAT` (R66), `none` Unknown. -/
  latch : Option Address
  /-- `MEM` (R60): the bytes that have been written, addresses strictly rising. An address that is not listed holds what
  it held at power-up (`Config.initialByte`). -/
  mem : List Host.Cell
  /-- `busy` (R68). -/
  busy : Option WriteCycle
  /-- The address of a write that ended in a WriteTimeout, while its byte and cycle may be anything (R275, 93 I12). -/
  suspect : Option Nat
  /-- The MODEL's own counter: how many events have drawn a free value. -/
  draws : Nat
  deriving DecidableEq, Repr

/-- The whole machine. -/
structure State where
  /-- The configuration (R30). -/
  cfg : Params
  /-- `LC` (R21). -/
  lc : Lifecycle
  /-- `CA` (R22). -/
  ca : Address
  /-- `CAV` (R23). -/
  cav : Bool
  /-- `DIR` (R24). -/
  dir : PinMode
  /-- `DIRV` (R25). -/
  dirv : Bool
  /-- `OE` (R26): true, the EEPROM drives the bus. -/
  oe : Bool
  /-- `OEV` (R26). -/
  oev : Bool
  /-- `WV` (R28). -/
  wv : Byte
  /-- `EM` (R28). -/
  em : Bool
  /-- `RA` (R28). -/
  ra : Byte
  /-- `PCNT` (R28). -/
  pcnt : Nat
  /-- `BI` (R28). -/
  bi : BulkIndex
  /-- `row` of DUMP (R223): the bytes read of the row in progress. -/
  row : List Byte
  /-- The payload words of the WRITE_BLOCK in progress (R254). -/
  payload : List Word
  /-- `ISSUED` (R29). -/
  issued : Bool
  /-- `CP` (R32). -/
  cp : Nat
  /-- `MS` (R32): what is left of the procedure in progress, empty between commands. -/
  ms : List MicroOp
  /-- Whose procedure `MS` is in. -/
  current : Activity
  /-- The command port (R33): the words the host has written and the block has not taken. The head is the word at `CP`. -/
  port : List Word
  /-- The inputs that have not arrived yet. -/
  inbox : List Input
  /-- The trace since reset (R55): the response port and the text port are read off it. -/
  trace : List Event
  /-- The environment behind the pin port. -/
  env : Env
  deriving DecidableEq, Repr

/-- The environment at power-up: every pin, `SR` and `LAT` Unknown (R64, R301), `MEM` unspecified (R60), no write cycle
(R68; DEDUCED from the state `S0` of 95_test_vectors.md, log 5). -/
def Env.powerUp : Env where
  pins := Vector.replicate 13 ⟨none, none⟩
  shift := ⟨none, none⟩
  latch := none
  mem := []
  busy := none
  suspect := none
  draws := 0

/-- The sequencer right after reset (R39, R301), for a configuration, an environment and the inputs to come; the command
stream is a new one (R300). `MS` is the start of the automatic Setup (R302). `CA` and the working registers are unspecified there
and never read before they are written: zero is the model's choice (DESIGN CHOICE, log 4). -/
def State.afterReset (cfg : Params) (env : Env) (inbox : List Input) : State where
  cfg := cfg
  lc := .unconfigured
  ca := 0
  cav := false
  dir := .input
  dirv := true
  oe := false
  oev := true
  wv := 0
  em := false
  ra := 0
  pcnt := 0
  bi := 0
  row := []
  payload := []
  issued := false
  cp := 0
  ms := [.setup, .respond .ok]
  current := .automaticSetup
  port := []
  inbox := inbox
  trace := []
  env := env

/-- The machine right after reset, in the reference configuration, at power-up, with no command word written and no
input pending. -/
def State.reset : State :=
  State.afterReset Params.reference Env.powerUp []

end Sys2Proof.Machine
end

