-- ==== Sys2Proof/Machine/Operands.lean ====
section
/-! DEFINITION. The operand forms: pin roles to pin numbers, the address and its two bytes, the range check, the counts
and their clamps, the payload words (00_scope.md R7, R10; 30_encoding.md R94 to R96; 45_bulk.md). -/

namespace Sys2Proof.Machine

/-- `PIN_MAP(role)` (R7, R27). -/
def pinOf (cfg : Params) (r : Role) : Pin :=
  cfg.pinMap[r.index]

/-- The role wired to a pin number, if there is one (R27). `PIN_MAP` is injective, so there is at most one. -/
def roleOf (cfg : Params) (p : Pin) : Option Role :=
  Role.all.find? fun r => pinOf cfg r == p

/-- `ADDR_BITS = log2(CAPACITY)` (R7). -/
def addrBits (cfg : Params) : Nat :=
  cfg.capacity.log2

/-- `a[15:8]`, the byte shifted out first (R57, R140). -/
def highByte (a : Address) : Byte :=
  a.extractLsb' 8 8

/-- `a[7:0]`, the byte shifted out second (R57, R140). -/
def lowByte (a : Address) : Byte :=
  a.extractLsb' 0 8

/-- The range requirement of R94: `ADDR ≥ CAPACITY`, for the commands that have an ADDR. -/
def addressOutOfRange (cfg : Params) : Instr → Bool
  | .setAddr a | .read a | .write a _ => decide (cfg.capacity ≤ a.toNat)
  | .setup | .setMode _ | .setOe _ | .delayNs _ | .delayUs _ | .delayMs _ | .writeBlock _ | .clear _ | .dump _ => false
  | .close | .reserved0 _ | .reservedE _ | .reservedF _ | .payload _ => false
  | .setPinMode _ _ | .digitalWrite _ _ | .digitalRead _ | .shiftOut _ _ _ _ => false

/-- CLEAR's count, clamped to the device capacity (R222). -/
def clampBytes (cfg : Params) (c : Count) : Nat :=
  min c.toNat cfg.capacity

/-- DUMP's count, clamped to `[1, capacity/16]` (R223). -/
def clampLines (cfg : Params) (c : Count) : Nat :=
  max 1 (min c.toNat (cfg.capacity / 16))

/-- A payload word with `w[31:8] ≠ 0` (R96). -/
def malformedPayload (w : Word) : Bool :=
  w.extractLsb' 8 24 != 0#24

/-- `data[k] = w[7:0]` of payload word `k` (R95). -/
def payloadByte (payload : List Word) (k : Nat) : Byte :=
  (payload.getD k 0).extractLsb' 0 8

/-- The address of index `BI` of a bulk operation (R220, R222). -/
def bulkAddress (bi : BulkIndex) : Address :=
  bi.setWidth 16

/-- The address `16 r + j` of byte `j` of dump row `r = BI` (R223). -/
def rowAddress (bi : BulkIndex) (j : Nat) : Address :=
  BitVec.ofNat 16 (16 * bi.toNat + j)

/-- The request a micro-step performs, if it performs one, its roles turned into pin numbers (R10). -/
def MicroOp.nextRequest (cfg : Params) : MicroOp → Option Request
  | .request r => some r
  | .sample i => some (.digitalRead (pinOf cfg (.d i)))
  | .pollRead => some (.digitalRead (pinOf cfg (.d 7)))
  | .restoreBit7 => some (.setPinMode (pinOf cfg (.d 7)) .output)
  | .delay _ _ | .respond _ | .respondByte | .takePayload _ | .setup | .lifecycle _ | .setAddress _ | .latched _ => none
  | .setMode _ | .directionSet _ | .setOutputEnabled _ | .outputEnableSet _ | .clearAccumulator | .captureValue _ => none
  | .driveBit _ | .shiftValue | .clearPollCount | .raiseTimeout | .clearIndex | .nextIndex | .loop _ _ => none
  | .clearRow | .storeRow | .emitLine => none

end Sys2Proof.Machine
end

