-- ==== Sys2Proof/Machine/Flags.lean ====
section
/-! DEFINITION. What a command reports: the status codes, `ISSUED` and the words of the response port and of the
transport's answers (10_state.md R29; 30_encoding.md R100, R101, R103). -/

namespace Sys2Proof.Machine

/-- The status codes (R101). -/
def Status.code : Status → Byte
  | .ok => 0x00#8
  | .transportFailure => 0x01#8
  | .capacityExceeded => 0x02#8
  | .writeTimeout => 0x03#8
  | .refusedReservedEncoding => 0x10#8
  | .refusedNotConfigured => 0x11#8
  | .refusedClosed => 0x12#8
  | .refusedAddressOutOfRange => 0x13#8

/-- The status of an error kind: `code(E)` of R272 is the code of this status. -/
def ErrorKind.status : ErrorKind → Status
  | .transportFailure => .transportFailure
  | .capacityExceeded => .capacityExceeded
  | .writeTimeout => .writeTimeout

/-- A response word: `STATUS = r[31:24]`, `r[23:9] = 0`, `ISSUED = r[8]`, `DATA = r[7:0]` (R100). -/
def responseWord (status : Status) (issued : Bool) (data : Byte) : Word :=
  status.code ++ 0#15 ++ BitVec.ofBool issued ++ data

/-- A transport response as a word: `s[31:24]` 0x00 ack or 0x01 error, `s[0]` the bit read (R103). -/
def Response.word : Response → Word
  | .ack => 0#32
  | .bit b => 0#31 ++ BitVec.ofBool b
  | .error => 0x01#8 ++ 0#24

/-- The words of the response port so far (R33, R100). -/
def State.responses (s : State) : List Word :=
  s.trace.filterMap fun e => match e with
    | .response w => some w
    | .request _ _ | .delay _ _ _ | .text _ => none

/-- The lines of the text port so far (R33, R224). -/
def State.text (s : State) : List (List Char) :=
  s.trace.filterMap fun e => match e with
    | .text l => some l
    | .request _ _ | .delay _ _ _ | .response _ => none

/-- The transport requests issued so far (R55, R286: "verify via transport call count"). -/
def State.requests (s : State) : List Request :=
  s.trace.filterMap fun e => match e with
    | .request r _ => some r
    | .response _ | .delay _ _ _ | .text _ => none

end Sys2Proof.Machine
end

