-- ==== Sys2Proof/Machine/Memory.lean ====
section
/-! DEFINITION. `MEM`, the EEPROM byte array (20_memory.md R60), as a list of written bytes in one canonical form. -/

namespace Sys2Proof.Machine

/-- The written bytes of `MEM`, as (address, byte) pairs. -/
abbrev Memory := List Host.Cell

/-- The canonical form: addresses strictly rising. An address that is not listed holds the byte it held at power-up, which
no listed byte is known to equal (R60, 91 N15), so no entry has to be left out. -/
abbrev Memory.wf (m : Memory) : Prop :=
  m.Pairwise fun x y => x.1 < y.1

/-- The byte written at an address; `none` where nothing has been written. -/
def Memory.find (m : Memory) (a : Nat) : Option Byte :=
  match m with
  | [] => none
  | c :: rest => if c.1 = a then some c.2 else Memory.find rest a

/-- `MemWrite(a, 1, v)` (R10, R60). -/
def Memory.write (m : Memory) (a : Nat) (v : Byte) : Memory :=
  match m with
  | [] => [(a, v)]
  | c :: rest =>
    if a < c.1 then (a, v) :: c :: rest
    else if a = c.1 then (a, v) :: rest
    else c :: Memory.write rest a v

/-- `MemRead(a, 1)` (R10, R60): a byte that nothing has written is any value, the same at every read. -/
def Memory.read (m : Memory) (a : Nat) : Byte :=
  (Memory.find m a).getD (Config.initialByte a)

end Sys2Proof.Machine
end

