-- ==== Sys2Proof/Machine/Environment.lean ====
section
/-! DEFINITION. The environment model (20_memory.md R53, R64 to R72): what each transport request does to the pins, the
shift registers and the EEPROM when it is acknowledged and when it answers `error`, what a digital read returns, the
EEPROM's own steps, and the contention predicates. -/

namespace Sys2Proof.Machine

/-- The pin of a role (R64). -/
def Env.pin (e : Env) (r : Role) : PinState :=
  e.pins[r.index]

/-- The pin file with one role's pin replaced. -/
def Env.setPin (e : Env) (r : Role) (p : PinState) : Env :=
  { e with pins := e.pins.set r.index p }

/-- `mode(p) <- m`, `none` Unknown (R64). -/
def Env.setMode (e : Env) (r : Role) (m : Option PinMode) : Env :=
  e.setPin r { e.pin r with mode := m }

/-- `level(p) <- l`, `none` Unknown (R64). -/
def Env.setLevel (e : Env) (r : Role) (l : Option Level) : Env :=
  e.setPin r { e.pin r with level := l }

/-- The next event draws its free values afresh. -/
def Env.drawn (e : Env) : Env :=
  { e with draws := e.draws + 1 }

/-- `MemRead(a, 1)` (R60). -/
def Env.byteAt (e : Env) (a : Nat) : Byte :=
  Memory.read e.mem a

/-- `MemWrite(a, 1, v)` (R60). -/
def Env.writeByteAt (e : Env) (a : Nat) (v : Byte) : Env :=
  { e with mem := Memory.write e.mem a v }

/-- A device address: the `ADDR_BITS` low bits of a value on the address lines (R66). -/
def deviceAddress (cfg : Params) (n : Nat) : Nat :=
  n % 2 ^ addrBits cfg

/-- `LAT[ADDR_BITS-1:0]`, the address on the EEPROM's address lines (R66); any address while `LAT` is Unknown. -/
def Env.addressLines (cfg : Params) (e : Env) : Nat :=
  deviceAddress cfg <| match e.latch with
    | some a => a.toNat
    | none => Config.freeAddress e.draws 0

/-- `SR <- {SR[14:0], b[k]}` for k = 7 downto 0: the near byte moves to the far register (R65). -/
def ShiftChain.shiftIn (s : ShiftChain) (b : Byte) : ShiftChain :=
  ⟨s.near, some b⟩

/-- The value of `SR`, if all of it is known (R65). -/
def ShiftChain.value (s : ShiftChain) : Option Address :=
  match s.far, s.near with
  | some hi, some lo => some (hi ++ lo)
  | some _, none | none, some _ | none, none => none

/-- `LAT` after an acknowledged `DIGITAL_WRITE(P(LATCH), H)` (R66): `SR` on a rising edge; Unknown where the level or `SR`
was Unknown; as before where the level was already high. -/
def Env.latchRise (e : Env) : Option Address :=
  match (e.pin .latch).level, e.shift.value with
  | some .low, value => value
  | some .high, some _ => e.latch
  | some .high, none | none, _ => none

/-- The bit a data pin drives: `none` where its mode is not Out or its level is Unknown (R68). -/
def Env.drivenBit (e : Env) (i : Fin 8) : Option Bool :=
  match (e.pin (.d i)).mode, (e.pin (.d i)).level with
  | some .output, some l => some (l == .high)
  | some .output, none | some .input, _ | none, _ => none

/-- `Σ_i b_i << i` (R58, R68). -/
def byteOfBits (b : Fin 8 → Bool) : Byte :=
  BitVec.ofBool (b 7) ++ BitVec.ofBool (b 6) ++ BitVec.ofBool (b 5) ++ BitVec.ofBool (b 4) ++
    BitVec.ofBool (b 3) ++ BitVec.ofBool (b 2) ++ BitVec.ofBool (b 1) ++ BitVec.ofBool (b 0)

/-- The byte the eight data pins drive; `none` where R68 makes it any value. -/
def Env.drivenByte (e : Env) : Option Byte :=
  if (List.finRange 8).all fun i => (e.drivenBit i).isSome then
    some (byteOfBits fun i => (e.drivenBit i).getD false)
  else none

/-- `mode(OE) = Out` and `level(OE)` is the given one (R67 to R69). -/
def Env.outputEnableAt (e : Env) (l : Level) : Bool :=
  (e.pin .oe).mode == some PinMode.output && (e.pin .oe).level == some l

/-- The device after a write that was cut off: the byte at the address lines is any value, and so is whether a write cycle
is in progress there (R191, R305, 93 I1 and I6). A cycle that was in progress is either still running, at its own address
and with any byte, or over, its byte any value. -/
def Env.disturbed (cfg : Params) (e : Env) : Env :=
  let a := e.addressLines cfg
  match e.busy with
  | some c =>
    { (e.writeByteAt c.addr (Config.freeByte e.draws 0)).writeByteAt a (Config.freeByte e.draws 1) with
      busy := if Config.freeBit e.draws 0 then some ⟨c.addr, Config.freeByte e.draws 2⟩ else none }
  | none =>
    { e.writeByteAt a (Config.freeByte e.draws 0) with
      busy := if Config.freeBit e.draws 0 then some ⟨a, Config.freeByte e.draws 1⟩ else none }

/-- A write pulse, that is an acknowledged `DIGITAL_WRITE(P(WE), H)` while `level(WE) = L`. It starts a write cycle when OE
is driven high and no cycle is in progress (R68). In the other cases R71 leaves the bytes it names any value. A pulse with
`level(OE) = H` and `mode(OE) ≠ Out`, which neither rule names, leaves the cycle free as well (DEDUCED, log 7). -/
def Env.writePulse (cfg : Params) (e : Env) : Env :=
  let a := e.addressLines cfg
  match e.busy with
  | some c =>
    { (e.writeByteAt c.addr (Config.freeByte e.draws 0)).writeByteAt a (Config.freeByte e.draws 1) with
      busy := if Config.freeBit e.draws 0 then
          some ⟨deviceAddress cfg (Config.freeAddress e.draws 1), Config.freeByte e.draws 2⟩
        else none }
  | none =>
    if e.outputEnableAt Level.high then
      { e with busy := some ⟨a, e.drivenByte.getD (Config.freeByte e.draws 0)⟩, suspect := none }
    else if (e.pin .oe).level = some Level.high then e.disturbed cfg
    else e.writeByteAt a (Config.freeByte e.draws 0)

/-- The device after a DIGITAL_WRITE of WE that may or may not have been a write pulse (R53, R191, 93 I6). A cycle already in
progress makes it a pulse during a cycle (R71). -/
def Env.interruptedWrite (cfg : Params) (e : Env) : Env :=
  match e.busy with
  | some _ => e.writePulse cfg
  | none => e.disturbed cfg

/-- An acknowledged `DIGITAL_WRITE` on a role pin (R64, R66, R68). -/
def Env.writePin (cfg : Params) (e : Env) (r : Role) (l : Level) : Env :=
  let e' := match r, l with
    | .latch, .high => { e with latch := e.latchRise }
    | .we, .high => if (e.pin .we).level = some Level.low then e.writePulse cfg else e
    | .latch, .low | .we, .low | .sd, _ | .sc, _ | .d _, _ | .oe, _ => e
  e'.setLevel r (some l)

/-- Whether a DIGITAL_WRITE of WE that answers `error` may have been part of a write pulse: any that drives WE low, and one
that drives it high while it is not known to be high. With the level Unknown R68 and R71 name no pulse, but "a write cycle
may have started" (93 I6): DEDUCED, log 8. -/
def Env.mayPulse (e : Env) (l : Level) : Bool :=
  l == .low || (e.pin .we).level != some Level.high

/-- A `DIGITAL_WRITE` on a role pin that answered `error` (R53): the level becomes Unknown; `LAT` does too where the
request could have raised the latch clock (R66); the device is as after an interrupted write where the request could have
moved WE in a write pulse (R191, log 8). -/
def Env.failPin (cfg : Params) (e : Env) (r : Role) (l : Level) : Env :=
  let e' := match r, l with
    | .latch, .high =>
      { e with latch := if (e.pin .latch).level = some Level.high then e.latchRise else none }
    | .we, l => if e.mayPulse l then e.interruptedWrite cfg else e
    | .latch, .low | .sd, _ | .sc, _ | .d _, _ | .oe, _ => e
  e'.setLevel r none

/-- The bit a `DIGITAL_READ` of data pin Di returns (R67, R69), any value in the other cases (R71). With all the conditions of
R67 true and `LAT` Unknown, where the spec is silent, it is any value too, a fresh one at each read (DESIGN CHOICE, log 34). -/
def Env.dataBit (cfg : Params) (e : Env) (i : Fin 8) : Bool :=
  if e.outputEnableAt Level.low && (e.pin (.d i)).mode == some PinMode.input then
    match e.busy with
    | some c => if i = 7 then !c.data[7] else Config.freeBit e.draws 0
    | none =>
      if (e.pin .we).level = some Level.high && e.latch.isSome then (e.byteAt (e.addressLines cfg))[i]
      else Config.freeBit e.draws 0
  else Config.freeBit e.draws 0

/-- What an acknowledged request answers: a bit for a DIGITAL_READ, ack for the others (R50). A read of a pin that is no
data pin is any value (DESIGN CHOICE, log 9: the block never issues one). -/
def Env.answer (cfg : Params) (e : Env) : Request → Response
  | .digitalRead p =>
    match roleOf cfg p with
    | some (.d i) => .bit (e.dataBit cfg i)
    | some .sd | some .sc | some .latch | some .we | some .oe | none => .bit (Config.freeBit e.draws 0)
  | .setPinMode _ _ | .digitalWrite _ _ | .shiftOut _ _ _ _ => .ack

/-- The chain after a SHIFT_OUT: shifted where the pins are SD and SC (R65), Unknown for other pins (DESIGN CHOICE, log 9:
the block never issues one). -/
def Env.shiftOut (cfg : Params) (e : Env) (dp cp : Pin) (o : BitOrder) (b : Byte) : Env :=
  if dp = pinOf cfg .sd ∧ cp = pinOf cfg .sc ∧ o = .msbFirst then { e with shift := e.shift.shiftIn b }
  else { e with shift := ⟨none, none⟩ }

/-- The environment after an acknowledged request. A pin that has no role changes nothing here (R56). -/
def Env.perform (cfg : Params) (e : Env) (r : Request) : Env :=
  Env.drawn <| match r with
    | .setPinMode p m => match roleOf cfg p with
      | some role => e.setMode role (some m)
      | none => e
    | .digitalWrite p l => match roleOf cfg p with
      | some role => e.writePin cfg role l
      | none => e
    | .digitalRead _ => e
    | .shiftOut dp cp o b => e.shiftOut cfg dp cp o b

/-- The environment after a request that answered `error`: the state the request would have changed is Unknown (R53, R64
to R66, 93 I6). -/
def Env.fail (cfg : Params) (e : Env) (r : Request) : Env :=
  Env.drawn <| match r with
    | .setPinMode p _ => match roleOf cfg p with
      | some role => e.setMode role none
      | none => e
    | .digitalWrite p l => match roleOf cfg p with
      | some role => e.failPin cfg role l
      | none => e
    | .digitalRead _ => e
    | .shiftOut _ _ _ _ => { e with shift := ⟨none, none⟩ }

/-- The environment's completion step: `MemWrite(a, 1, d)`, then `busy <- none` (R70). -/
def Env.completeCycle (e : Env) : Env :=
  match e.busy with
  | some c => { e.writeByteAt c.addr c.data with busy := none }
  | none => e

/-- The address that a write is going on at: that of the write cycle in progress, or the one on the address lines where the
device has no cycle. -/
def Env.writtenAddress (cfg : Params) (e : Env) : Nat :=
  match e.busy with
  | some c => c.addr
  | none => e.addressLines cfg

/-- After a WriteTimeout, the device's byte and write cycle take any value (R275, 93 I12). -/
def Env.deviceFault (e : Env) : Env :=
  match e.suspect with
  | some a =>
    { (e.writeByteAt a (Config.freeByte e.draws 0)).drawn with
      busy := if Config.freeBit e.draws 0 then some ⟨a, Config.freeByte e.draws 1⟩ else none }
  | none => e

/-- Something outside the block has changed the pins or the shift registers (R79, R304). -/
def Env.changedOutside (e : Env) (pins : Vector PinState 13) (shift : ShiftChain) (latch : Option Address) : Env :=
  { e with pins := pins, shift := shift, latch := latch }

/-- `contention(env)` of R72, an observation: the EEPROM and the host both drive a data line. -/
def Env.contention (e : Env) : Bool :=
  e.outputEnableAt Level.low && (List.finRange 8).any fun i => (e.pin (.d i)).mode == some PinMode.output

/-- `possible_contention(env)` of R72. -/
def Env.possibleContention (e : Env) : Bool :=
  e.contention ||
    (((e.pin .oe).mode == none || (e.pin .oe).level == none) &&
      (List.finRange 8).any fun i => (e.pin (.d i)).mode == some PinMode.output || (e.pin (.d i)).mode == none)

end Sys2Proof.Machine
end

