-- ==== Sys2Proof/Machine/Procedures.lean ====
section
/-! DEFINITION. The procedures of files 41 to 46 as lists of micro-steps, the tick conversion and the dump line. -/

namespace Sys2Proof.Machine

/-- `SPM(r, m)` (R10). -/
def setPinModeOp (cfg : Params) (r : Role) (m : PinMode) : MicroOp :=
  .request (.setPinMode (pinOf cfg r) m)

/-- `DW(r, l)` (R10). -/
def digitalWriteOp (cfg : Params) (r : Role) (l : Level) : MicroOp :=
  .request (.digitalWrite (pinOf cfg r) l)

/-- `SO(b)` (R10). -/
def shiftOutOp (cfg : Params) (b : Byte) : MicroOp :=
  .request (.shiftOut (pinOf cfg .sd) (pinOf cfg .sc) .msbFirst b)

/-- A delay that its parameter turns on: a parameter of 0 issues none (R128). -/
def optionalDelay (kind : DelayKind) (n : Nat) : List MicroOp :=
  if 0 < n then [.delay kind n] else []

/-- The requests of `Setup()`, after the validity bits are cleared (R250). -/
def setupOps (cfg : Params) : List MicroOp :=
  [digitalWriteOp cfg .we .high, setPinModeOp cfg .we .output, .setOutputEnabled false,
    setPinModeOp cfg .oe .output, digitalWriteOp cfg .latch .low, setPinModeOp cfg .latch .output,
    setPinModeOp cfg .sd .output, setPinModeOp cfg .sc .output, .setMode .input, .lifecycle .ready]

/-- `SetAddress(a)` where it takes no fast path (R140). -/
def loadOps (cfg : Params) (a : Address) : List MicroOp :=
  [shiftOutOp cfg (highByte a), shiftOutOp cfg (lowByte a), digitalWriteOp cfg .latch .high] ++
    optionalDelay .us cfg.tLatchUs ++ [digitalWriteOp cfg .latch .low] ++ optionalDelay .us cfg.tSettleUs ++
    [.latched a]

/-- `SetMode(d)` where it takes no fast path: D0 first (R160, R165). -/
def setModeOps (cfg : Params) (d : PinMode) : List MicroOp :=
  [setPinModeOp cfg (.d 0) d, setPinModeOp cfg (.d 1) d, setPinModeOp cfg (.d 2) d, setPinModeOp cfg (.d 3) d,
    setPinModeOp cfg (.d 4) d, setPinModeOp cfg (.d 5) d, setPinModeOp cfg (.d 6) d, setPinModeOp cfg (.d 7) d,
    .directionSet d]

/-- The level of the OE pin for an output-enable state: the pin is active-low (R26, R162). -/
def outputEnableLevel (e : Bool) : Level :=
  if e then .low else .high

/-- `SetOutputEnabled(e)` where it takes no fast path (R162). -/
def setOutputEnabledOps (cfg : Params) (e : Bool) : List MicroOp :=
  [digitalWriteOp cfg .oe (outputEnableLevel e), .outputEnableSet e]

/-- `ReadByte(a)` (R180). -/
def readByteOps (a : Address) : List MicroOp :=
  [.setAddress a, .setMode .input, .setOutputEnabled true, .clearAccumulator,
    .sample 7, .sample 6, .sample 5, .sample 4, .sample 3, .sample 2, .sample 1, .sample 0]

/-- `Poll()` up to the polling loop: states P0, P1 and P2 (R184). -/
def pollOps (cfg : Params) : List MicroOp :=
  [setPinModeOp cfg (.d 7) .input, .setOutputEnabled true, .clearPollCount, .pollRead]

/-- `WriteByte(a, v)` (R182). -/
def writeByteOps (cfg : Params) (a : Address) (v : Byte) : List MicroOp :=
  [.setAddress a, .setOutputEnabled false, .setMode .output, .captureValue v,
    .driveBit 0, .driveBit 1, .driveBit 2, .driveBit 3, .driveBit 4, .driveBit 5, .driveBit 6, .driveBit 7,
    digitalWriteOp cfg .we .low] ++ optionalDelay .ns cfg.tWeNs ++ [digitalWriteOp cfg .we .high] ++ pollOps cfg

/-- One row of `DUMP`: 16 reads, each stored, then the line (R223). -/
def dumpRowOps (bi : BulkIndex) : List MicroOp :=
  .clearRow :: (List.range 16).flatMap (fun j => readByteOps (rowAddress bi j) ++ [.storeRow]) ++ [.emitLine]

/-- One iteration of a bulk loop at index `BI` (R220, R222, R223). -/
def iterationOps (kind : BulkKind) (s : State) : List MicroOp :=
  match kind with
  | .block => writeByteOps s.cfg (bulkAddress s.bi) (payloadByte s.payload s.bi.toNat)
  | .clear => writeByteOps s.cfg (bulkAddress s.bi) s.cfg.erasedValue
  | .dump => dumpRowOps s.bi

/-- A bulk loop of `count` iterations from `BI = 0`. -/
def bulkOps (kind : BulkKind) (count : Nat) : List MicroOp :=
  [.clearIndex, .loop kind count]

/-- `targetTicks(n) = floor(n × TICK_HZ / 10^9)` for `n` nanoseconds (R121). -/
def targetTicks (cfg : Params) (n : Nat) : Nat :=
  n * cfg.tickHz / 10 ^ 9

/-- `NS_PER_TICK`, an exact rational (R31). -/
def nsPerTick (cfg : Params) : Rat :=
  10 ^ 9 / (cfg.tickHz : Rat)

/-- The tick bound of a delay event (R121, R123, R125); a ms delay has none (R126). -/
def delayTicks (cfg : Params) (kind : DelayKind) (n : Nat) : Option Nat :=
  match kind with
  | .ns => some (targetTicks cfg n)
  | .us => some (targetTicks cfg (n * 1000))
  | .ms => none

/-- An upper-case hexadecimal digit (R224). -/
def hexDigit (n : Nat) : Char :=
  ['0', '1', '2', '3', '4', '5', '6', '7', '8', '9', 'A', 'B', 'C', 'D', 'E', 'F'].getD n '0'

/-- `HEX(x, k)` of a number of at most `k` hexadecimal digits (R224). -/
def hex (x k : Nat) : List Char :=
  (List.range k).map fun j => hexDigit (x / 16 ^ (k - 1 - j) % 16)

/-- How many hexadecimal digits a number has. -/
def hexLength (n : Nat) : Nat :=
  if n = 0 then 1 else n.log2 / 4 + 1

/-- `W = max(3, hex digits of CAPACITY − 16)` (R224). -/
def dumpWidth (cfg : Params) : Nat :=
  max 3 (hexLength (cfg.capacity - 16))

/-- The token of byte `j` of a dump row, with the extra space before byte 8 (R224). -/
def dumpToken (row : List Byte) (j : Nat) : List Char :=
  (if j = 8 then [' '] else []) ++ ' ' :: hex (row.getD j 0).toNat 2

/-- `DumpLine(base, row)` (R224). -/
def dumpLine (cfg : Params) (base : Nat) (row : List Byte) : List Char :=
  hex base (dumpWidth cfg) ++ [':', ' '] ++ (List.range 16).flatMap (dumpToken row) ++ ['\n']

end Sys2Proof.Machine
end

