-- ==== Sys2Proof/Machine/Ops.lean ====
section
/-! DEFINITION. The shared operations of the command cycle: taking an error (60_exceptions.md R272), carrying the silent
micro-steps out, the transport request (00_scope.md R10), the lifecycle and range gates (46_lifecycle.md R253, R254), the
payload, the delay events, the response (30_encoding.md R100) and the reset input (70_reset_and_hazards.md R300 to
R305). There is no return from an error: the host sends the next command (R279). -/

namespace Sys2Proof.Machine

/-- `respond(st, 0)` with no request: a refusal (R254, R276), and the response after an error (R272). -/
def State.refuse (s : State) (st : Status) : State :=
  { s with ms := [.respond st] }

/-- A command or payload word that spells no command (R96, R254). -/
def State.refuseReserved (s : State) (a : Activity) : State :=
  { s with issued := false, current := a, ms := [.respond .refusedReservedEncoding] }

/-- `raise E`: taking an error (R272). A TransportFailure clears the three validity bits, and `LC` too if the command is
SETUP. A WriteTimeout changes no cache; from then on the device is suspect at "the address" (R275). Which one that is, is the model's
choice (DESIGN CHOICE, log 13): that of the running cycle, or the one on the address lines where no cycle runs. It can differ
from the address of the command where `LAT` was Unknown or changed from outside, and where the write pulse came during a cycle
that was still running (a WRITE retried after a WriteTimeout), which leaves the cycle at a free address (R71, log 26).
CapacityExceeded changes nothing. -/
def raise (e : ErrorKind) (s : State) : State :=
  match e with
  | .transportFailure =>
    { s with
      cav := false
      dirv := false
      oev := false
      lc := if s.current = .command .setup then .unconfigured else s.lc
      ms := [.respond e.status] }
  | .writeTimeout =>
    { s with
      env := { s.env with suspect := some (s.env.writtenAddress s.cfg) }
      ms := [.respond e.status] }
  | .capacityExceeded => { s with ms := [.respond e.status] }

/-- Carries the silent micro-steps at the front of a procedure out, up to the next request, delay, response or bulk loop,
and leaves what is left in `MS` (R32). The fast paths of R140, R160 and R162 are taken here. -/
def settle : List MicroOp → State → State
  | [], s => { s with ms := [] }
  | op :: k, s =>
    match op with
    | .setup => { s with cav := false, dirv := false, oev := false, ms := setupOps s.cfg ++ k }
    | .lifecycle l => settle k { s with lc := l }
    | .setAddress a =>
      if s.cav = true ∧ s.ca = a then settle k s else { s with ms := loadOps s.cfg a ++ k }
    | .latched a => settle k { s with ca := a, cav := true }
    | .setMode d =>
      if s.dirv = true ∧ s.dir = d then settle k s else { s with ms := setModeOps s.cfg d ++ k }
    | .directionSet d => settle k { s with dir := d, dirv := true }
    | .setOutputEnabled e =>
      if s.oev = true ∧ s.oe = e then settle k s else { s with ms := setOutputEnabledOps s.cfg e ++ k }
    | .outputEnableSet e => settle k { s with oe := e, oev := true }
    | .clearAccumulator => settle k { s with ra := 0 }
    | .captureValue v => settle k { s with em := v[7], wv := v }
    | .driveBit i =>
      { s with ms := digitalWriteOp s.cfg (.d i) (if s.wv[0] then .high else .low) :: .shiftValue :: k }
    | .shiftValue => settle k { s with wv := s.wv >>> 1 }
    | .clearPollCount => settle k { s with pcnt := 0 }
    | .raiseTimeout => raise .writeTimeout s
    | .clearIndex => settle k { s with bi := 0 }
    | .nextIndex => settle k { s with bi := s.bi + 1 }
    | .clearRow => settle k { s with row := [] }
    | .storeRow => settle k { s with row := s.row ++ [s.ra] }
    | .emitLine => settle k { s with trace := s.trace ++ [.text (dumpLine s.cfg (16 * s.bi.toNat) s.row)] }
    | .request _ | .sample _ | .pollRead | .restoreBit7 | .delay _ _ | .respond _ | .respondByte | .takePayload _
    | .loop _ _ => { s with ms := op :: k }

/-- At the head of a bulk loop: the next iteration, or what comes after the loop (R220, R222, R223). Every iteration
performs requests, so one look is enough. -/
def enterLoop (s : State) : State :=
  match s.ms with
  | .loop kind count :: k =>
    if s.bi.toNat < count then settle (iterationOps kind s ++ .nextIndex :: .loop kind count :: k) s
    else settle k s
  | _ => s

/-- Goes on with the procedure `ops` up to its next request, delay or response. -/
def resume (ops : List MicroOp) (s : State) : State :=
  enterLoop (settle ops s)

/-- The state with `MS` at a request, a delay, a response or a place that waits for a word. Only the state right after
reset is not so already (R302: `MS` is the start of the Setup). -/
def State.settled (s : State) : State :=
  resume s.ms s

/-- What an acknowledged request does to the procedure it belongs to: `RA` takes the bit (R180); `Poll()` leaves P2 on a
match, on the last read that `POLL_LIMIT` allows, or not at all (R184, R185, R186). -/
def afterResponse (response : Response) (s : State) : State :=
  match s.ms with
  | .sample _ :: k =>
    resume k { s with ra := (s.ra <<< 1) ||| (BitVec.ofBool (response = .bit true)).setWidth 8 }
  | .pollRead :: k =>
    if response = .bit s.em then resume (.restoreBit7 :: k) { s with pcnt := s.pcnt + 1 }
    else if s.cfg.pollLimit = some (s.pcnt + 1) then
      resume (.restoreBit7 :: .raiseTimeout :: k) { s with pcnt := s.pcnt + 1 }
    else { s with pcnt := s.pcnt + 1 }
  | .request _ :: k | .restoreBit7 :: k => resume k s
  | _ => s

/-- A request that was acknowledged, with what it answered (R10, R51, R55). -/
def State.acknowledged (s : State) (r : Request) (rest : List Input) : State :=
  { s with
    issued := true
    inbox := rest
    env := s.env.perform s.cfg r
    trace := s.trace ++ [.request r (s.env.answer s.cfg r)] }

/-- Whether the command in progress is a WRITE (R183). -/
def Activity.isWrite : Activity → Bool
  | .command (.write _ _) => true
  | .idle | .automaticSetup | .command _ | .reservedWord _ => false

/-- Whether the command in progress is a WRITE, or a bulk command inside a WriteByte, past its `DW(WE, L)` (R305): the
polling of that WriteByte is still to come or going on, or the command has only the response left that ends it. The response
of a TransportFailure is left out, since the device was drawn when the request failed (R191). -/
def State.pastWriteLow (s : State) : Bool :=
  ((s.ms.contains .pollRead || s.ms.contains .restoreBit7) && !s.ms.contains (digitalWriteOp s.cfg .we .low)) ||
    s.ms.head? == some (.respond .writeTimeout) || (s.ms.head? == some (.respond .ok) && s.current.isWrite)

/-- Whether a request that answers `error` is a DIGITAL_WRITE of WE that may have been part of a write pulse, so that
`Env.fail` disturbs the device itself. -/
def Env.pulses (cfg : Params) (e : Env) : Request → Bool
  | .digitalWrite p l => roleOf cfg p == some Role.we && e.mayPulse l
  | .setPinMode _ _ | .digitalRead _ | .shiftOut _ _ _ _ => false

/-- The environment after a request of the procedure in progress that may or may not have taken effect (R53): what it names
is Unknown, and a write that it cuts off past its `DW(WE, L)` leaves the byte and the write cycle any value, whichever
request it is (R191, R225). Before the `DW(WE, L)` no write pulse has been issued, "so `MEM[0x010]` is unchanged"
(95_test_vectors.md P4). -/
def State.envAfterFailure (s : State) (r : Request) : Env :=
  if s.pastWriteLow && !s.env.pulses s.cfg r then (s.env.disturbed s.cfg).fail s.cfg r else s.env.fail s.cfg r

/-- A request that answered `error` (R53, R191). -/
def State.requestFailed (s : State) (r : Request) (rest : List Input) : State :=
  { s with
    issued := true
    inbox := rest
    env := s.envAfterFailure r
    trace := s.trace ++ [.request r .error] }

/-- `T(req)` (R10, R51): `ISSUED <- 1`, the request with its response in the trace, its effect on the environment, and
then the rest of the procedure or a TransportFailure (R273). Until the transport answers, the block waits. -/
def transport (r : Request) (s : State) : Host.Outcome State Fault Refusal :=
  match s.inbox with
  | .reply true :: rest => .next (raise .transportFailure (s.requestFailed r rest))
  | .reply false :: rest => .next (afterResponse (s.env.answer s.cfg r) (s.acknowledged r rest))
  | _ => .next { s with issued := true }

/-- The commands that run while `LC = UNCONFIGURED` (R253). -/
def runsUnconfigured : Instr → Bool
  | .setup | .close | .delayNs _ | .delayUs _ | .delayMs _ => true
  | .setAddr _ | .setMode _ | .setOe _ | .read _ | .write _ _ | .writeBlock _ | .clear _ | .dump _ => false
  | .reserved0 _ | .reservedE _ | .reservedF _ | .payload _ => false
  | .setPinMode _ _ | .digitalWrite _ _ | .digitalRead _ | .shiftOut _ _ _ _ => false

/-- The lifecycle gate and the range check of the command cycle, in the order of R254 and R278, then the command's own
pseudocode. -/
def gate (i : Instr) (s : State) (run : State → State) : State :=
  if s.lc = .closed then s.refuse .refusedClosed
  else if s.lc = .unconfigured ∧ runsUnconfigured i = false then s.refuse .refusedNotConfigured
  else if addressOutOfRange s.cfg i = true then s.refuse .refusedAddressOutOfRange
  else run s

/-- The command cycle of a one-word command after its word is taken and decoded (R254). -/
def accept (i : Instr) (s : State) (run : State → State) : Host.Outcome State Fault Refusal :=
  .next (gate i { s with issued := false, current := .command i } run)

/-- `WriteBlock(data)` (R220): the capacity check comes before any request. -/
def writeBlock (s : State) : State :=
  if s.cfg.capacity < s.payload.length then raise .capacityExceeded s
  else resume (bulkOps .block s.payload.length ++ [.respond .ok]) s

/-- Whether the word taken at the command position spells no command (R96). -/
def Activity.isReservedWord : Activity → Bool
  | .reservedWord _ => true
  | .idle | .automaticSetup | .command _ => false

/-- The command cycle of a word with opcode 0xA after its payload is taken (R254): a reserved command word, or a malformed
payload word, makes the command reserved as a whole (R96). -/
def beginWriteBlock (s : State) : State :=
  let s := { s with issued := false }
  if s.current.isReservedWord || s.payload.any malformedPayload then s.refuse .refusedReservedEncoding
  else gate (.writeBlock (BitVec.ofNat 24 s.payload.length)) s writeBlock

/-- The acceptance of a word with opcode 0xA: the opcode alone tells that `count` payload words follow, and they are taken
before anything is checked (R95, R254). -/
def acceptWriteBlock (a : Activity) (count : Nat) (s : State) : State :=
  if count = 0 then beginWriteBlock { s with current := a, payload := [] }
  else { s with current := a, payload := [], ms := [.takePayload count] }

/-- The acceptance of a command word that spells no command (R96, R254). With opcode 0xA its payload words are taken first,
so the stream stays framed (R95). -/
def acceptReserved (w : Word) (s : State) : State :=
  if field w 28 4 = 0xA#4 then acceptWriteBlock (.reservedWord w) (field w 0 24).toNat s
  else s.refuseReserved (.reservedWord w)

/-- One payload word is taken (R95, R254). At any other position a payload word spells no command (R96). -/
def takePayloadWord (w : Word) (s : State) : State :=
  match s.ms with
  | .takePayload n :: _ =>
    if n ≤ 1 then beginWriteBlock { s with payload := s.payload ++ [w] }
    else { s with payload := s.payload ++ [w], ms := [.takePayload (n - 1)] }
  | _ => s.refuseReserved (.reservedWord w)

/-- A delay event in the trace (R54, R123). The block waits and does nothing else (R122); the model has no clock (R5). -/
def State.recordDelay (s : State) (kind : DelayKind) (n : Nat) : State :=
  { s with trace := s.trace ++ [.delay kind n (delayTicks s.cfg kind n)] }

/-- The delivery of the response word (R100): the command is over. `ISSUED` is "not kept afterwards" (R29), and the payload and
the row belong to the command only (R223, R254): between commands they are 0 and empty. `WV`, `EM`, `RA`, `PCNT` and `BI` keep
their last values, which R28 leaves unspecified and nothing reads (DESIGN CHOICE, log 35). -/
def State.deliver (s : State) (st : Status) (data : Byte) : State :=
  { s with
    trace := s.trace ++ [.response (responseWord st s.issued data)]
    ms := []
    current := .idle
    issued := false
    payload := []
    row := [] }

/-- The environment when the command in progress is abandoned (R305): the request in flight may or may not have taken
effect (R53), and a write past its `DW(WE, L)` leaves the byte and the write cycle any value (93 I1). -/
def State.abandoned (s : State) : Env :=
  match s.ms.head?.bind (MicroOp.nextRequest s.cfg) with
  | some r => s.envAfterFailure r
  | none => if s.pastWriteLow then (s.env.disturbed s.cfg).drawn else s.env

/-- The reset input (R300, R301): the sequencer's registers take their reset values, the configuration and the environment
stay, the command stream is a new one, and the command in progress gets no response word (R305). -/
def State.resetInput (s : State) (inbox : List Input) : State :=
  State.afterReset s.cfg s.abandoned inbox

end Sys2Proof.Machine
end

