-- ==== Sys2Proof/Machine/AddressSequencer.lean ====
section
/-! DEFINITION. The Address Sequencer's command (42_address_sequencer.md). -/

namespace Sys2Proof.Machine

/-- SET_ADDR (R141): `SetAddress(addr); respond(OK, 0)`. -/
def execSetAddr (a : Address) (s : State) : Host.Outcome State Fault Refusal :=
  accept (.setAddr a) s (resume [.setAddress a, .respond .ok])

end Sys2Proof.Machine
end

