-- ==== Sys2Proof/Machine/Bulk.lean ====
section
/-! DEFINITION. The bulk commands and the payload words (45_bulk.md, 30_encoding.md R95). -/

namespace Sys2Proof.Machine

/-- WRITE_BLOCK (R221): the payload is taken first (R254); with COUNT = 0 there is none. -/
def execWriteBlock (n : Count) (s : State) : Host.Outcome State Fault Refusal :=
  .next (acceptWriteBlock (.command (.writeBlock n)) n.toNat s)

/-- A payload word (R95). -/
def execPayload (b : Byte) (s : State) : Host.Outcome State Fault Refusal :=
  .next (takePayloadWord (encode (.payload b)) s)

/-- CLEAR (R222): `min(c, CAPACITY)` times `WriteByte(BI, ERASED_VALUE)`. -/
def execClear (c : Count) (s : State) : Host.Outcome State Fault Refusal :=
  accept (.clear c) s (resume (bulkOps .clear (clampBytes s.cfg c) ++ [.respond .ok]))

/-- DUMP (R223): `max(1, min(L, CAPACITY/16))` rows. -/
def execDump (l : Count) (s : State) : Host.Outcome State Fault Refusal :=
  accept (.dump l) s (resume (bulkOps .dump (clampLines s.cfg l) ++ [.respond .ok]))

end Sys2Proof.Machine
end

