-- ==== Sys2Proof/Machine/ByteIo.lean ====
section
/-! DEFINITION. The Byte I/O Engine's commands (44_byte_io.md). -/

namespace Sys2Proof.Machine

/-- READ (R181): `v <- ReadByte(a); respond(OK, v)`. -/
def execRead (a : Address) (s : State) : Host.Outcome State Fault Refusal :=
  accept (.read a) s (resume (readByteOps a ++ [.respondByte]))

/-- WRITE (R183): `WriteByte(a, v); respond(OK, 0)`. -/
def execWrite (a : Address) (v : Byte) (s : State) : Host.Outcome State Fault Refusal :=
  accept (.write a v) s (resume (writeByteOps s.cfg a v ++ [.respond .ok]))

end Sys2Proof.Machine
end

