-- ==== Sys2Proof/Machine/DataBus.lean ====
section
/-! DEFINITION. The Data Bus Controller's commands (43_data_bus.md). Neither looks at the other's cache (R164). -/

namespace Sys2Proof.Machine

/-- SET_MODE (R161): `SetMode(d); respond(OK, 0)`. -/
def execSetMode (d : PinMode) (s : State) : Host.Outcome State Fault Refusal :=
  accept (.setMode d) s (resume [.setMode d, .respond .ok])

/-- SET_OE (R163): `SetOutputEnabled(e); respond(OK, 0)`. -/
def execSetOe (e : Bool) (s : State) : Host.Outcome State Fault Refusal :=
  accept (.setOe e) s (resume [.setOutputEnabled e, .respond .ok])

end Sys2Proof.Machine
end

