-- ==== Sys2Proof/Machine/LifecycleCommands.lean ====
section
/-! DEFINITION. SETUP and CLOSE (46_lifecycle.md), and the reserved command words (30_encoding.md R96). -/

namespace Sys2Proof.Machine

/-- SETUP (R251): `Setup(); respond(OK, 0)`. -/
def execSetup (s : State) : Host.Outcome State Fault Refusal :=
  accept .setup s (resume [.setup, .respond .ok])

/-- CLOSE (R252): `LC <- CLOSED; respond(OK, 0)`. -/
def execClose (s : State) : Host.Outcome State Fault Refusal :=
  accept .close s (resume [.lifecycle .closed, .respond .ok])

/-- OP 0x0 (R96): answered REFUSED_RESERVED_ENCODING. -/
def execReserved0 (r : BitVec 28) (s : State) : Host.Outcome State Fault Refusal :=
  .next (s.refuseReserved (.command (.reserved0 r)))

/-- OP 0xE (R96): answered REFUSED_RESERVED_ENCODING. -/
def execReservedE (r : BitVec 28) (s : State) : Host.Outcome State Fault Refusal :=
  .next (s.refuseReserved (.command (.reservedE r)))

/-- OP 0xF (R96): answered REFUSED_RESERVED_ENCODING. -/
def execReservedF (r : BitVec 28) (s : State) : Host.Outcome State Fault Refusal :=
  .next (s.refuseReserved (.command (.reservedF r)))

end Sys2Proof.Machine
end

