-- ==== Sys2Proof/Machine/PinPort.lean ====
section
/-! DEFINITION. The four transport requests of the pin port (20_memory.md R50): the rows of the opcode table that the block
issues, each performed as one step with its response. -/

namespace Sys2Proof.Machine

/-- `SET_PIN_MODE(pin, mode)` (R50). -/
def execSetPinMode (p : Pin) (m : PinMode) (s : State) : Host.Outcome State Fault Refusal :=
  transport (.setPinMode p m) s

/-- `DIGITAL_WRITE(pin, level)` (R50). -/
def execDigitalWrite (p : Pin) (l : Level) (s : State) : Host.Outcome State Fault Refusal :=
  transport (.digitalWrite p l) s

/-- `DIGITAL_READ(pin)` (R50). -/
def execDigitalRead (p : Pin) (s : State) : Host.Outcome State Fault Refusal :=
  transport (.digitalRead p) s

/-- `SHIFT_OUT(dataPin, clockPin, bitOrder, byteValue)` (R50). -/
def execShiftOut (dp cp : Pin) (o : BitOrder) (b : Byte) (s : State) : Host.Outcome State Fault Refusal :=
  transport (.shiftOut dp cp o b) s

end Sys2Proof.Machine
end

