-- ==== Sys2Proof/Machine/Timer.lean ====
section
/-! DEFINITION. The Tick Timer's commands (41_tick_timer.md). -/

namespace Sys2Proof.Machine

/-- DELAY_NS (R124): `DelayNs(n); respond(OK, 0)`. -/
def execDelayNs (n : Count) (s : State) : Host.Outcome State Fault Refusal :=
  accept (.delayNs n) s (resume [.delay .ns n.toNat, .respond .ok])

/-- DELAY_US (R125): `DelayUs(n); respond(OK, 0)`. -/
def execDelayUs (n : Count) (s : State) : Host.Outcome State Fault Refusal :=
  accept (.delayUs n) s (resume [.delay .us n.toNat, .respond .ok])

/-- DELAY_MS (R126): `DelayMs(n); respond(OK, 0)`. -/
def execDelayMs (n : Count) (s : State) : Host.Outcome State Fault Refusal :=
  accept (.delayMs n) s (resume [.delay .ms n.toNat, .respond .ok])

end Sys2Proof.Machine
end

