-- ==== Sys2Proof/Machine/Dispatch.lean ====
section
/-! DEFINITION. The meaning of each row of the opcode table. -/

namespace Sys2Proof.Machine

def exec (i : Instr) (s : State) : Host.Outcome State Fault Refusal :=
  match i with
  | .setup => Sys2Proof.Machine.execSetup s
  | .setAddr a => Sys2Proof.Machine.execSetAddr a s
  | .setMode d => Sys2Proof.Machine.execSetMode d s
  | .setOe e => Sys2Proof.Machine.execSetOe e s
  | .read a => Sys2Proof.Machine.execRead a s
  | .write a v => Sys2Proof.Machine.execWrite a v s
  | .delayNs n => Sys2Proof.Machine.execDelayNs n s
  | .delayUs n => Sys2Proof.Machine.execDelayUs n s
  | .delayMs n => Sys2Proof.Machine.execDelayMs n s
  | .writeBlock n => Sys2Proof.Machine.execWriteBlock n s
  | .clear n => Sys2Proof.Machine.execClear n s
  | .dump n => Sys2Proof.Machine.execDump n s
  | .close => Sys2Proof.Machine.execClose s
  | .reserved0 r => Sys2Proof.Machine.execReserved0 r s
  | .reservedE r => Sys2Proof.Machine.execReservedE r s
  | .reservedF r => Sys2Proof.Machine.execReservedF r s
  | .payload b => Sys2Proof.Machine.execPayload b s
  | .setPinMode p m => Sys2Proof.Machine.execSetPinMode p m s
  | .digitalWrite p l => Sys2Proof.Machine.execDigitalWrite p l s
  | .digitalRead p => Sys2Proof.Machine.execDigitalRead p s
  | .shiftOut dp cp o b => Sys2Proof.Machine.execShiftOut dp cp o b s

end Sys2Proof.Machine
end

