-- ==== Sys2Proof/Machine/Sequencer.lean ====
section
/-! DEFINITION. What one step of the sequencer does (00_scope.md R5): it accepts a word, performs a request, takes a
delay or delivers a response; and where `withFetchWord` puts a word. -/

namespace Sys2Proof.Machine

/-- The word at `CP` is taken: `CP <- CP + 1` (R254). -/
def State.taken (s : State) (rest : List Word) : State :=
  { s with port := rest, cp := s.cp + 1 }

/-- The acceptance of the word at a command position (R254), or waiting for it. -/
def acceptCommand (s : State) : Host.Outcome State Fault Refusal :=
  match s.port with
  | [] => .next s
  | w :: rest =>
    match decode .command w with
    | .ok i => exec i (s.taken rest)
    | .error _ => .next (acceptReserved w (s.taken rest))

/-- The acceptance of the word at a payload position (R95, R254), or waiting for it. Each payload word is a step of its own
that moves `CP` by 1, where R254 takes the payload in one go and R5 names the acceptance of a command word only (DESIGN
CHOICE, log 36). -/
def acceptPayload (s : State) : Host.Outcome State Fault Refusal :=
  match s.port with
  | [] => .next s
  | w :: rest =>
    match decode .payload w with
    | .ok i => exec i (s.taken rest)
    | .error _ => .next (takePayloadWord w (s.taken rest))

/-- One step of the sequencer from a settled position (R5, R32). -/
def sequencerAct (s : State) : Host.Outcome State Fault Refusal :=
  match s.ms with
  | [] => acceptCommand s
  | .takePayload _ :: _ => acceptPayload s
  | .delay kind n :: k => .next (resume k (s.recordDelay kind n))
  | .respond st :: _ => .next (s.deliver st 0)
  | .respondByte :: _ => .next (s.deliver .ok s.ra)
  | op :: _ =>
    match op.nextRequest s.cfg with
    | some r => exec r.instr s
    | none => .next s

/-- One step of the sequencer (R5). -/
def sequencerStep (s : State) : Host.Outcome State Fault Refusal :=
  sequencerAct s.settled

/-- Goes on with the automatic Setup (R302), every request acknowledged, for at most the given number of steps. -/
def finishAutomaticSetup : Nat → State → State
  | 0, s => s
  | k + 1, s =>
    if s.current = .automaticSetup then
      match sequencerStep { s with inbox := [.reply false] } with
      | .next t => finishAutomaticSetup k t
      | .fault _ | .refused _ => s
    else s

/-- The state in which the sequencer is at a command position: the automatic Setup done with every request acknowledged if
it is in progress (R302), any other command in progress dropped (log 10). -/
def State.atCommand (s : State) : State :=
  { finishAutomaticSetup 17 s with ms := [], current := .idle, inbox := s.inbox }

/-- The inputs with the next step left to the sequencer. -/
def letSequencerRun (inbox : List Input) : List Input :=
  match inbox with
  | [] => []
  | .reply f :: rest => .reply f :: rest
  | .pass :: rest => .pass :: rest
  | rest => .pass :: rest

/-- The inputs with an acknowledgement first. -/
def letRequestRun (inbox : List Input) : List Input :=
  match inbox with
  | .reply f :: rest => .reply f :: rest
  | rest => .reply false :: rest

/-- The words of an instruction at a command position: its word, and with opcode 0xA its COUNT payload words (R95), all
zero. -/
def commandWords (w : Word) : List Word :=
  if field w 28 4 = 0xA#4 then w :: List.replicate (field w 0 24).toNat 0 else [w]

/-- Puts a word at the command port with the sequencer at a command position. -/
def State.withCommandWord (s : State) (w : Word) : State :=
  { s.atCommand with port := commandWords w ++ s.port, inbox := letSequencerRun s.inbox }

/-- Puts a word at the one payload position of a WRITE_BLOCK in progress. -/
def State.withPayloadWord (s : State) (w : Word) : State :=
  { s.atCommand with
    port := w :: s.port
    payload := []
    current := .command (.writeBlock 1)
    ms := [.takePayload 1]
    inbox := letSequencerRun s.inbox }

/-- Puts a request at the pin port, the transport ready to answer it. -/
def State.withRequest (s : State) (r : Request) : State :=
  { s.atCommand with ms := [.request r], inbox := letRequestRun s.inbox }

end Sys2Proof.Machine
end

