-- ==== Sys2Proof/Machine/Step.lean ====
section
/-! DEFINITION. The step of the machine: the agent whose turn it is (00_scope.md R6), and where the host of this project
puts one word for the machine to run. -/

namespace Sys2Proof.Machine

/-- One step. The inputs say whose turn it is: the host's (R6), the environment's (R70, R275, R304), the reset input's
(R300), or else the sequencer's (R5). -/
def step (s : State) : Host.Outcome State Fault Refusal :=
  match s.inbox with
  | .hostWord w :: rest => .next { s with inbox := rest, port := s.port ++ [w] }
  | .complete :: rest => .next { s with inbox := rest, env := s.env.completeCycle }
  | .deviceFault :: rest => .next { s with inbox := rest, env := s.env.deviceFault }
  | .external pins shift latch :: rest => .next { s with inbox := rest, env := s.env.changedOutside pins shift latch }
  | .reset :: rest => .next (s.resetInput rest)
  | .pass :: rest => sequencerStep { s with inbox := rest }
  | .reply _ :: _ | [] => sequencerStep s

/-- `s` with the word stored where the next step takes its next instruction from (log 10): a transport request at the pin
port, a payload word at a payload position, any other word at the command port. -/
def State.withFetchWord (s : State) (nbits w : Nat) : State :=
  match decodeTableWord nbits w with
  | some (.setPinMode p m) => s.withRequest (.setPinMode p m)
  | some (.digitalWrite p l) => s.withRequest (.digitalWrite p l)
  | some (.digitalRead p) => s.withRequest (.digitalRead p)
  | some (.shiftOut dp cp o b) => s.withRequest (.shiftOut dp cp o b)
  | some (.payload b) => s.withPayloadWord (encode (.payload b))
  | some _ | none => s.withCommandWord (BitVec.ofNat 32 w)

end Sys2Proof.Machine
end

