-- ==== Sys2Proof/Machine/Assembler.lean ====
section
/-! DEFINITION. The assembly syntax of command streams and the pseudo-instructions (30_encoding.md R98, R99). -/

namespace Sys2Proof.Machine

/-- One line of assembly, the operands as the numbers written (R98), with the pseudo-instructions of R99. -/
inductive AsmLine where
  | setup
  | close
  | setAddr (addr : Nat)
  | read (addr : Nat)
  | write (addr value : Nat)
  | setMode (direction : PinMode)
  | setOe (flag : Nat)
  | delayNs (n : Nat)
  | delayUs (n : Nat)
  | delayMs (n : Nat)
  | writeBlock (bytes : List Nat)
  | clear (n : Nat)
  | dump (n : Nat)
  /-- `NOP` = `DELAY_NS 0` (R99). -/
  | nop
  /-- `ERASE_ALL` = `CLEAR 0xFFFFFF` (R99). -/
  | eraseAll
  /-- `READ_ROW r` = `READ 16r` to `READ 16r+15` (R99). -/
  | readRow (r : Nat)
  deriving DecidableEq, Repr

/-- The words of instructions whose operands fit their fields; none otherwise: "The assembler rejects an operand that does
not fit its field" (R98). -/
def emitIf (fits : Bool) (is : List Instr) : Option (List Word) :=
  if fits then some (is.map encode) else none

/-- The command words of a line (R98, R99). -/
def assemble : AsmLine → Option (List Word)
  | .setup => emitIf true [.setup]
  | .close => emitIf true [.close]
  | .setAddr a => emitIf (decide (a < 2 ^ 16)) [.setAddr (BitVec.ofNat 16 a)]
  | .read a => emitIf (decide (a < 2 ^ 16)) [.read (BitVec.ofNat 16 a)]
  | .write a v =>
    emitIf (decide (a < 2 ^ 16) && decide (v < 2 ^ 8)) [.write (BitVec.ofNat 16 a) (BitVec.ofNat 8 v)]
  | .setMode d => emitIf true [.setMode d]
  | .setOe f => emitIf (decide (f < 2)) [.setOe (f == 1)]
  | .delayNs n => emitIf (decide (n < 2 ^ 24)) [.delayNs (BitVec.ofNat 24 n)]
  | .delayUs n => emitIf (decide (n < 2 ^ 24)) [.delayUs (BitVec.ofNat 24 n)]
  | .delayMs n => emitIf (decide (n < 2 ^ 24)) [.delayMs (BitVec.ofNat 24 n)]
  | .writeBlock bs =>
    emitIf (decide (bs.length < 2 ^ 24) && bs.all fun b => decide (b < 2 ^ 8))
      (.writeBlock (BitVec.ofNat 24 bs.length) :: bs.map fun b => .payload (BitVec.ofNat 8 b))
  | .clear n => emitIf (decide (n < 2 ^ 24)) [.clear (BitVec.ofNat 24 n)]
  | .dump n => emitIf (decide (n < 2 ^ 24)) [.dump (BitVec.ofNat 24 n)]
  | .nop => emitIf true [.delayNs 0]
  | .eraseAll => emitIf true [.clear 0xFFFFFF]
  | .readRow r =>
    emitIf (decide (16 * r + 15 < 2 ^ 16)) ((List.range 16).map fun j => .read (BitVec.ofNat 16 (16 * r + j)))

/-- The value of an upper-case digit. -/
def digitValue (c : Char) : Option Nat :=
  ['0', '1', '2', '3', '4', '5', '6', '7', '8', '9', 'A', 'B', 'C', 'D', 'E', 'F'].idxOf? c

/-- The number that digits spell in a base; none if there is no digit or one is too large. -/
def digitsValue (base : Nat) (ds : List Char) : Option Nat :=
  if ds.isEmpty then none
  else ds.foldl (fun acc c => do
    let n ← acc
    let d ← digitValue c
    if d < base then some (n * base + d) else none) (some 0)

/-- A number in decimal or in `0x` hexadecimal, its letters already in upper case (R98). -/
def number (cs : List Char) : Option Nat :=
  match cs with
  | '0' :: 'X' :: ds => digitsValue 16 ds
  | ds => digitsValue 10 ds

/-- The line without the spaces at its ends. The space is the only white space (DESIGN CHOICE, log 37). -/
def trim (cs : List Char) : List Char :=
  ((cs.dropWhile (· == ' ')).reverse.dropWhile (· == ' ')).reverse

/-- The operands of a line: what stands between its commas. A line with nothing after its mnemonic has none. -/
def operands (cs : List Char) : List (List Char) :=
  if (trim cs).isEmpty then [] else (cs.splitOn ',').map trim

/-- A line in upper case and without its comment, as its mnemonic and its operands (R98). Only a space ends the mnemonic, so
a tab makes the line an error (DESIGN CHOICE, log 37). -/
def splitLine (line : List Char) : List Char × List (List Char) :=
  let cs := trim ((line.takeWhile (· != ';')).map Char.toUpper)
  (cs.takeWhile (· != ' '), operands (cs.dropWhile (· != ' ')))

/-- The operand of SET_MODE: `INPUT` or `OUTPUT` (R98). -/
def modeName (cs : List Char) : Option PinMode :=
  if cs = "INPUT".toList then some .input else if cs = "OUTPUT".toList then some .output else none

/-- A line with one number. -/
def oneNumber (line : Nat → AsmLine) (args : List (List Char)) : Option AsmLine :=
  match args with
  | [a] => (number a).map line
  | _ => none

/-- A line with no operand. -/
def noOperand (line : AsmLine) (args : List (List Char)) : Option AsmLine :=
  if args.isEmpty then some line else none

/-- Reads one line of assembly that holds a command (R98, R99); none if it spells none. -/
def parseLine (line : List Char) : Option AsmLine :=
  let (name, args) := splitLine line
  if name = "SETUP".toList then noOperand .setup args
  else if name = "CLOSE".toList then noOperand .close args
  else if name = "SET_ADDR".toList then oneNumber .setAddr args
  else if name = "READ".toList then oneNumber .read args
  else if name = "WRITE".toList then
    match args with
    | [a, v] => do return .write (← number a) (← number v)
    | _ => none
  else if name = "SET_MODE".toList then
    match args with
    | [m] => (modeName m).map .setMode
    | _ => none
  else if name = "SET_OE".toList then oneNumber .setOe args
  else if name = "DELAY_NS".toList then oneNumber .delayNs args
  else if name = "DELAY_US".toList then oneNumber .delayUs args
  else if name = "DELAY_MS".toList then oneNumber .delayMs args
  else if name = "WRITE_BLOCK".toList then (args.mapM number).map .writeBlock
  else if name = "CLEAR".toList then oneNumber .clear args
  else if name = "DUMP".toList then oneNumber .dump args
  else if name = "NOP".toList then noOperand .nop args
  else if name = "ERASE_ALL".toList then noOperand .eraseAll args
  else if name = "READ_ROW".toList then oneNumber .readRow args
  else none

/-- The command words of one line of text: no word for a blank line or a comment line (DESIGN CHOICE, log 37), an error for a
line that the syntax does not have or an operand that does not fit (R98). -/
def assembleText (line : List Char) : Option (List Word) :=
  if (splitLine line).1.isEmpty then some [] else (parseLine line).bind assemble

end Sys2Proof.Machine
end

