-- ==== Sys2Proof/Machine/Trace.lean ====
section
/-! DEFINITION. Properties of the trace: which events are requests and responses, and pulse widths as sums of delay events
(00_scope.md R5, 41_tick_timer.md R123, 70_reset_and_hazards.md R314). No rule of the sequencer reads them. -/

namespace Sys2Proof.Machine

/-- Whether an event of the trace is a transport request. -/
def Event.isRequest : Event → Bool
  | .request _ _ => true
  | .delay _ _ _ | .response _ | .text _ => false

/-- Whether an event of the trace is a response word. -/
def Event.isResponse : Event → Bool
  | .response _ => true
  | .request _ _ | .delay _ _ _ | .text _ => false

/-- The nanoseconds that an event is guaranteed to last at least: `targetTicks × NS_PER_TICK` for a ns or us delay (R123),
`n` milliseconds for a ms delay (R126), and no time for a round trip or anything else (R123, R314). -/
def Event.nanoseconds (cfg : Params) : Event → Rat
  | .delay .ns _ ticks | .delay .us _ ticks => (ticks.getD 0 : Rat) * nsPerTick cfg
  | .delay .ms n _ => (n : Rat) * 10 ^ 6
  | .request _ _ | .response _ | .text _ => 0

/-- The events before request number `k` (from 0) of a trace; all of them if it has no such request. -/
def eventsBefore (k : Nat) : List Event → List Event
  | [] => []
  | x :: xs =>
    if x.isRequest then
      match k with
      | 0 => []
      | k + 1 => x :: eventsBefore k xs
    else x :: eventsBefore k xs

/-- The events after request number `k` (from 0) of a trace. -/
def eventsAfter (k : Nat) : List Event → List Event
  | [] => []
  | x :: xs =>
    if x.isRequest then
      match k with
      | 0 => xs
      | k + 1 => eventsAfter k xs
    else eventsAfter k xs

/-- The pulse width in nanoseconds between requests number `j` and `k` of a trace: the sum of the delay events between the
two requests (R123). -/
def pulseWidth (cfg : Params) (j k : Nat) (trace : List Event) : Rat :=
  ((eventsAfter j (eventsBefore k trace)).map (Event.nanoseconds cfg)).sum

end Sys2Proof.Machine
end

