-- ==== Sys2Proof/Safety.lean ====
section
/-! DEFINITION. The terms in which claims are stated: runs, the environment's inputs, the request counts of
70_reset_and_hazards.md R321, what the caches mean (10_state.md R34), and the invariant of every step. -/

namespace Sys2Proof.Machine

/-- `k` steps from a state, stopping at the first fault or refusal: the host's own notion of a run. -/
def run (k : Nat) (s : State) : Host.Outcome State Fault Refusal :=
  Host.Core.run Sys2Proof.core k s

/-- Some number of steps leads from `s` to `t`. -/
def Reaches (s t : State) : Prop :=
  ∃ k, run k s = .next t

/-- `n` requests in a row are acknowledged. -/
def acks (n : Nat) : List Input :=
  List.replicate n (.reply false)

/-- It is the sequencer's turn: no step of the environment, of the host or of the reset input comes first. -/
def SequencerTurn (inbox : List Input) : Prop :=
  ∀ x ∈ inbox.head?, ∃ f, x = .reply f

/-- Between commands (R254). -/
def State.Idle (s : State) : Prop :=
  s.ms = [] ∧ s.current = .idle

/-- The state after a command whose last step delivered `response`: between commands, that word in the trace, and what
belongs to one command only not kept (R29, R223, R254). -/
def State.answered (s : State) (events : List Event) (response : Word) : State :=
  { s with
    ms := [], current := .idle, issued := false, payload := [], row := []
    trace := s.trace ++ events ++ [.response response] }

/-- The requests of SetAddress: 0 or 4 (R321). -/
def addressCost (s : State) (a : Address) : Nat :=
  if s.cav = true ∧ s.ca = a then 0 else 4

/-- The requests of SetMode: 0 or 8 (R321). -/
def modeCost (s : State) (d : PinMode) : Nat :=
  if s.dirv = true ∧ s.dir = d then 0 else 8

/-- The requests of SetOutputEnabled: 0 or 1 (R321). -/
def outputEnableCost (s : State) (e : Bool) : Nat :=
  if s.oev = true ∧ s.oe = e then 0 else 1

/-- The requests of ReadByte (R321). -/
def readCost (s : State) (a : Address) : Nat :=
  addressCost s a + modeCost s .input + outputEnableCost s true + 8

/-- The requests of WriteByte before its first polling read (R321): of the 13 fixed requests only the restore of D7 comes
after the polls. -/
def writeCost (s : State) (a : Address) : Nat :=
  addressCost s a + outputEnableCost s false + modeCost s .output + 12

/-- The inputs of a WriteByte every request of which is acknowledged: `misses` polling reads while the device is busy, then
the completion of the write cycle (R70), then the polling read that matches and the restore of D7. -/
def writeInputs (before misses : Nat) : List Input :=
  acks (before + misses) ++ [.complete] ++ acks 2

/-- The inputs of a bulk command of one WriteByte for each entry of `misses`, from address 0 upwards (R220, R222). After the
first WriteByte the address is always a new one and the data pins are already outputs, so each further one has 17 requests
before its first polling read. -/
def bulkWriteInputs (s : State) (misses : List Nat) : List Input :=
  match misses with
  | [] => []
  | m :: rest => writeInputs (writeCost s 0) m ++ rest.flatMap (writeInputs 17)

/-- The requests of a DUMP of `lines` rows (R223, R321). After the first ReadByte only the address changes: 4 requests, and
the 8 samples. -/
def dumpCost (s : State) (lines : Nat) : Nat :=
  readCost s 0 + 12 * (16 * lines - 1)

/-- The transport request that the sequencer's next step issues, if it issues one. -/
def State.pendingRequest (s : State) : Option Request :=
  s.settled.ms.head?.bind (MicroOp.nextRequest s.cfg)

/-- An acknowledged `SPM(r, m)` in the trace (R10, R55). -/
def spmEvent (cfg : Params) (r : Role) (m : PinMode) : Event :=
  .request (.setPinMode (pinOf cfg r) m) .ack

/-- An acknowledged `DW(r, l)` in the trace. -/
def dwEvent (cfg : Params) (r : Role) (l : Level) : Event :=
  .request (.digitalWrite (pinOf cfg r) l) .ack

/-- An acknowledged `SO(b)` in the trace. -/
def soEvent (cfg : Params) (b : Byte) : Event :=
  .request (.shiftOut (pinOf cfg .sd) (pinOf cfg .sc) .msbFirst b) .ack

/-- `DR(Di)` answered with a bit, in the trace. -/
def drEvent (cfg : Params) (i : Fin 8) (b : Bool) : Event :=
  .request (.digitalRead (pinOf cfg (.d i))) (.bit b)

/-- A delay event that its parameter turns on (R128). -/
def optionalDelayEvent (cfg : Params) (kind : DelayKind) (n : Nat) : List Event :=
  if 0 < n then [.delay kind n (delayTicks cfg kind n)] else []

/-- The events of SetAddress with every request acknowledged (R140). -/
def addressEvents (s : State) (a : Address) : List Event :=
  if s.cav = true ∧ s.ca = a then []
  else [soEvent s.cfg (highByte a), soEvent s.cfg (lowByte a), dwEvent s.cfg .latch .high] ++
    optionalDelayEvent s.cfg .us s.cfg.tLatchUs ++ [dwEvent s.cfg .latch .low] ++
    optionalDelayEvent s.cfg .us s.cfg.tSettleUs

/-- The events of SetMode with every request acknowledged (R160, R165). -/
def modeEvents (s : State) (d : PinMode) : List Event :=
  if s.dirv = true ∧ s.dir = d then [] else (List.finRange 8).map fun i => spmEvent s.cfg (.d i) d

/-- The events of SetOutputEnabled with its request acknowledged (R162). -/
def outputEnableEvents (s : State) (e : Bool) : List Event :=
  if s.oev = true ∧ s.oe = e then [] else [dwEvent s.cfg .oe (outputEnableLevel e)]

/-- The events of the eight samples of ReadByte, D7 first, when the data lines carry `v` (R58, R180). -/
def sampleEvents (cfg : Params) (v : Byte) : List Event :=
  (List.finRange 8).reverse.map fun i => drEvent cfg i v[i]

/-- The events of steps 5 and 6 of WriteByte, D0 first, then the write pulse (R58, R182). -/
def driveEvents (cfg : Params) (v : Byte) : List Event :=
  ((List.finRange 8).map fun i => dwEvent cfg (.d i) (if v[i] then .high else .low)) ++
    [dwEvent cfg .we .low] ++ optionalDelayEvent cfg .ns cfg.tWeNs ++ [dwEvent cfg .we .high]

/-- The events of `Poll()` from P0 with `OE = 0`: D7 an input, output enabled, the polling reads, D7 restored (R184). -/
def pollEvents (cfg : Params) (bits : List Bool) : List Event :=
  [spmEvent cfg (.d 7) .input, dwEvent cfg .oe .low] ++ bits.map (drEvent cfg 7) ++ [spmEvent cfg (.d 7) .output]

/-- The 16 events of Setup with every request acknowledged (R250). -/
def setupEvents (cfg : Params) : List Event :=
  [dwEvent cfg .we .high, spmEvent cfg .we .output, dwEvent cfg .oe .high, spmEvent cfg .oe .output,
    dwEvent cfg .latch .low, spmEvent cfg .latch .output, spmEvent cfg .sd .output, spmEvent cfg .sc .output] ++
    (List.finRange 8).map fun i => spmEvent cfg (.d i) .input

/-- The device holds what it held: every byte reads as before, and so do the write cycle and what is suspect after a
WriteTimeout. -/
structure Env.SameDevice (e e' : Env) : Prop where
  bytes : ∀ x, e'.byteAt x = e.byteAt x
  busy : e'.busy = e.busy
  suspect : e'.suspect = e.suspect

/-- What the caches mean at a command position (R34), every request since they were set acknowledged. -/
structure State.Coherent (s : State) : Prop where
  /-- (a) If `CAV = 1`, the address on the EEPROM's address lines is `CA`. -/
  address : s.cav = true → s.env.latch = some s.ca
  /-- (b) If `DIRV = 1`, every data pin is in mode `DIR`. -/
  direction : s.dirv = true → ∀ i : Fin 8, (s.env.pin (.d i)).mode = some s.dir
  /-- (c) If `OEV = 1`, the OE pin is at the level of `OE`. -/
  outputEnable : s.oev = true → (s.env.pin .oe).level = some (outputEnableLevel s.oe)

/-- The pins as Setup and every later acknowledged command leave them, and no write cycle in progress: the latch clock low,
WE idle high, OE driven (R250, 95_test_vectors.md `S0`). -/
structure Env.Quiescent (e : Env) : Prop where
  latchLow : (e.pin .latch).level = some .low
  writeEnableHigh : (e.pin .we).level = some .high
  outputEnableDriven : (e.pin .oe).mode = some .output
  notBusy : e.busy = none

/-- A machine that a command can run on with every request acknowledged: READY, in a configuration that R7 allows, with
caches that describe the environment. -/
structure State.Operational (s : State) : Prop where
  config : s.cfg.wf = true
  ready : s.lc = .ready
  coherent : s.Coherent
  quiescent : s.env.Quiescent

/-- Every address a micro-step names is a device address, every bulk loop stays in the device, and no procedure in progress
closes the block (CLOSE has no request, so its `LC <- CLOSED` never waits in `MS`). -/
def MicroOp.inRange (cfg : Params) : MicroOp → Prop
  | .lifecycle l => l = .ready
  | .setAddress a | .latched a => a.toNat < cfg.capacity
  | .loop .block count | .loop .clear count => count ≤ cfg.capacity
  | .loop .dump count => 16 * count ≤ cfg.capacity
  | _ => True

/-- Where `CA <- a` may stand in a procedure: at the end of the SetAddress in progress, with at least its last request or
delay before it (R140, R143), and nowhere after that. -/
def LatchedLast (cfg : Params) (ms : List MicroOp) : Prop :=
  ∀ a, MicroOp.latched a ∈ ms →
    ∃ ops k, ms = ops ++ k ∧ ops <:+ loadOps cfg a ∧ 2 ≤ ops.length ∧ ∀ b, MicroOp.latched b ∉ k

/-- The invariant of every step: the configuration is one that R7 allows; `MEM` is in its canonical form; every address
that the environment and the caches hold is a device address (R22, R60, R63); the procedure in progress names device
addresses only; `LC` is written to READY only by a Setup (R21); while `LC = CLOSED` all that is left to do is a response, or
the payload of a WRITE_BLOCK that will be refused (R253, R254); the address cache is written at the end of a SetAddress only
(R143); between commands nothing is left to do, and `ISSUED`, the payload and the row are not kept (R29, R254). -/
structure State.Inv (s : State) : Prop where
  config : s.cfg.wf = true
  memory : Memory.wf s.env.mem
  memoryInRange : ∀ c ∈ s.env.mem, c.1 < s.cfg.capacity
  cycleInRange : ∀ c, s.env.busy = some c → c.addr < s.cfg.capacity
  suspectInRange : ∀ a, s.env.suspect = some a → a < s.cfg.capacity
  cacheInRange : s.cav = true → s.ca.toNat < s.cfg.capacity
  procedureInRange : ∀ op ∈ s.ms, op.inRange s.cfg
  lifecycleBySetup : (∃ l, MicroOp.lifecycle l ∈ s.ms) ∨ MicroOp.setup ∈ s.ms →
    s.current = .command .setup ∨ s.current = .automaticSetup
  closedIsSilent : s.lc = .closed → ∀ op ∈ s.ms, (∃ st, op = .respond st) ∨ ∃ n, op = .takePayload n
  latchedLast : LatchedLast s.cfg s.ms
  idleIsClear : s.current = .idle → s.ms = [] ∧ s.issued = false ∧ s.payload = [] ∧ s.row = []

end Sys2Proof.Machine
end

