-- ==== Sys2Proof/Certificates/Slice0/Obligations.lean ====
section
/-! DEFINITION. The statements about the model that the provers settle. Where an equation of a state between commands names
a working register (`wv`, `em`, `ra`, `pcnt`, `bi`), that it keeps its last value there is the model's
choice (log 35): R28 leaves it unspecified and nothing reads it. -/

open Sys2Proof Sys2Proof.Machine

/-! Encoding (30_encoding.md). -/

/-- Every well-formed instruction decodes back from its word, with every operand at every value the encoding admits. -/
def Obligations.DecodeOfEncode : Prop :=
  ∀ i : Instr, i.wellFormed = true → decode i.stream (encode i) = .ok i

/-- Every word that decodes is the one word of the instruction it decodes to, which is well formed and belongs to the
stream it is read in (R97: no two rows of a stream share a word). -/
def Obligations.EncodeOfDecode : Prop :=
  ∀ (st : Stream) (w : Word) (i : Instr),
    decode st w = .ok i → i.stream = st ∧ i.wellFormed = true ∧ encode i = w

/-- A word at a command position decodes to one of the 13 commands of R93, or it is reserved, and it is reserved exactly on
the conditions of the first sentence of R96. -/
def Obligations.ReservedCommandWords : Prop :=
  ∀ w : Word,
    (∃ i, decode .command w = .ok i ∧ i.isReserved = false) ↔
      ¬ (field w 28 4 = 0x0#4 ∨ field w 28 4 = 0xE#4 ∨ field w 28 4 = 0xF#4 ∨ field w 24 4 ≠ 0#4 ∨
        ((field w 28 4 = 0x1#4 ∨ field w 28 4 = 0xD#4) ∧ field w 0 24 ≠ 0#24) ∨
        ((field w 28 4 = 0x2#4 ∨ field w 28 4 = 0x5#4) ∧ field w 0 8 ≠ 0#8) ∨
        ((field w 28 4 = 0x3#4 ∨ field w 28 4 = 0x4#4) ∧ field w 1 23 ≠ 0#23))

/-- A sanity check: words written out from R92, R93 and R102, some of them the examples of the rules. -/
def Obligations.WrittenOutWordsDecode : Prop :=
  decode .command 0x20012300#32 = .ok (.setAddr 0x123#16) ∧
    decode .command 0x30000001#32 = .ok (.setMode .output) ∧
    decode .command 0x40000000#32 = .ok (.setOe false) ∧
    decode .command 0x600005A5#32 = .ok (.write 0x005#16 0xA5#8) ∧
    decode .command 0x700001C2#32 = .ok (.delayNs 450#24) ∧
    decode .command 0xA0000003#32 = .ok (.writeBlock 3#24) ∧
    decode .payload 0x00000022#32 = .ok (.payload 0x22#8) ∧
    decode .request 0x40203107#32 = .ok (.shiftOut 2#8 3#8 .msbFirst 0x07#8)

/-- The layout of a transport-request word, and its example (R102). -/
def Obligations.RequestWordLayout : Prop :=
  (∀ (p : Pin) (m : PinMode),
    let q := (Request.setPinMode p m).word
    field q 28 4 = 0x1#4 ∧ field q 20 8 = p ∧ field q 12 8 = 0#8 ∧ field q 9 3 = 0#3 ∧ field q 8 1 = 0#1 ∧
      field q 0 8 = if m = .output then 0x01#8 else 0x00#8) ∧
  (∀ (p : Pin) (l : Level),
    let q := (Request.digitalWrite p l).word
    field q 28 4 = 0x2#4 ∧ field q 20 8 = p ∧ field q 12 8 = 0#8 ∧ field q 9 3 = 0#3 ∧ field q 8 1 = 0#1 ∧
      field q 0 8 = if l = .high then 0x01#8 else 0x00#8) ∧
  (∀ p : Pin,
    let q := (Request.digitalRead p).word
    field q 28 4 = 0x3#4 ∧ field q 20 8 = p ∧ field q 12 8 = 0#8 ∧ field q 9 3 = 0#3 ∧ field q 8 1 = 0#1 ∧
      field q 0 8 = 0x00#8) ∧
  (∀ (dp cp : Pin) (b : Byte),
    let q := (Request.shiftOut dp cp .msbFirst b).word
    field q 28 4 = 0x4#4 ∧ field q 20 8 = dp ∧ field q 12 8 = cp ∧ field q 9 3 = 0#3 ∧ field q 8 1 = 1#1 ∧
      field q 0 8 = b) ∧
  (Request.shiftOut 2#8 3#8 .msbFirst 0x07#8).word = 0x40203107#32

/-- The words of the transport's responses (R103). -/
def Obligations.TransportResponseWords : Prop :=
  Response.ack.word = 0x00000000#32 ∧ (Response.bit false).word = 0x00000000#32 ∧
    (Response.bit true).word = 0x00000001#32 ∧ Response.error.word = 0x01000000#32

/-- The status codes, and that no step ever adds a response word with another status, or with a bit of `r[23:9]` set
(R101, R100). -/
def Obligations.ResponseStatusCodes : Prop :=
  (Status.code .ok = 0x00#8 ∧ Status.code .transportFailure = 0x01#8 ∧ Status.code .capacityExceeded = 0x02#8 ∧
    Status.code .writeTimeout = 0x03#8 ∧ Status.code .refusedReservedEncoding = 0x10#8 ∧
    Status.code .refusedNotConfigured = 0x11#8 ∧ Status.code .refusedClosed = 0x12#8 ∧
    Status.code .refusedAddressOutOfRange = 0x13#8) ∧
  ∀ (s t : State) (w : Word), step s = .next t → .response w ∈ t.trace →
    .response w ∈ s.trace ∨
      (field w 24 8 ∈ [0x00#8, 0x01#8, 0x02#8, 0x03#8, 0x10#8, 0x11#8, 0x12#8, 0x13#8] ∧ field w 9 15 = 0#15)

/-- The words of the pseudo-instructions (R99): NOP has a target tick count of 0, ERASE_ALL's clamp is the whole device. That
NOP issues no request is what `DelayNsCompletes` says of `DELAY_NS 0`. -/
def Obligations.PseudoInstructions : Prop :=
  assemble .nop = some [0x70000000#32] ∧ assemble .eraseAll = some [0xB0FFFFFF#32] ∧
    (∀ r, 16 * r + 15 < 2 ^ 16 →
      assemble (.readRow r) = some ((List.range 16).map fun j => 0x50000000#32 ||| BitVec.ofNat 32 ((16 * r + j) * 256))) ∧
    (∀ cfg : Params, targetTicks cfg 0 = 0) ∧
    ∀ cfg : Params, cfg.wf = true → clampBytes cfg 0xFFFFFF#24 = cfg.capacity

/-! The step. -/

/-- A step runs the decoded instruction: at a command position and at a payload position the word at `CP` is taken and the
instruction it decodes to is executed; inside a procedure the pending transport request is. That a payload word is taken in a
step of its own, which moves `CP` by 1, is the model's choice (DESIGN CHOICE, log 36). -/
def Obligations.StepRunsTheDecodedInstruction : Prop :=
  (∀ (s : State) (w : Word) (ws : List Word) (i : Instr),
    s.ms = [] → SequencerTurn s.inbox → s.port = w :: ws → decode .command w = .ok i →
      step s = exec i { s with port := ws, cp := s.cp + 1 }) ∧
  (∀ (s : State) (w : Word) (ws : List Word) (n : Nat) (k : List MicroOp) (i : Instr),
    s.ms = .takePayload n :: k → SequencerTurn s.inbox → s.port = w :: ws → decode .payload w = .ok i →
      step s = exec i { s with port := ws, cp := s.cp + 1 }) ∧
  ∀ (s : State) (op : MicroOp) (k : List MicroOp) (r : Request),
    s.ms = op :: k → SequencerTurn s.inbox → op.nextRequest s.cfg = some r → step s = exec r.instr s

/-- The steps that run no instruction: a delay, the delivery of the response word, and waiting for a word or for the
transport's answer. The fifth clause is the model's choice (DESIGN CHOICE, log 27): a request that has no answer yet sets
`ISSUED` and changes nothing else, not even the trace. -/
def Obligations.StepOfDelayResponseAndWaiting : Prop :=
  (∀ (s : State) (kind : DelayKind) (n : Nat) (k : List MicroOp),
    s.ms = .delay kind n :: k → SequencerTurn s.inbox →
      step s = .next (resume k { s with trace := s.trace ++ [.delay kind n (delayTicks s.cfg kind n)] })) ∧
  (∀ (s : State) (st : Status) (k : List MicroOp),
    s.ms = .respond st :: k → SequencerTurn s.inbox →
      step s = .next (s.answered [] (responseWord st s.issued 0#8))) ∧
  (∀ (s : State) (k : List MicroOp),
    s.ms = .respondByte :: k → SequencerTurn s.inbox →
      step s = .next (s.answered [] (responseWord .ok s.issued s.ra))) ∧
  (∀ s : State, s.ms = [] → s.inbox = [] → s.port = [] → step s = .next s) ∧
  ∀ (s : State) (op : MicroOp) (k : List MicroOp) (r : Request),
    s.ms = op :: k → s.inbox = [] → op.nextRequest s.cfg = some r → step s = .next { s with issued := true }

/-- No state stops the machine: every command ends in one of the ways of R270, and nothing is a fault. -/
def Obligations.EveryStepAnswersNext : Prop :=
  ∀ s : State, ∃ t, step s = .next t

/-- One step adds to the trace at most one transport request, and exactly then it consumes one answer of the transport. -/
def Obligations.OneRequestPerStep : Prop :=
  ∀ s t : State, step s = .next t → (∀ rest, s.inbox ≠ .reset :: rest) →
    ∃ events, t.trace = s.trace ++ events ∧
      (((events.filter Event.isRequest).length = 1 ∧
          ∃ f, s.inbox = .reply f :: t.inbox ∨ s.inbox = .pass :: .reply f :: t.inbox) ∨
        ((events.filter Event.isRequest).length = 0 ∧
          (t.inbox = s.inbox ∨ ∃ x, s.inbox = x :: t.inbox ∧ ∀ f, x ≠ .reply f)))

/-! The gates and the refusals (46_lifecycle.md R253, R254; 60_exceptions.md R276, R278). -/

/-- The lifecycle gate of the one-word commands, before any other check but the encoding's. -/
def Obligations.LifecycleGate : Prop :=
  ∀ (i : Instr) (s : State), i.stream = .command → i.isReserved = false → (∀ n, i ≠ .writeBlock n) →
    (s.lc = .closed →
      exec i s = .next { s with issued := false, current := .command i, ms := [.respond .refusedClosed] }) ∧
    (s.lc = .unconfigured →
      ¬ (i = .setup ∨ i = .close ∨ (∃ n, i = .delayNs n) ∨ (∃ n, i = .delayUs n) ∨ ∃ n, i = .delayMs n) →
      exec i s = .next { s with issued := false, current := .command i, ms := [.respond .refusedNotConfigured] }) ∧
    (s.lc = .ready ∨
        (s.lc = .unconfigured ∧
          (i = .setup ∨ i = .close ∨ (∃ n, i = .delayNs n) ∨ (∃ n, i = .delayUs n) ∨ ∃ n, i = .delayMs n)) →
      ∃ t, exec i s = .next t ∧ t.ms.head? ≠ some (.respond .refusedClosed) ∧
        t.ms.head? ≠ some (.respond .refusedNotConfigured))

/-- An address at or above CAPACITY is refused before any request (R94, R276). -/
def Obligations.AddressOutOfRangeIsRefused : Prop :=
  ∀ (s : State) (a : Address) (v : Byte), s.lc = .ready → s.cfg.capacity ≤ a.toNat → SequencerTurn s.inbox →
    ∀ i ∈ [Instr.setAddr a, Instr.read a, Instr.write a v],
      ∃ t, exec i s = .next t ∧ step t = .next (s.answered [] 0x13000000#32)

/-- A reserved command word changes no state but `CP`, issues no request and answers one response word (R96). -/
def Obligations.ReservedCommandsAnswer : Prop :=
  (∀ (s : State) (r : BitVec 28), SequencerTurn s.inbox →
    (∃ t, exec (.reserved0 r) s = .next t ∧ step t = .next (s.answered [] 0x10000000#32)) ∧
    (∃ t, exec (.reservedE r) s = .next t ∧ step t = .next (s.answered [] 0x10000000#32)) ∧
    ∃ t, exec (.reservedF r) s = .next t ∧ step t = .next (s.answered [] 0x10000000#32)) ∧
  ∀ (s : State) (w : Word) (ws : List Word) (x : DecodeError), s.ms = [] → SequencerTurn s.inbox → s.port = w :: ws →
    decode .command w = .error x → field w 28 4 ≠ 0xA#4 →
      Reaches s ({ s with port := ws, cp := s.cp + 1 }.answered [] 0x10000000#32)

/-- A word with opcode 0xA takes its COUNT payload words whatever becomes of it, and the refusals come in the order of
R278 (R95, R96, R254). -/
def Obligations.WriteBlockRefusals : Prop :=
  ∀ (s : State) (w : Word) (ws rest : List Word), field w 28 4 = 0xA#4 → (field w 0 24).toNat = ws.length →
    s.ms = [] → SequencerTurn s.inbox → s.port = w :: (ws ++ rest) →
    let refused := fun r : Word =>
      ({ s with port := rest, cp := s.cp + 1 + ws.length }.answered [] r)
    (field w 24 4 ≠ 0#4 ∨ (∃ x ∈ ws, field x 8 24 ≠ 0#24) → Reaches s (refused 0x10000000#32)) ∧
    (field w 24 4 = 0#4 → (∀ x ∈ ws, field x 8 24 = 0#24) →
      (s.lc = .closed → Reaches s (refused 0x12000000#32)) ∧
      (s.lc = .unconfigured → Reaches s (refused 0x11000000#32)))

/-- WRITE_BLOCK with more bytes than the device has (R274): no request, no register changed, 0x02000000. -/
def Obligations.CapacityExceededIssuesNothing : Prop :=
  ∀ (s : State) (data : List Byte) (rest : List Word), s.lc = .ready → s.ms = [] → SequencerTurn s.inbox →
    s.cfg.capacity < data.length → data.length < 2 ^ 24 →
    s.port = (0xA0000000#32 ||| BitVec.ofNat 32 data.length) :: (data.map (fun b => 0#24 ++ b) ++ rest) →
    Reaches s ({ s with port := rest, cp := s.cp + 1 + data.length }.answered [] 0x02000000#32)

/-! The Tick Timer (41_tick_timer.md). -/

/-- DELAY_NS (R124): it is accepted before and after Setup, records its delay with its tick bound, issues no request and
answers OK; everything else is unchanged. -/
def Obligations.DelayNsCompletes : Prop :=
  (∀ n : Count, encode (.delayNs n) = 0x70000000#32 ||| n.setWidth 32) ∧
  (∀ (s : State) (n : Count), s.lc = .unconfigured ∨ s.lc = .ready → SequencerTurn s.inbox →
    ∃ t, exec (.delayNs n) s = .next t ∧
      Reaches t (s.answered [.delay .ns n.toNat (some (n.toNat * s.cfg.tickHz / 10 ^ 9))]
        0x00000000#32)) ∧
  (∀ (cfg : Params) (n : Nat), n * cfg.tickHz < 10 ^ 9 → targetTicks cfg n = 0) ∧
  ∀ cfg : Params, cfg.tickHz = 10 ^ 7 → targetTicks cfg 450 = 4

/-- DELAY_US (R125): as DELAY_NS, for `n × 1000` nanoseconds. -/
def Obligations.DelayUsCompletes : Prop :=
  (∀ n : Count, encode (.delayUs n) = 0x80000000#32 ||| n.setWidth 32) ∧
  (∀ (s : State) (n : Count), s.lc = .unconfigured ∨ s.lc = .ready → SequencerTurn s.inbox →
    ∃ t, exec (.delayUs n) s = .next t ∧
      Reaches t (s.answered
        [.delay .us n.toNat (some (n.toNat * 1000 * s.cfg.tickHz / 10 ^ 9))] 0x00000000#32)) ∧
  ∀ cfg : Params, cfg.tickHz = 10 ^ 7 → delayTicks cfg .us 10 = some 100

/-- DELAY_MS (R126): as DELAY_NS, without a tick count. -/
def Obligations.DelayMsCompletes : Prop :=
  (∀ n : Count, encode (.delayMs n) = 0x90000000#32 ||| n.setWidth 32) ∧
  ∀ (s : State) (n : Count), s.lc = .unconfigured ∨ s.lc = .ready → SequencerTurn s.inbox →
    ∃ t, exec (.delayMs n) s = .next t ∧
      Reaches t (s.answered [.delay .ms n.toNat none] 0x00000000#32)

/-- The conversion of R121, as the floor of an exact rational, and what follows for the elapsed time (R123). -/
def Obligations.TargetTicksIsTheFloor : Prop :=
  ∀ (cfg : Params) (n : Nat), 0 < cfg.tickHz →
    ((targetTicks cfg n : Nat) : Int) = ⌊(n : Rat) / nsPerTick cfg⌋ ∧
      targetTicks cfg n = n * cfg.tickHz / 10 ^ 9 ∧
      delayTicks cfg .us n = some (targetTicks cfg (n * 1000)) ∧
      (n : Rat) - nsPerTick cfg < (targetTicks cfg n : Rat) * nsPerTick cfg ∧
      (targetTicks cfg n : Rat) * nsPerTick cfg ≤ n

/-! The Address Sequencer (42_address_sequencer.md). -/

/-- SET_ADDR with every request acknowledged, from any READY state: no request if the address is the cached one, otherwise
the sequence of R140; `CA` and `CAV` at the end; no other register, no pin but LATCH and no device byte changed. -/
def Obligations.SetAddrCompletes : Prop :=
  ∀ (s : State) (a : Address) (rest : List Input), s.cfg.wf = true → s.lc = .ready → a.toNat < s.cfg.capacity →
    s.inbox = acks (addressCost s a) ++ rest → SequencerTurn rest →
    ∃ t u, exec (.setAddr a) s = .next t ∧ Reaches t u ∧
      u = ({ s with ca := a, cav := true, inbox := rest, env := u.env }.answered
        (addressEvents s a) (if s.cav = true ∧ s.ca = a then 0x00000000#32 else 0x00000100#32)) ∧
      (s.cav = true ∧ s.ca = a → u.env = s.env) ∧
      (∀ r, r ≠ .latch → u.env.pin r = s.env.pin r) ∧
      (¬ (s.cav = true ∧ s.ca = a) → u.env.pin .latch = { s.env.pin .latch with level := some .low }) ∧
      s.env.SameDevice u.env

/-- After the sequence the shift chain and the address lines hold the address; while the bytes are shifted in, the address
lines keep the old one (R145). -/
def Obligations.AddressLinesCarryTheAddress : Prop :=
  (∀ (s : State) (a : Address) (rest : List Input), s.cfg.wf = true → s.lc = .ready → a.toNat < s.cfg.capacity →
    ¬ (s.cav = true ∧ s.ca = a) → (s.env.pin .latch).level = some .low → s.inbox = acks 4 ++ rest → SequencerTurn rest →
    ∃ t u, exec (.setAddr a) s = .next t ∧ Reaches t u ∧ u.Idle ∧ u.inbox = rest ∧
      u.env.shift.value = some a ∧ u.env.latch = some a ∧
      u.env.addressLines s.cfg = a.toNat % 2 ^ addrBits s.cfg) ∧
  ∀ (cfg : Params) (e : Env) (b : Byte),
    (e.perform cfg (.shiftOut (pinOf cfg .sd) (pinOf cfg .sc) .msbFirst b)).latch = e.latch

/-- SET_ADDR whose request number `k` (from 0) answers `error`: the requests after it are not issued, `CA` keeps its value,
`CAV`, `DIRV` and `OEV` are cleared, so the next SET_ADDR takes no fast path whatever its address is (R144). -/
def Obligations.SetAddrFails : Prop :=
  ∀ (s : State) (a : Address) (k : Nat) (rest : List Input), s.cfg.wf = true → s.lc = .ready → a.toNat < s.cfg.capacity →
    k < addressCost s a → s.inbox = acks k ++ .reply true :: rest → SequencerTurn rest →
    ∃ t u before r, exec (.setAddr a) s = .next t ∧ Reaches t u ∧
      u = ({ s with cav := false, dirv := false, oev := false, inbox := rest, env := u.env }.answered
        (before ++ [Event.request r .error]) 0x01000100#32) ∧
      (before ++ [Event.request r .ack]) <+: addressEvents s a ∧ (before.filter Event.isRequest).length = k ∧
      (∀ b, addressCost u b = 4) ∧ s.env.SameDevice u.env

/-! The Data Bus Controller (43_data_bus.md). -/

/-- SET_MODE with every request acknowledged, from any READY state, whatever `OE` is: no request if the direction is the
cached one, otherwise one SET_PIN_MODE for each data pin, D0 first; `DIR` and `DIRV` at the end. -/
def Obligations.SetModeCompletes : Prop :=
  ∀ (s : State) (d : PinMode) (rest : List Input), s.cfg.wf = true → s.lc = .ready →
    s.inbox = acks (modeCost s d) ++ rest → SequencerTurn rest →
    ∃ t u, exec (.setMode d) s = .next t ∧ Reaches t u ∧
      u = ({ s with dir := d, dirv := true, inbox := rest, env := u.env }.answered
        (modeEvents s d) (if s.dirv = true ∧ s.dir = d then 0x00000000#32 else 0x00000100#32)) ∧
      (s.dirv = true ∧ s.dir = d → u.env = s.env) ∧
      (¬ (s.dirv = true ∧ s.dir = d) → ∀ i, u.env.pin (.d i) = { s.env.pin (.d i) with mode := some d }) ∧
      (∀ r, (∀ i, r ≠ .d i) → u.env.pin r = s.env.pin r) ∧
      u.env.shift = s.env.shift ∧ u.env.latch = s.env.latch ∧ s.env.SameDevice u.env

/-- SET_OE with its request acknowledged, from any READY state, whatever `DIR` is: no request if the state is the cached
one, otherwise one DIGITAL_WRITE of the active-low OE pin; `OE` and `OEV` at the end. -/
def Obligations.SetOeCompletes : Prop :=
  ∀ (s : State) (b : Bool) (rest : List Input), s.cfg.wf = true → s.lc = .ready →
    s.inbox = acks (outputEnableCost s b) ++ rest → SequencerTurn rest →
    ∃ t u, exec (.setOe b) s = .next t ∧ Reaches t u ∧
      u = ({ s with
        oe := b, oev := true, inbox := rest, env := u.env }.answered
        (outputEnableEvents s b) (if s.oev = true ∧ s.oe = b then 0x00000000#32 else 0x00000100#32)) ∧
      (s.oev = true ∧ s.oe = b → u.env = s.env) ∧
      (¬ (s.oev = true ∧ s.oe = b) →
        u.env.pin .oe = { s.env.pin .oe with level := some (if b then .low else .high) }) ∧
      (∀ r, r ≠ .oe → u.env.pin r = s.env.pin r) ∧
      u.env.shift = s.env.shift ∧ u.env.latch = s.env.latch ∧ s.env.SameDevice u.env

/-- SET_MODE and SET_OE whose request number `k` answers `error`: the caches are not written and not trusted (R160, R162,
R272). -/
def Obligations.BusSettersFail : Prop :=
  (∀ (s : State) (d : PinMode) (k : Nat) (rest : List Input), s.cfg.wf = true → s.lc = .ready → k < modeCost s d →
    s.inbox = acks k ++ .reply true :: rest → SequencerTurn rest →
    ∃ t u before r, exec (.setMode d) s = .next t ∧ Reaches t u ∧
      u = ({ s with cav := false, dirv := false, oev := false, inbox := rest, env := u.env }.answered
        (before ++ [Event.request r .error]) 0x01000100#32) ∧
      (before ++ [Event.request r .ack]) <+: modeEvents s d ∧ before.length = k ∧ s.env.SameDevice u.env) ∧
  ∀ (s : State) (b : Bool) (rest : List Input), s.cfg.wf = true → s.lc = .ready → outputEnableCost s b ≠ 0 →
    s.inbox = .reply true :: rest → SequencerTurn rest →
    ∃ t u r, exec (.setOe b) s = .next t ∧ Reaches t u ∧
      u = ({ s with cav := false, dirv := false, oev := false, inbox := rest, env := u.env }.answered
        [Event.request r .error] 0x01000100#32) ∧
      outputEnableEvents s b = [.request r .ack] ∧ s.env.SameDevice u.env

/-! Errors (60_exceptions.md). -/

/-- Taking an error (R272): a TransportFailure at any request of any procedure, a WriteTimeout after the restore of D7, a
CapacityExceeded at the last payload word; and then the response with the error's code and `ISSUED` as it stands. What the
failed request leaves of the environment (R53) rests on logs 8, 12 and 33 (DEDUCED; `ErroredRequests` says what it is), and that
the CapacityExceeded is raised in the step of the last payload word, each word having a step of its own, is the model's choice
(DESIGN CHOICE, log 36). -/
def Obligations.TakingAnError : Prop :=
  (∀ (s : State) (op : MicroOp) (k : List MicroOp) (r : Request) (rest : List Input),
    s.ms = op :: k → op.nextRequest s.cfg = some r → s.inbox = .reply true :: rest →
    step s = .next { s with
      cav := false, dirv := false, oev := false
      lc := if s.current = .command .setup then .unconfigured else s.lc
      issued := true, inbox := rest, env := s.envAfterFailure r, trace := s.trace ++ [Event.request r .error]
      ms := [.respond .transportFailure] }) ∧
  (∀ (s : State) (k : List MicroOp) (rest : List Input),
    s.ms = .restoreBit7 :: .raiseTimeout :: k → s.inbox = .reply false :: rest →
    ∃ e, step s = .next { s with
      issued := true, inbox := rest, env := e, trace := s.trace ++ [spmEvent s.cfg (.d 7) .output]
      ms := [.respond .writeTimeout] }) ∧
  (∀ (s : State) (n : Count) (b : Byte) (ws : List Word) (k : List MicroOp),
    s.ms = .takePayload 1 :: k → s.current = .command (.writeBlock n) → SequencerTurn s.inbox → s.lc = .ready →
    s.port = (0#24 ++ b) :: ws → (∀ x ∈ s.payload, field x 8 24 = 0#24) → s.cfg.capacity < s.payload.length + 1 →
    step s = .next { s with
      port := ws, cp := s.cp + 1, payload := s.payload ++ [0#24 ++ b], issued := false
      ms := [.respond .capacityExceeded] }) ∧
  ∀ (s : State) (e : ErrorKind) (k : List MicroOp), s.ms = .respond e.status :: k → SequencerTurn s.inbox →
    step s = .next (s.answered [] (responseWord e.status s.issued 0#8))

/-! The Byte I/O Engine (44_byte_io.md). -/

/-- READ with every request acknowledged, from an operational state: the response carries the byte at the address; the
address is latched, the data pins are inputs and output is enabled; no device byte and no other pin is different. That `RA`
still holds the byte afterwards is the model's choice (log 35). -/
def Obligations.ReadReturnsTheByte : Prop :=
  ∀ (s : State) (a : Address) (rest : List Input), s.Operational → a.toNat < s.cfg.capacity →
    s.inbox = acks (readCost s a) ++ rest → SequencerTurn rest →
    ∃ t u, exec (.read a) s = .next t ∧ Reaches t u ∧
      u = ({ s with
        ca := a, cav := true, dir := .input, dirv := true, oe := true, oev := true, ra := s.env.byteAt a.toNat
        inbox := rest, env := u.env }.answered
        (addressEvents s a ++ modeEvents s .input ++ outputEnableEvents s true ++
          sampleEvents s.cfg (s.env.byteAt a.toNat))
        (0x00000100#32 ||| (s.env.byteAt a.toNat).setWidth 32)) ∧
      u.Operational ∧ s.env.SameDevice u.env ∧
      ∀ r, (∀ i, r ≠ .d i) → r ≠ .oe → u.env.pin r = s.env.pin r

/-- WRITE with every request acknowledged, the write cycle completing after `misses` polling reads: the byte is stored at
the address and nowhere else; exactly `misses + 1` polling reads are issued; the caches and the pins end as R190 says, the
EEPROM and the host both driving the bus. That `EM` and `PCNT` keep their values afterwards is the model's choice (log 35). -/
def Obligations.WriteStoresTheByte : Prop :=
  ∀ (s : State) (a : Address) (v : Byte) (misses : Nat) (rest : List Input), s.Operational → a.toNat < s.cfg.capacity →
    (∀ n, s.cfg.pollLimit = some n → misses < n) →
    s.inbox = writeInputs (writeCost s a) misses ++ rest → SequencerTurn rest →
    ∃ t u, exec (.write a v) s = .next t ∧ Reaches t u ∧
      u = ({ s with
        ca := a, cav := true, dir := .output, dirv := true, oe := true, oev := true
        wv := u.wv, em := v[7], pcnt := misses + 1, inbox := rest, env := u.env }.answered
        (addressEvents s a ++ outputEnableEvents s false ++ modeEvents s .output ++ driveEvents s.cfg v ++
          pollEvents s.cfg (List.replicate misses (!v[7]) ++ [v[7]])) 0x00000100#32) ∧
      u.Operational ∧ u.env.byteAt a.toNat = v ∧ (∀ x, x ≠ a.toNat → u.env.byteAt x = s.env.byteAt x) ∧
      (∀ i, u.env.pin (.d i) = ⟨some .output, some (if v[i] then .high else .low)⟩) ∧
      u.env.pin .oe = ⟨some .output, some .low⟩ ∧ u.env.contention = true ∧
      ∀ r, (∀ i, r ≠ .d i) → r ≠ .oe → u.env.pin r = s.env.pin r

/-- WRITE to a device that never completes, with `POLL_LIMIT = N`: exactly N polling reads, D7 restored, WriteTimeout; the
caches are as after a WRITE (R186). That at this point no byte has changed, the write cycle is still in progress and the
address is held as suspect is the model's choice (DEDUCED, log 13): the device takes the "any value" of R275 in a step of its
own, which may come at any time from here on. That `EM` and `PCNT` keep their values is the model's choice too (log 35). -/
def Obligations.WriteTimesOut : Prop :=
  ∀ (s : State) (a : Address) (v : Byte) (n : Nat) (rest : List Input), s.Operational → a.toNat < s.cfg.capacity →
    s.cfg.pollLimit = some n → s.inbox = acks (writeCost s a + n + 1) ++ rest → SequencerTurn rest →
    ∃ t u, exec (.write a v) s = .next t ∧ Reaches t u ∧
      u = ({ s with
        ca := a, cav := true, dir := .output, dirv := true, oe := true, oev := true
        wv := u.wv, em := v[7], pcnt := n, inbox := rest, env := u.env }.answered
        (addressEvents s a ++ outputEnableEvents s false ++ modeEvents s .output ++ driveEvents s.cfg v ++
          pollEvents s.cfg (List.replicate n (!v[7]))) 0x03000100#32) ∧
      (∀ x, u.env.byteAt x = s.env.byteAt x) ∧ u.env.busy = some ⟨a.toNat, v⟩ ∧ u.env.suspect = some a.toNat ∧
      ∀ i, (u.env.pin (.d i)).mode = some .output

/-- With `POLL_LIMIT = none`, a WRITE to a device that never ends its write cycle never answers: after any number of
acknowledged polling reads it is still polling (R316). -/
def Obligations.UnboundedPollingNeverAnswers : Prop :=
  ∀ (s : State) (a : Address) (v : Byte) (n : Nat), s.Operational → a.toNat < s.cfg.capacity →
    s.cfg.pollLimit = none → s.inbox = acks (writeCost s a + n) →
    ∃ t u events, exec (.write a v) s = .next t ∧ Reaches t u ∧ u.inbox = [] ∧ u.ms.head? = some .pollRead ∧
      u.env.busy = some ⟨a.toNat, v⟩ ∧ u.trace = s.trace ++ events ∧
      (events.filter Event.isRequest).length = writeCost s a + n ∧ events.filter Event.isResponse = []

/-! Bulk operations (45_bulk.md). -/

/-- CLEAR 0 and WRITE_BLOCK with no bytes answer OK with no request (R221, R222). -/
def Obligations.BulkOfNothing : Prop :=
  ∀ s : State, s.lc = .ready → SequencerTurn s.inbox →
    (∃ t u, exec (.clear 0) s = .next t ∧ Reaches t u ∧
      u = ({ s with bi := u.bi }.answered [] 0x00000000#32)) ∧
    ∃ t u, exec (.writeBlock 0) s = .next t ∧ Reaches t u ∧
      u = ({ s with bi := u.bi }.answered [] 0x00000000#32)

/-- WRITE_BLOCK of 1 to CAPACITY bytes, every request acknowledged, the device completing each write cycle: byte `x` of the
data is at address `x`, every other byte is as before (R220, R221). -/
def Obligations.WriteBlockStoresTheBlock : Prop :=
  ∀ (s : State) (n : Count) (data : List Byte) (ws : List Word) (misses : List Nat) (rest : List Input), s.Operational →
    data.length = n.toNat → 1 ≤ data.length → data.length ≤ s.cfg.capacity → misses.length = data.length →
    (∀ m ∈ misses, ∀ l, s.cfg.pollLimit = some l → m < l) →
    s.port = data.map (fun b => 0#24 ++ b) ++ ws →
    s.inbox = bulkWriteInputs s misses ++ rest → SequencerTurn rest →
    ∃ t u events, exec (.writeBlock n) s = .next t ∧ Reaches t u ∧
      u = ({ s with
        ca := BitVec.ofNat 16 (data.length - 1), cav := true, dir := .output, dirv := true, oe := true, oev := true
        wv := u.wv, em := u.em, pcnt := u.pcnt, bi := u.bi
        port := ws, cp := s.cp + data.length, inbox := rest, env := u.env }.answered events 0x00000100#32) ∧
      events.filter Event.isResponse = [] ∧ u.Operational ∧
      (∀ x, (h : x < data.length) → u.env.byteAt x = data[x]) ∧
      ∀ x, data.length ≤ x → u.env.byteAt x = s.env.byteAt x

/-- A payload word is data byte number `length` of the payload so far, and nothing else is done with it before the last one:
no request, no cache, no pin and no byte changes (R95). That the words are taken one at a time, each leaving the number of
those to come, is the model's choice (DESIGN CHOICE, log 36): R254 takes the payload in one go. A position that waits for none
(`takePayload 0`) is never reached. At a position that waits for no payload word it spells no command (R96). -/
def Obligations.PayloadWordIsTaken : Prop :=
  (∀ (s : State) (b : Byte) (n : Nat) (k : List MicroOp), s.ms = .takePayload (n + 1) :: k →
    ∃ t, exec (.payload b) s = .next t ∧ t.payload = s.payload ++ [0#24 ++ b] ∧
      (0 < n → t = { s with payload := s.payload ++ [0#24 ++ b], ms := [.takePayload n] }) ∧
      t.cfg = s.cfg ∧ t.lc = s.lc ∧ t.ca = s.ca ∧ t.cav = s.cav ∧ t.dir = s.dir ∧ t.dirv = s.dirv ∧ t.oe = s.oe ∧
      t.oev = s.oev ∧ t.ra = s.ra ∧ t.pcnt = s.pcnt ∧ t.cp = s.cp ∧ t.port = s.port ∧ t.inbox = s.inbox ∧
      t.trace = s.trace ∧ t.env = s.env) ∧
  ∀ (s : State) (b : Byte), (∀ n k, s.ms ≠ .takePayload n :: k) → SequencerTurn s.inbox →
    ∃ t, exec (.payload b) s = .next t ∧ step t = .next (s.answered [] 0x10000000#32)

/-- CLEAR of at least one byte, every request acknowledged, the device completing each write cycle: the first
`min(c, CAPACITY)` bytes are ERASED_VALUE, every other byte is as before (R222). -/
def Obligations.ClearErases : Prop :=
  ∀ (s : State) (c : Count) (misses : List Nat) (rest : List Input), s.Operational → 1 ≤ c.toNat →
    misses.length = min c.toNat s.cfg.capacity → (∀ m ∈ misses, ∀ l, s.cfg.pollLimit = some l → m < l) →
    s.inbox = bulkWriteInputs s misses ++ rest → SequencerTurn rest →
    ∃ t u events, exec (.clear c) s = .next t ∧ Reaches t u ∧
      u = ({ s with
        ca := BitVec.ofNat 16 (min c.toNat s.cfg.capacity - 1), cav := true, dir := .output, dirv := true, oe := true
        oev := true, wv := u.wv, em := u.em, pcnt := u.pcnt, bi := u.bi, inbox := rest
        env := u.env }.answered events 0x00000100#32) ∧
      events.filter Event.isResponse = [] ∧ u.Operational ∧
      (∀ x, x < min c.toNat s.cfg.capacity → u.env.byteAt x = s.cfg.erasedValue) ∧
      ∀ x, min c.toNat s.cfg.capacity ≤ x → u.env.byteAt x = s.env.byteAt x

/-- DUMP, every request acknowledged: `max(1, min(L, CAPACITY / 16))` lines with the bytes of the device, as many requests as the
ReadBytes of those lines issue, and no device byte changed (R223). -/
def Obligations.DumpReportsTheBytes : Prop :=
  ∀ (s : State) (l : Count) (lines : Nat) (rest : List Input), s.Operational →
    lines = max 1 (min l.toNat (s.cfg.capacity / 16)) →
    s.inbox = acks (dumpCost s lines) ++ rest → SequencerTurn rest →
    ∃ t u events, exec (.dump l) s = .next t ∧ Reaches t u ∧
      u = ({ s with
        ca := BitVec.ofNat 16 (16 * lines - 1), cav := true, dir := .input, dirv := true, oe := true, oev := true
        ra := u.ra, bi := u.bi, inbox := rest, env := u.env }.answered events
        0x00000100#32) ∧
      events.filter Event.isResponse = [] ∧ (events.filter Event.isRequest).length = dumpCost s lines ∧
      u.text = s.text ++ (List.range lines).map (fun r =>
        dumpLine s.cfg (16 * r) ((List.range 16).map fun j => s.env.byteAt (16 * r + j))) ∧
      u.Operational ∧ s.env.SameDevice u.env

/-- The layout of a dump line: its length, the two digits of a byte, high digit first, the example of R224, and the line of
the last row of 95_test_vectors.md L2.7. -/
def Obligations.DumpLineLayout : Prop :=
  (∀ (cfg : Params) (base : Nat) (row : List Byte), (dumpLine cfg base row).length = dumpWidth cfg + 52) ∧
  (∀ cfg : Params, cfg.wf = true → cfg.capacity ≤ 4096 → dumpWidth cfg = 3) ∧
  (∀ v : Byte, hex v.toNat 2 =
    ["0123456789ABCDEF".toList[v.toNat / 16]!, "0123456789ABCDEF".toList[v.toNat % 16]!]) ∧
  dumpLine Params.reference 0 (List.replicate 16 0xFF#8) =
    "000:  FF FF FF FF FF FF FF FF  FF FF FF FF FF FF FF FF\n".toList ∧
  dumpLine Params.reference 0x7F0 ((List.range 16).map (BitVec.ofNat 8)) =
    "7F0:  00 01 02 03 04 05 06 07  08 09 0A 0B 0C 0D 0E 0F\n".toList

/-! Lifecycle and reset (46_lifecycle.md, 70_reset_and_hazards.md). -/

/-- SETUP with every request acknowledged, from any state that is not CLOSED and from any pins (R250, R251). The latched
address stays. That the device is as before unless WE was low is the model's choice: with WE low the first request is a write
pulse like any other (DEDUCED, log 30), with WE Unknown it is none (DEDUCED, log 11). -/
def Obligations.SetupForcesThePins : Prop :=
  ∀ (s : State) (rest : List Input), s.cfg.wf = true → s.lc ≠ .closed → s.inbox = acks 16 ++ rest → SequencerTurn rest →
    ∃ t u, exec .setup s = .next t ∧ Reaches t u ∧
      u = ({ s with
        lc := .ready, cav := false, dir := .input, dirv := true, oe := false, oev := true, inbox := rest
        env := u.env }.answered (setupEvents s.cfg) 0x00000100#32) ∧
      u.Coherent ∧
      u.env.pin .we = ⟨some .output, some .high⟩ ∧ u.env.pin .oe = ⟨some .output, some .high⟩ ∧
      u.env.pin .latch = ⟨some .output, some .low⟩ ∧ (u.env.pin .sd).mode = some .output ∧
      (u.env.pin .sc).mode = some .output ∧ (∀ i, (u.env.pin (.d i)).mode = some .input) ∧
      u.env.latch = s.env.latch ∧ ((s.env.pin .we).level ≠ some .low → s.env.SameDevice u.env)

/-- SETUP whose request number `k` answers `error`: `LC = UNCONFIGURED` and no cache is trusted (R250, R272). -/
def Obligations.SetupFails : Prop :=
  ∀ (s : State) (k : Nat) (rest : List Input), s.cfg.wf = true → s.lc ≠ .closed → k < 16 →
    s.inbox = acks k ++ .reply true :: rest → SequencerTurn rest →
    ∃ t u before r, exec .setup s = .next t ∧ Reaches t u ∧
      u = ({ s with
        lc := .unconfigured, cav := false, dirv := false, oev := false
        oe := u.oe, inbox := rest, env := u.env }.answered (before ++ [Event.request r .error])
        0x01000100#32) ∧
      (before ++ [Event.request r .ack]) <+: setupEvents s.cfg ∧ before.length = k

/-- CLOSE: `LC <- CLOSED` and nothing else; no request, every pin as it is (R252). -/
def Obligations.CloseReleases : Prop :=
  encode .close = 0xD0000000#32 ∧
  ∀ s : State, s.lc ≠ .closed → SequencerTurn s.inbox →
    ∃ t, exec .close s = .next t ∧ step t = .next ({ s with lc := .closed }.answered [] 0x00000000#32)

/-- The reset input with no command in progress (R301): the sequencer's state takes the values of R39, the configuration and
the environment stay. That the trace is empty and the words waiting in the command port are dropped is the model's choice
(DESIGN CHOICE, log 15). -/
def Obligations.ResetState : Prop :=
  ∀ (s : State) (rest : List Input), s.inbox = .reset :: rest →
    ∃ t, step s = .next t ∧ t.lc = .unconfigured ∧ t.cav = false ∧ t.dir = .input ∧ t.dirv = true ∧ t.oe = false ∧
      t.oev = true ∧ t.cp = 0 ∧ t.port = [] ∧ t.trace = [] ∧ t.ms = [.setup, .respond .ok] ∧
      t.current = .automaticSetup ∧ t.cfg = s.cfg ∧ t.inbox = rest ∧ (s.ms = [] → t.env = s.env)

/-- The Setup that runs by itself after reset, before any command word is read, and the reset response (R302). -/
def Obligations.AutomaticSetup : Prop :=
  (∀ (cfg : Params) (env : Env) (port : List Word) (rest : List Input), cfg.wf = true → SequencerTurn rest →
    ∃ u, Reaches { State.afterReset cfg env (acks 16 ++ rest) with port := port } u ∧
      u = ({ State.afterReset cfg env rest with
        lc := .ready, port := port, env := u.env }.answered (setupEvents cfg) 0x00000100#32)) ∧
  ∀ (cfg : Params) (env : Env) (port : List Word) (k : Nat) (rest : List Input), cfg.wf = true → k < 16 →
    SequencerTurn rest →
    ∃ u before r, Reaches { State.afterReset cfg env (acks k ++ .reply true :: rest) with port := port } u ∧
      u = ({ State.afterReset cfg env rest with
        port := port, dirv := false, oev := false, env := u.env }.answered
        (before ++ [Event.request r .error]) 0x01000100#32) ∧
      (before ++ [Event.request r .ack]) <+: setupEvents cfg ∧ before.length = k

/-- Reset in the middle of a command (R305). The command gets no response word: the trace of the model is the one since reset
and is empty (DESIGN CHOICE, log 15). The requests it issued stay done. The device is as before unless the command is past the
`DW(WE, L)` of a write or its request in flight is a DIGITAL_WRITE of WE; what counts as in flight and as past it is the
model's (DEDUCED, log 14). Past it, with another request or none in flight, the byte at the address lines is a free value (I1),
a write cycle may still be running there or where one was running, and no other byte is different. -/
def Obligations.ResetAbandonsTheCommand : Prop :=
  ∀ (s : State) (rest : List Input), s.inbox = .reset :: rest →
    ∃ t, step s = .next t ∧ t.trace = [] ∧
      (s.ms.head?.bind (MicroOp.nextRequest s.cfg) = none →
        (∀ r, t.env.pin r = s.env.pin r) ∧ t.env.shift = s.env.shift ∧ t.env.latch = s.env.latch) ∧
      ((∀ l, s.ms.head?.bind (MicroOp.nextRequest s.cfg) ≠ some (.digitalWrite (pinOf s.cfg .we) l)) →
        (s.pastWriteLow = false → s.env.SameDevice t.env) ∧
        (s.pastWriteLow = true → ∃ k, t.env.byteAt (s.env.addressLines s.cfg) = Config.freeByte s.env.draws k) ∧
        (∀ x, x ≠ s.env.addressLines s.cfg → (∀ c, s.env.busy = some c → x ≠ c.addr) →
          t.env.byteAt x = s.env.byteAt x) ∧
        ∀ c', t.env.busy = some c' →
          c'.addr = s.env.addressLines s.cfg ∨ ∃ c, s.env.busy = some c ∧ c'.addr = c.addr)

/-! The transport requests and the environment (20_memory.md). -/

/-- An acknowledged SET_PIN_MODE of a role's pin sets that pin's mode and nothing else, and the procedure goes on (R64). A
pin that has no role changes nothing (the model's choice, log 9: the block never uses one, R27). -/
def Obligations.SetPinModeRequest : Prop :=
  (∀ (s : State) (r : Role) (m : PinMode) (k : List MicroOp) (rest : List Input), s.cfg.wf = true →
    s.ms = .request (.setPinMode (pinOf s.cfg r) m) :: k → s.inbox = .reply false :: rest →
    ∃ e, exec (.setPinMode (pinOf s.cfg r) m) s = .next (resume k { s with
        issued := true, inbox := rest, env := e, trace := s.trace ++ [spmEvent s.cfg r m] }) ∧
      e.pin r = { s.env.pin r with mode := some m } ∧ (∀ r', r' ≠ r → e.pin r' = s.env.pin r') ∧
      e.shift = s.env.shift ∧ e.latch = s.env.latch ∧ s.env.SameDevice e) ∧
  (∀ (s : State) (k : List MicroOp) (rest : List Input), s.cfg.wf = true →
    s.ms = .restoreBit7 :: k → s.inbox = .reply false :: rest →
    ∃ e, exec (.setPinMode (pinOf s.cfg (.d 7)) .output) s = .next (resume k { s with
        issued := true, inbox := rest, env := e, trace := s.trace ++ [spmEvent s.cfg (.d 7) .output] }) ∧
      e.pin (.d 7) = { s.env.pin (.d 7) with mode := some .output } ∧
      (∀ r', r' ≠ .d 7 → e.pin r' = s.env.pin r') ∧
      e.shift = s.env.shift ∧ e.latch = s.env.latch ∧ s.env.SameDevice e) ∧
  ∀ (s : State) (p : Pin) (m : PinMode) (k : List MicroOp) (rest : List Input), roleOf s.cfg p = none →
    s.ms = .request (.setPinMode p m) :: k → s.inbox = .reply false :: rest →
    ∃ e, exec (.setPinMode p m) s = .next (resume k { s with
        issued := true, inbox := rest, env := e, trace := s.trace ++ [.request (.setPinMode p m) .ack] }) ∧
      (∀ r, e.pin r = s.env.pin r) ∧ e.shift = s.env.shift ∧ e.latch = s.env.latch ∧ s.env.SameDevice e

/-- An acknowledged DIGITAL_WRITE of a role's pin sets that pin's level and no other (R64); only a rising LATCH moves the
address lines (R66), and only a rising WE touches the device (R68). That WE written high from an Unknown level touches nothing
is the model's choice (DEDUCED, log 11). A pin that has no role changes nothing (the model's choice, log 9: the block never
uses one, R27). -/
def Obligations.DigitalWriteRequest : Prop :=
  (∀ (s : State) (r : Role) (l : Level) (k : List MicroOp) (rest : List Input), s.cfg.wf = true →
    s.ms = .request (.digitalWrite (pinOf s.cfg r) l) :: k → s.inbox = .reply false :: rest →
    ∃ e, exec (.digitalWrite (pinOf s.cfg r) l) s = .next (resume k { s with
        issued := true, inbox := rest, env := e, trace := s.trace ++ [dwEvent s.cfg r l] }) ∧
      e.pin r = { s.env.pin r with level := some l } ∧ (∀ r', r' ≠ r → e.pin r' = s.env.pin r') ∧
      e.shift = s.env.shift ∧ (r ≠ .latch ∨ l = .low → e.latch = s.env.latch) ∧
      (r ≠ .we ∨ l = .low ∨ (s.env.pin .we).level ≠ some .low → s.env.SameDevice e)) ∧
  ∀ (s : State) (p : Pin) (l : Level) (k : List MicroOp) (rest : List Input), roleOf s.cfg p = none →
    s.ms = .request (.digitalWrite p l) :: k → s.inbox = .reply false :: rest →
    ∃ e, exec (.digitalWrite p l) s = .next (resume k { s with
        issued := true, inbox := rest, env := e, trace := s.trace ++ [.request (.digitalWrite p l) .ack] }) ∧
      (∀ r, e.pin r = s.env.pin r) ∧ e.shift = s.env.shift ∧ e.latch = s.env.latch ∧ s.env.SameDevice e

/-- The rising edges: LATCH copies the shift chain to the address lines, and the address is Unknown if the level or the
chain was (R66; from a high level with the chain Unknown too: DEDUCED, log 12); WE starts a write cycle at the latched
address with the byte that the data pins drive, when OE is driven high and no cycle is in progress (R68). The other write
pulses leave any value (R71): with OE low or Unknown the byte at the address lines; with a cycle in progress its byte, the byte
at the address lines and the cycle, which is over or runs at any address with any byte (DEDUCED, log 26); with OE high in a pin
that is not an output the byte at the address lines, and a cycle there or none (DEDUCED, log 7). -/
def Obligations.LatchAndWriteEnableEdges : Prop :=
  (∀ (cfg : Params) (e : Env), cfg.wf = true →
    let e' := e.perform cfg (.digitalWrite (pinOf cfg .latch) .high)
    ((e.pin .latch).level = some .low → e'.latch = e.shift.value) ∧
    ((e.pin .latch).level = none ∨ e.shift.value = none → e'.latch = none)) ∧
  (∀ (cfg : Params) (e : Env) (a : Address), cfg.wf = true → (e.pin .we).level = some .low →
    (e.pin .oe).mode = some .output → (e.pin .oe).level = some .high → e.busy = none → e.latch = some a →
    let e' := e.perform cfg (.digitalWrite (pinOf cfg .we) .high)
    (∃ d, e'.busy = some ⟨a.toNat % 2 ^ addrBits cfg, d⟩ ∧
      ((∀ i, (e.pin (.d i)).mode = some .output) →
        ∀ i : Fin 8, (e.pin (.d i)).level = some (if d[i] then .high else .low) ∨ ∃ j, (e.pin (.d j)).level = none)) ∧
    ∀ x, e'.byteAt x = e.byteAt x) ∧
  ∀ (cfg : Params) (e : Env), cfg.wf = true → (e.pin .we).level = some .low →
    let e' := e.perform cfg (.digitalWrite (pinOf cfg .we) .high)
    let lines := e.addressLines cfg
    (e.busy = none → (e.pin .oe).level ≠ some .high →
      (∃ k, e'.byteAt lines = Config.freeByte e.draws k) ∧ (∀ x, x ≠ lines → e'.byteAt x = e.byteAt x) ∧ e'.busy = none) ∧
    (e.busy = none → (e.pin .oe).level = some .high → (e.pin .oe).mode ≠ some .output →
      (∃ k, e'.byteAt lines = Config.freeByte e.draws k) ∧ (∀ x, x ≠ lines → e'.byteAt x = e.byteAt x) ∧
      ∃ j k, e'.busy = if Config.freeBit e.draws j then some ⟨lines, Config.freeByte e.draws k⟩ else none) ∧
    ∀ c, e.busy = some c →
      (∃ k, e'.byteAt lines = Config.freeByte e.draws k) ∧ (∃ k, e'.byteAt c.addr = Config.freeByte e.draws k) ∧
      (∀ x, x ≠ lines → x ≠ c.addr → e'.byteAt x = e.byteAt x) ∧
      ∃ i j k, e'.busy = if Config.freeBit e.draws i then
        some ⟨deviceAddress cfg (Config.freeAddress e.draws j), Config.freeByte e.draws k⟩ else none

/-- SHIFT_OUT on the shift pins moves the byte into the 16-bit chain, most significant bit first; two of them fill it; one
that answers `error` leaves it Unknown (R65). On other pins the chain becomes Unknown (the model's choice, log 9: the block
never uses other pins, R50). -/
def Obligations.ShiftOutRequest : Prop :=
  (∀ (s : State) (b : Byte) (k : List MicroOp) (rest : List Input),
    s.ms = .request (.shiftOut (pinOf s.cfg .sd) (pinOf s.cfg .sc) .msbFirst b) :: k → s.inbox = .reply false :: rest →
    ∃ e, exec (.shiftOut (pinOf s.cfg .sd) (pinOf s.cfg .sc) .msbFirst b) s = .next (resume k { s with
        issued := true, inbox := rest, env := e, trace := s.trace ++ [soEvent s.cfg b] }) ∧
      (∀ v, s.env.shift.value = some v →
        e.shift.value = some ((List.finRange 8).reverse.foldl
          (fun (r : Address) (i : Fin 8) => (r.extractLsb' 0 15 ++ BitVec.ofBool b[i] : BitVec 16)) v)) ∧
      (∀ r, e.pin r = s.env.pin r) ∧ e.latch = s.env.latch ∧ s.env.SameDevice e) ∧
  (∀ (cfg : Params) (e : Env) (hi lo : Byte),
    ((e.perform cfg (.shiftOut (pinOf cfg .sd) (pinOf cfg .sc) .msbFirst hi)).perform cfg
      (.shiftOut (pinOf cfg .sd) (pinOf cfg .sc) .msbFirst lo)).shift.value = some (hi ++ lo)) ∧
  (∀ (cfg : Params) (e : Env) (dp cp : Pin) (b : Byte), (e.fail cfg (.shiftOut dp cp .msbFirst b)).shift.value = none) ∧
  ∀ (s : State) (dp cp : Pin) (b : Byte) (k : List MicroOp) (rest : List Input),
    ¬ (dp = pinOf s.cfg .sd ∧ cp = pinOf s.cfg .sc) →
    s.ms = .request (.shiftOut dp cp .msbFirst b) :: k → s.inbox = .reply false :: rest →
    ∃ e, exec (.shiftOut dp cp .msbFirst b) s = .next (resume k { s with
        issued := true, inbox := rest, env := e, trace := s.trace ++ [.request (.shiftOut dp cp .msbFirst b) .ack] }) ∧
      e.shift.value = none ∧ (∀ r, e.pin r = s.env.pin r) ∧ e.latch = s.env.latch ∧ s.env.SameDevice e

/-- DIGITAL_READ of a data pin: the request completes with a bit in every state and changes no pin and no byte. The bit is
that of the latched byte under the conditions of R67, and the inverted bit 7 of the value while a cycle is in progress
(R69). At a sample the bit is shifted into `RA` (R180); at a polling read it ends the polling exactly if it is `EM`, or if
`POLL_LIMIT` is reached (R184, R185). A read of any other pin completes with some bit (the model's choice, log 9). -/
def Obligations.DigitalReadRequest : Prop :=
  (∀ (s : State) (i : Fin 8) (k : List MicroOp) (rest : List Input), s.cfg.wf = true → s.inbox = .reply false :: rest →
    ∃ (b : Bool) (e : Env),
      (s.ms = .sample i :: k →
        exec (.digitalRead (pinOf s.cfg (.d i))) s = .next (resume k { s with
          ra := (s.ra <<< 1) ||| (BitVec.ofBool b).setWidth 8, issued := true, inbox := rest, env := e
          trace := s.trace ++ [drEvent s.cfg i b] })) ∧
      (s.ms = .pollRead :: k → i = 7 →
        exec (.digitalRead (pinOf s.cfg (.d i))) s = .next (
          let t := { s with
            pcnt := s.pcnt + 1, issued := true, inbox := rest, env := e, trace := s.trace ++ [drEvent s.cfg i b] }
          if b = s.em then { t with ms := .restoreBit7 :: k }
          else if s.cfg.pollLimit = some (s.pcnt + 1) then { t with ms := .restoreBit7 :: .raiseTimeout :: k }
          else t)) ∧
      (∀ a : Address, s.env.pin .oe = ⟨some .output, some .low⟩ → (s.env.pin (.d i)).mode = some .input →
        (s.env.pin .we).level = some .high → s.env.busy = none → s.env.latch = some a →
        b = (s.env.byteAt (a.toNat % 2 ^ addrBits s.cfg))[i]) ∧
      (∀ c : WriteCycle, s.env.pin .oe = ⟨some .output, some .low⟩ → (s.env.pin (.d i)).mode = some .input →
        s.env.busy = some c → i = 7 → b = !c.data[7]) ∧
      (∀ r, e.pin r = s.env.pin r) ∧ e.shift = s.env.shift ∧ e.latch = s.env.latch ∧ s.env.SameDevice e) ∧
  ∀ (s : State) (p : Pin) (k : List MicroOp) (rest : List Input),
    s.ms = .request (.digitalRead p) :: k → s.inbox = .reply false :: rest →
    ∃ (b : Bool) (e : Env), exec (.digitalRead p) s = .next (resume k { s with
        issued := true, inbox := rest, env := e, trace := s.trace ++ [.request (.digitalRead p) (.bit b)] }) ∧
      (∀ r, e.pin r = s.env.pin r) ∧ e.shift = s.env.shift ∧ e.latch = s.env.latch ∧ s.env.SameDevice e

/-- What a request that answered `error` would have changed is Unknown, and nothing else is different (R53, R64 to R66). Three
clauses are the model's: `LAT` after an errored write of LATCH high is as R66 makes it (DEDUCED, log 12); an errored write of
WE that may have been part of a write pulse leaves the byte at the address lines any value and a write cycle there or none,
and with a cycle in progress its byte and the cycle any value too (R191; DEDUCED, logs 8 and 26); and a request that fails
inside a write past its `DW(WE, L)` leaves the byte at the address lines any value, whatever the request is (R191, R225; log
33). A write of WE that may have been part of a pulse then leaves what it leaves anywhere; any other request leaves the cycle
in progress, or one at the address lines, running with any byte or none. Before the `DW(WE, L)` a failed request leaves what it
leaves anywhere (95_test_vectors.md P4). -/
def Obligations.ErroredRequests : Prop :=
  (∀ (cfg : Params) (e : Env) (r : Role), cfg.wf = true →
    (∀ m, let e' := e.fail cfg (.setPinMode (pinOf cfg r) m)
      e'.pin r = { e.pin r with mode := none } ∧ (∀ r', r' ≠ r → e'.pin r' = e.pin r') ∧ e'.shift = e.shift ∧
        e'.latch = e.latch ∧ e.SameDevice e') ∧
    (∀ l, let e' := e.fail cfg (.digitalWrite (pinOf cfg r) l)
      e'.pin r = { e.pin r with level := none } ∧ (∀ r', r' ≠ r → e'.pin r' = e.pin r') ∧ e'.shift = e.shift ∧
        (r ≠ .latch ∨ l = .low → e'.latch = e.latch) ∧
        (r = .latch → l = .high →
          e'.latch = if (e.pin .latch).level = some .high ∧ e.shift.value ≠ none then e.latch else none) ∧
        (r ≠ .we ∨ (l = .high ∧ (e.pin .we).level = some .high) → e.SameDevice e') ∧
        (r = .we → l = .low ∨ (e.pin .we).level ≠ some .high →
          (∃ k, e'.byteAt (e.addressLines cfg) = Config.freeByte e.draws k) ∧
          (∀ x, x ≠ e.addressLines cfg → (∀ c, e.busy = some c → x ≠ c.addr) → e'.byteAt x = e.byteAt x) ∧
          (e.busy = none → ∃ j k, e'.busy =
            if Config.freeBit e.draws j then some ⟨e.addressLines cfg, Config.freeByte e.draws k⟩ else none) ∧
          (∀ c, e.busy = some c → (∃ k, e'.byteAt c.addr = Config.freeByte e.draws k) ∧
            ∃ i j k, e'.busy = if Config.freeBit e.draws i then
              some ⟨deviceAddress cfg (Config.freeAddress e.draws j), Config.freeByte e.draws k⟩ else none) ∧
          e'.suspect = e.suspect)) ∧
    (∀ p, let e' := e.fail cfg (.digitalRead p)
      (∀ r', e'.pin r' = e.pin r') ∧ e'.latch = e.latch ∧ e'.shift = e.shift ∧ e.SameDevice e') ∧
    (∀ dp cp o b, let e' := e.fail cfg (.shiftOut dp cp o b)
      (∀ r', e'.pin r' = e.pin r') ∧ e'.latch = e.latch ∧ e'.shift.value = none ∧ e.SameDevice e')) ∧
  ∀ (s : State) (r : Request), s.cfg.wf = true → let e := s.env.fail s.cfg r; let e' := s.envAfterFailure r
    let mayPulse := ∃ l, r = .digitalWrite (pinOf s.cfg .we) l ∧ (l = .low ∨ (s.env.pin .we).level ≠ some .high)
    (s.pastWriteLow = false → e' = e) ∧ (mayPulse → e' = e) ∧
    (∀ q, e'.pin q = e.pin q) ∧ e'.shift = e.shift ∧ e'.latch = e.latch ∧
    (∀ x, x ≠ s.env.addressLines s.cfg → (∀ c, s.env.busy = some c → x ≠ c.addr) →
      e'.byteAt x = s.env.byteAt x) ∧
    (s.pastWriteLow = true → ∃ k, e'.byteAt (s.env.addressLines s.cfg) = Config.freeByte s.env.draws k) ∧
    (s.pastWriteLow = true → ¬ mayPulse →
      (∀ c, s.env.busy = some c → ∃ k, e'.byteAt c.addr = Config.freeByte s.env.draws k) ∧
      ∃ j k, e'.busy = if Config.freeBit s.env.draws j then
        some ⟨s.env.writtenAddress s.cfg, Config.freeByte s.env.draws k⟩ else none)

/-- The device's own steps, at any point of any procedure. The completion (R70): the byte of the write cycle is stored, the
cycle is over, nothing else is different, and a read of D7 under R67 then returns the true bit. After a WriteTimeout (R275; that
the "any value" of the rule is taken in a step of its own, and at which address, is the model's choice, log 13): the byte at the
address that timed out is any value, a write cycle runs there with any byte or none does, nothing else is different; and where
no write has timed out, there is no such step. -/
def Obligations.WriteCycleCompletes : Prop :=
  (∀ (s : State) (c : WriteCycle) (rest : List Input), s.inbox = .complete :: rest → s.env.busy = some c →
    ∃ e, step s = .next { s with inbox := rest, env := e } ∧ e.busy = none ∧ e.byteAt c.addr = c.data ∧
      (∀ x, x ≠ c.addr → e.byteAt x = s.env.byteAt x) ∧ (∀ r, e.pin r = s.env.pin r) ∧ e.latch = s.env.latch ∧
      (e.addressLines s.cfg = c.addr → e.latch ≠ none → e.pin .oe = ⟨some .output, some .low⟩ →
        (e.pin .we).level = some .high → (e.pin (.d 7)).mode = some .input → e.dataBit s.cfg 7 = c.data[7])) ∧
  ∀ (s : State) (rest : List Input), s.inbox = .deviceFault :: rest →
    ∃ e, step s = .next { s with inbox := rest, env := e } ∧
      (∀ a, s.env.suspect = some a → (∃ k, e.byteAt a = Config.freeByte s.env.draws k) ∧
        (∀ x, x ≠ a → e.byteAt x = s.env.byteAt x) ∧ e.suspect = some a ∧ (∀ r, e.pin r = s.env.pin r) ∧
        e.shift = s.env.shift ∧ e.latch = s.env.latch ∧
        ∃ j k, e.busy = if Config.freeBit s.env.draws j then some ⟨a, Config.freeByte s.env.draws k⟩ else none) ∧
      (s.env.suspect = none → e = s.env)

/-! The whole machine. -/

/-- Every step keeps the invariant: the configuration is legal, `MEM` is in its canonical form inside the device, every
address of the caches and of the procedure in progress is a device address, `LC` becomes READY only by a Setup, a CLOSED
block only answers, the address cache is written at the end of a SetAddress only, and between commands nothing is left to do
and what belongs to one command is not kept (R29; that `ISSUED` is then 0 is the model's, log 35). -/
def Obligations.StepKeepsInvariant : Prop :=
  ∀ s t : State, s.Inv → step s = .next t → t.Inv

/-- The state after reset meets the invariant, for every legal configuration. -/
def Obligations.ResetMeetsInvariant : Prop :=
  State.reset.Inv ∧ ∀ (cfg : Params) (inbox : List Input), cfg.wf = true → (State.afterReset cfg Env.powerUp inbox).Inv

/-- No step changes the configuration (R30). -/
def Obligations.ConfigurationNeverChanges : Prop :=
  ∀ s t : State, step s = .next t → t.cfg = s.cfg

/-- `LC` is written only by SETUP, by CLOSE and by reset (R21): to READY at the end of a Setup, to UNCONFIGURED by a SETUP
that failed, to CLOSED by CLOSE. -/
def Obligations.LifecycleChanges : Prop :=
  ∀ s t : State, s.Inv → step s = .next t → t.lc ≠ s.lc →
    (∃ rest, s.inbox = .reset :: rest) ∨
    (t.lc = .ready ∧ (s.current = .command .setup ∨ s.current = .automaticSetup)) ∨
    (t.lc = .unconfigured ∧ s.current = .command .setup) ∨
    (t.lc = .closed ∧ t.current = .command .close)

/-- `CAV` becomes 1 only in the step that ends a SetAddress: the one with its last request `DW(LATCH, L)`, or with the settle
delay after it where there is one; and `CA` is then the address of that SetAddress (R23, R140, R143). -/
def Obligations.AddressCacheIsSetLast : Prop :=
  ∀ s t : State, s.Inv → step s = .next t → s.cav = false → t.cav = true →
    ∃ k, (s.cfg.tSettleUs = 0 ∧ s.ms = digitalWriteOp s.cfg .latch .low :: .latched t.ca :: k) ∨
      (0 < s.cfg.tSettleUs ∧ s.ms = .delay .us s.cfg.tSettleUs :: .latched t.ca :: k)

/-- A device byte changes only at the latched address, at the address of the write cycle in progress or at one that timed
out; and only by a DIGITAL_WRITE of WE, by the completion of the cycle (R68, R70, R71), by a request that fails inside a write
past its `DW(WE, L)` (R191), or by the device after a WriteTimeout. The model's choices in it: that a change from outside
alters no byte (DESIGN CHOICE, log 23), the address that timed out and the device's own step at it (DEDUCED, log 13), what an
errored DIGITAL_WRITE of WE can change (DEDUCED, log 8) and what a request that fails past the `DW(WE, L)` can (DEDUCED, log
33). One that fails before it changes none, as 95_test_vectors.md P4 has it. Reset is stated apart (R305). -/
def Obligations.OnlyAddressedBytesChange : Prop :=
  ∀ (s t : State) (x : Nat), step s = .next t → (∀ rest, s.inbox ≠ .reset :: rest) →
    t.env.byteAt x ≠ s.env.byteAt x →
    (x = s.env.addressLines s.cfg ∨ (∃ c, s.env.busy = some c ∧ x = c.addr) ∨ s.env.suspect = some x) ∧
    ((∃ rest, s.inbox = .complete :: rest) ∨ (∃ rest, s.inbox = .deviceFault :: rest) ∨
      (∃ l, s.pendingRequest = some (.digitalWrite (pinOf s.cfg .we) l)) ∨
      (s.settled.pastWriteLow = true ∧ ∃ rest, s.inbox = .reply true :: rest ∨ s.inbox = .pass :: .reply true :: rest))

/-- The sequencer sees the environment only through the transport's answers: in two states that differ in the environment
alone and whose pending request, if any, is answered alike, a step leaves the same sequencer, port and trace (R36). -/
def Obligations.SequencerSeesOnlyResponses : Prop :=
  ∀ (s t : State) (e : Env), step s = .next t →
    (∀ r, s.pendingRequest = some r → s.env.answer s.cfg r = e.answer s.cfg r) →
    ∃ e', step { s with env := e } = .next { t with env := e' }

/-- A READ after a WRITE of `v` at the same address returns `v`, when the polling sees the device complete (R75). -/
def Obligations.WriteThenReadReturnsTheByte : Prop :=
  ∀ (s : State) (a : Address) (v : Byte) (misses : Nat) (ws : List Word) (rest : List Input), s.Operational → s.Idle →
    a.toNat < s.cfg.capacity → (∀ n, s.cfg.pollLimit = some n → misses < n) →
    s.port = encode (.write a v) :: encode (.read a) :: ws →
    s.inbox = writeInputs (writeCost s a) misses ++ acks 16 ++ rest → SequencerTurn rest →
    ∃ u, Reaches s u ∧ u.Idle ∧ u.port = ws ∧ u.cp = s.cp + 2 ∧ u.inbox = rest ∧
      u.responses = s.responses ++ [0x00000100#32, 0x00000100#32 ||| v.setWidth 32]

/-- Pulse widths, as the sums of the delay events between two requests (R123, R314). The latch clock of a SET_ADDR is high for
the ticks of `T_LATCH_US`, and for no guaranteed time where that is less than one tick. WE of a WRITE is low for the ticks of
`T_WE_NS`, so under the default `T_WE_NS = 0` no lower bound follows. -/
def Obligations.PulseWidths : Prop :=
  (∀ (s : State) (a : Address) (rest : List Input), s.cfg.wf = true → s.lc = .ready → a.toNat < s.cfg.capacity →
    ¬ (s.cav = true ∧ s.ca = a) → s.inbox = acks 4 ++ rest → SequencerTurn rest →
    ∃ t u events, exec (.setAddr a) s = .next t ∧ Reaches t u ∧ u.Idle ∧ u.trace = s.trace ++ events ∧
      (events.filter Event.isRequest)[2]? = some (dwEvent s.cfg .latch .high) ∧
      (events.filter Event.isRequest)[3]? = some (dwEvent s.cfg .latch .low) ∧
      pulseWidth s.cfg 2 3 events = (targetTicks s.cfg (s.cfg.tLatchUs * 1000) : Rat) * nsPerTick s.cfg ∧
      (s.cfg.tLatchUs : Rat) * 1000 - nsPerTick s.cfg < pulseWidth s.cfg 2 3 events) ∧
  ∀ (s : State) (a : Address) (v : Byte) (misses : Nat) (rest : List Input), s.Operational → a.toNat < s.cfg.capacity →
    (∀ n, s.cfg.pollLimit = some n → misses < n) →
    s.inbox = writeInputs (writeCost s a) misses ++ rest → SequencerTurn rest →
    ∃ t u events n, exec (.write a v) s = .next t ∧ Reaches t u ∧ u.Idle ∧ u.trace = s.trace ++ events ∧
      (events.filter Event.isRequest)[n]? = some (dwEvent s.cfg .we .low) ∧
      (events.filter Event.isRequest)[n + 1]? = some (dwEvent s.cfg .we .high) ∧
      pulseWidth s.cfg n (n + 1) events = (targetTicks s.cfg s.cfg.tWeNs : Rat) * nsPerTick s.cfg ∧
      (s.cfg.tWeNs = 0 → pulseWidth s.cfg n (n + 1) events = 0)
end

