-- ==== Sys2Proof/Laws/Memory.lean ====
section
/-! SUPPORT. The laws of `MEM`: read after write, every other byte unchanged, and the canonical form kept by the one
operation that writes. -/

namespace Sys2Proof.Machine

theorem Memory.find_write_same (m : Memory) (a : Nat) (v : Byte) : Memory.find (Memory.write m a v) a = some v := by
  induction m with
  | nil => simp [Memory.write, Memory.find]
  | cons c rest ih =>
    simp only [Memory.write]
    split
    · simp [Memory.find]
    · split
      · simp [Memory.find]
      · rename_i h1 h2
        rw [Memory.find, if_neg (fun h => h2 h.symm), ih]

theorem Memory.find_write_ne (m : Memory) {a b : Nat} (v : Byte) (h : b ≠ a) :
    Memory.find (Memory.write m a v) b = Memory.find m b := by
  induction m with
  | nil => simp [Memory.write, Memory.find, Ne.symm h]
  | cons c rest ih =>
    simp only [Memory.write]
    split
    · rw [Memory.find, if_neg (Ne.symm h)]
    · split
      · rename_i _ h2
        simp only [Memory.find]
        rw [if_neg (Ne.symm h), if_neg (by rw [← h2]; exact Ne.symm h)]
      · simp only [Memory.find, ih]

@[simp] theorem Memory.read_write_same (m : Memory) (a : Nat) (v : Byte) : Memory.read (Memory.write m a v) a = v := by
  simp [Memory.read, Memory.find_write_same]

theorem Memory.read_write_ne (m : Memory) {a b : Nat} (v : Byte) (h : b ≠ a) :
    Memory.read (Memory.write m a v) b = Memory.read m b := by
  simp [Memory.read, Memory.find_write_ne m v h]

/-- Every cell of a written memory is the new one or an old one. -/
theorem Memory.of_mem_write {m : Memory} {a : Nat} {v : Byte} {c : Host.Cell} (h : c ∈ Memory.write m a v) :
    c = (a, v) ∨ c ∈ m := by
  induction m with
  | nil => simpa [Memory.write] using h
  | cons d rest ih =>
    simp only [Memory.write] at h
    split at h
    · simpa using h
    · split at h
      · rcases List.mem_cons.1 h with h | h
        · exact .inl h
        · exact .inr (List.mem_cons_of_mem _ h)
      · rcases List.mem_cons.1 h with h | h
        · exact .inr (h ▸ List.mem_cons_self ..)
        · exact (ih h).imp_right (List.mem_cons_of_mem _)

theorem Memory.wf_write {m : Memory} (a : Nat) (v : Byte) (h : Memory.wf m) : Memory.wf (Memory.write m a v) := by
  induction m with
  | nil => simp [Memory.write]
  | cons c rest ih =>
    obtain ⟨hc, hr⟩ := List.pairwise_cons.1 h
    simp only [Memory.write]
    split
    · rename_i h1
      refine List.pairwise_cons.2 ⟨fun x hx => ?_, h⟩
      rcases List.mem_cons.1 hx with rfl | hx
      · exact h1
      · exact Nat.lt_trans h1 (hc x hx)
    · split
      · rename_i _ h2
        exact List.pairwise_cons.2 ⟨fun x hx => h2 ▸ hc x hx, hr⟩
      · rename_i h1 h2
        refine List.pairwise_cons.2 ⟨fun x hx => ?_, ih hr⟩
        rcases Memory.of_mem_write hx with rfl | hx
        · simp only; omega
        · exact hc x hx

@[simp] theorem Env.byteAt_writeByteAt_same (e : Env) (a : Nat) (v : Byte) : (e.writeByteAt a v).byteAt a = v := by
  simp [Env.byteAt, Env.writeByteAt]

theorem Env.byteAt_writeByteAt_ne (e : Env) {a b : Nat} (v : Byte) (h : b ≠ a) :
    (e.writeByteAt a v).byteAt b = e.byteAt b := by
  simp [Env.byteAt, Env.writeByteAt, Memory.read_write_ne _ _ h]

end Sys2Proof.Machine
end

