-- ==== Sys2Proof/Laws/State.lean ====
section
/-! SUPPORT. The small laws of the state: one lemma for each field of each named update of the state and of the
environment, so that later proofs do not unfold a record update. -/

namespace Sys2Proof.Machine

section Updates

variable (s : State)

@[simp] theorem State.refuse_cfg (st : Status) : (s.refuse st).cfg = s.cfg := rfl
@[simp] theorem State.refuse_lc (st : Status) : (s.refuse st).lc = s.lc := rfl
@[simp] theorem State.refuse_ca (st : Status) : (s.refuse st).ca = s.ca := rfl
@[simp] theorem State.refuse_cav (st : Status) : (s.refuse st).cav = s.cav := rfl
@[simp] theorem State.refuse_dir (st : Status) : (s.refuse st).dir = s.dir := rfl
@[simp] theorem State.refuse_dirv (st : Status) : (s.refuse st).dirv = s.dirv := rfl
@[simp] theorem State.refuse_oe (st : Status) : (s.refuse st).oe = s.oe := rfl
@[simp] theorem State.refuse_oev (st : Status) : (s.refuse st).oev = s.oev := rfl
@[simp] theorem State.refuse_wv (st : Status) : (s.refuse st).wv = s.wv := rfl
@[simp] theorem State.refuse_em (st : Status) : (s.refuse st).em = s.em := rfl
@[simp] theorem State.refuse_ra (st : Status) : (s.refuse st).ra = s.ra := rfl
@[simp] theorem State.refuse_pcnt (st : Status) : (s.refuse st).pcnt = s.pcnt := rfl
@[simp] theorem State.refuse_bi (st : Status) : (s.refuse st).bi = s.bi := rfl
@[simp] theorem State.refuse_row (st : Status) : (s.refuse st).row = s.row := rfl
@[simp] theorem State.refuse_payload (st : Status) : (s.refuse st).payload = s.payload := rfl
@[simp] theorem State.refuse_issued (st : Status) : (s.refuse st).issued = s.issued := rfl
@[simp] theorem State.refuse_cp (st : Status) : (s.refuse st).cp = s.cp := rfl
@[simp] theorem State.refuse_ms (st : Status) : (s.refuse st).ms = [.respond st] := rfl
@[simp] theorem State.refuse_current (st : Status) : (s.refuse st).current = s.current := rfl
@[simp] theorem State.refuse_port (st : Status) : (s.refuse st).port = s.port := rfl
@[simp] theorem State.refuse_inbox (st : Status) : (s.refuse st).inbox = s.inbox := rfl
@[simp] theorem State.refuse_trace (st : Status) : (s.refuse st).trace = s.trace := rfl
@[simp] theorem State.refuse_env (st : Status) : (s.refuse st).env = s.env := rfl

@[simp] theorem State.refuseReserved_cfg (a : Activity) : (s.refuseReserved a).cfg = s.cfg := rfl
@[simp] theorem State.refuseReserved_lc (a : Activity) : (s.refuseReserved a).lc = s.lc := rfl
@[simp] theorem State.refuseReserved_ca (a : Activity) : (s.refuseReserved a).ca = s.ca := rfl
@[simp] theorem State.refuseReserved_cav (a : Activity) : (s.refuseReserved a).cav = s.cav := rfl
@[simp] theorem State.refuseReserved_dir (a : Activity) : (s.refuseReserved a).dir = s.dir := rfl
@[simp] theorem State.refuseReserved_dirv (a : Activity) : (s.refuseReserved a).dirv = s.dirv := rfl
@[simp] theorem State.refuseReserved_oe (a : Activity) : (s.refuseReserved a).oe = s.oe := rfl
@[simp] theorem State.refuseReserved_oev (a : Activity) : (s.refuseReserved a).oev = s.oev := rfl
@[simp] theorem State.refuseReserved_wv (a : Activity) : (s.refuseReserved a).wv = s.wv := rfl
@[simp] theorem State.refuseReserved_em (a : Activity) : (s.refuseReserved a).em = s.em := rfl
@[simp] theorem State.refuseReserved_ra (a : Activity) : (s.refuseReserved a).ra = s.ra := rfl
@[simp] theorem State.refuseReserved_pcnt (a : Activity) : (s.refuseReserved a).pcnt = s.pcnt := rfl
@[simp] theorem State.refuseReserved_bi (a : Activity) : (s.refuseReserved a).bi = s.bi := rfl
@[simp] theorem State.refuseReserved_row (a : Activity) : (s.refuseReserved a).row = s.row := rfl
@[simp] theorem State.refuseReserved_payload (a : Activity) : (s.refuseReserved a).payload = s.payload := rfl
@[simp] theorem State.refuseReserved_issued (a : Activity) : (s.refuseReserved a).issued = false := rfl
@[simp] theorem State.refuseReserved_cp (a : Activity) : (s.refuseReserved a).cp = s.cp := rfl
@[simp] theorem State.refuseReserved_ms (a : Activity) : (s.refuseReserved a).ms = [.respond .refusedReservedEncoding] := rfl
@[simp] theorem State.refuseReserved_current (a : Activity) : (s.refuseReserved a).current = a := rfl
@[simp] theorem State.refuseReserved_port (a : Activity) : (s.refuseReserved a).port = s.port := rfl
@[simp] theorem State.refuseReserved_inbox (a : Activity) : (s.refuseReserved a).inbox = s.inbox := rfl
@[simp] theorem State.refuseReserved_trace (a : Activity) : (s.refuseReserved a).trace = s.trace := rfl
@[simp] theorem State.refuseReserved_env (a : Activity) : (s.refuseReserved a).env = s.env := rfl

@[simp] theorem State.recordDelay_cfg (k : DelayKind) (n : Nat) : (s.recordDelay k n).cfg = s.cfg := rfl
@[simp] theorem State.recordDelay_lc (k : DelayKind) (n : Nat) : (s.recordDelay k n).lc = s.lc := rfl
@[simp] theorem State.recordDelay_ca (k : DelayKind) (n : Nat) : (s.recordDelay k n).ca = s.ca := rfl
@[simp] theorem State.recordDelay_cav (k : DelayKind) (n : Nat) : (s.recordDelay k n).cav = s.cav := rfl
@[simp] theorem State.recordDelay_dir (k : DelayKind) (n : Nat) : (s.recordDelay k n).dir = s.dir := rfl
@[simp] theorem State.recordDelay_dirv (k : DelayKind) (n : Nat) : (s.recordDelay k n).dirv = s.dirv := rfl
@[simp] theorem State.recordDelay_oe (k : DelayKind) (n : Nat) : (s.recordDelay k n).oe = s.oe := rfl
@[simp] theorem State.recordDelay_oev (k : DelayKind) (n : Nat) : (s.recordDelay k n).oev = s.oev := rfl
@[simp] theorem State.recordDelay_wv (k : DelayKind) (n : Nat) : (s.recordDelay k n).wv = s.wv := rfl
@[simp] theorem State.recordDelay_em (k : DelayKind) (n : Nat) : (s.recordDelay k n).em = s.em := rfl
@[simp] theorem State.recordDelay_ra (k : DelayKind) (n : Nat) : (s.recordDelay k n).ra = s.ra := rfl
@[simp] theorem State.recordDelay_pcnt (k : DelayKind) (n : Nat) : (s.recordDelay k n).pcnt = s.pcnt := rfl
@[simp] theorem State.recordDelay_bi (k : DelayKind) (n : Nat) : (s.recordDelay k n).bi = s.bi := rfl
@[simp] theorem State.recordDelay_row (k : DelayKind) (n : Nat) : (s.recordDelay k n).row = s.row := rfl
@[simp] theorem State.recordDelay_payload (k : DelayKind) (n : Nat) : (s.recordDelay k n).payload = s.payload := rfl
@[simp] theorem State.recordDelay_issued (k : DelayKind) (n : Nat) : (s.recordDelay k n).issued = s.issued := rfl
@[simp] theorem State.recordDelay_cp (k : DelayKind) (n : Nat) : (s.recordDelay k n).cp = s.cp := rfl
@[simp] theorem State.recordDelay_ms (k : DelayKind) (n : Nat) : (s.recordDelay k n).ms = s.ms := rfl
@[simp] theorem State.recordDelay_current (k : DelayKind) (n : Nat) : (s.recordDelay k n).current = s.current := rfl
@[simp] theorem State.recordDelay_port (k : DelayKind) (n : Nat) : (s.recordDelay k n).port = s.port := rfl
@[simp] theorem State.recordDelay_inbox (k : DelayKind) (n : Nat) : (s.recordDelay k n).inbox = s.inbox := rfl
@[simp] theorem State.recordDelay_trace (k : DelayKind) (n : Nat) : (s.recordDelay k n).trace = s.trace ++ [.delay k n (delayTicks s.cfg k n)] := rfl
@[simp] theorem State.recordDelay_env (k : DelayKind) (n : Nat) : (s.recordDelay k n).env = s.env := rfl

@[simp] theorem State.deliver_cfg (st : Status) (d : Byte) : (s.deliver st d).cfg = s.cfg := rfl
@[simp] theorem State.deliver_lc (st : Status) (d : Byte) : (s.deliver st d).lc = s.lc := rfl
@[simp] theorem State.deliver_ca (st : Status) (d : Byte) : (s.deliver st d).ca = s.ca := rfl
@[simp] theorem State.deliver_cav (st : Status) (d : Byte) : (s.deliver st d).cav = s.cav := rfl
@[simp] theorem State.deliver_dir (st : Status) (d : Byte) : (s.deliver st d).dir = s.dir := rfl
@[simp] theorem State.deliver_dirv (st : Status) (d : Byte) : (s.deliver st d).dirv = s.dirv := rfl
@[simp] theorem State.deliver_oe (st : Status) (d : Byte) : (s.deliver st d).oe = s.oe := rfl
@[simp] theorem State.deliver_oev (st : Status) (d : Byte) : (s.deliver st d).oev = s.oev := rfl
@[simp] theorem State.deliver_wv (st : Status) (d : Byte) : (s.deliver st d).wv = s.wv := rfl
@[simp] theorem State.deliver_em (st : Status) (d : Byte) : (s.deliver st d).em = s.em := rfl
@[simp] theorem State.deliver_ra (st : Status) (d : Byte) : (s.deliver st d).ra = s.ra := rfl
@[simp] theorem State.deliver_pcnt (st : Status) (d : Byte) : (s.deliver st d).pcnt = s.pcnt := rfl
@[simp] theorem State.deliver_bi (st : Status) (d : Byte) : (s.deliver st d).bi = s.bi := rfl
@[simp] theorem State.deliver_row (st : Status) (d : Byte) : (s.deliver st d).row = [] := rfl
@[simp] theorem State.deliver_payload (st : Status) (d : Byte) : (s.deliver st d).payload = [] := rfl
@[simp] theorem State.deliver_issued (st : Status) (d : Byte) : (s.deliver st d).issued = false := rfl
@[simp] theorem State.deliver_cp (st : Status) (d : Byte) : (s.deliver st d).cp = s.cp := rfl
@[simp] theorem State.deliver_ms (st : Status) (d : Byte) : (s.deliver st d).ms = [] := rfl
@[simp] theorem State.deliver_current (st : Status) (d : Byte) : (s.deliver st d).current = .idle := rfl
@[simp] theorem State.deliver_port (st : Status) (d : Byte) : (s.deliver st d).port = s.port := rfl
@[simp] theorem State.deliver_inbox (st : Status) (d : Byte) : (s.deliver st d).inbox = s.inbox := rfl
@[simp] theorem State.deliver_trace (st : Status) (d : Byte) : (s.deliver st d).trace = s.trace ++ [.response (responseWord st s.issued d)] := rfl
@[simp] theorem State.deliver_env (st : Status) (d : Byte) : (s.deliver st d).env = s.env := rfl

@[simp] theorem State.taken_cfg (rest : List Word) : (s.taken rest).cfg = s.cfg := rfl
@[simp] theorem State.taken_lc (rest : List Word) : (s.taken rest).lc = s.lc := rfl
@[simp] theorem State.taken_ca (rest : List Word) : (s.taken rest).ca = s.ca := rfl
@[simp] theorem State.taken_cav (rest : List Word) : (s.taken rest).cav = s.cav := rfl
@[simp] theorem State.taken_dir (rest : List Word) : (s.taken rest).dir = s.dir := rfl
@[simp] theorem State.taken_dirv (rest : List Word) : (s.taken rest).dirv = s.dirv := rfl
@[simp] theorem State.taken_oe (rest : List Word) : (s.taken rest).oe = s.oe := rfl
@[simp] theorem State.taken_oev (rest : List Word) : (s.taken rest).oev = s.oev := rfl
@[simp] theorem State.taken_wv (rest : List Word) : (s.taken rest).wv = s.wv := rfl
@[simp] theorem State.taken_em (rest : List Word) : (s.taken rest).em = s.em := rfl
@[simp] theorem State.taken_ra (rest : List Word) : (s.taken rest).ra = s.ra := rfl
@[simp] theorem State.taken_pcnt (rest : List Word) : (s.taken rest).pcnt = s.pcnt := rfl
@[simp] theorem State.taken_bi (rest : List Word) : (s.taken rest).bi = s.bi := rfl
@[simp] theorem State.taken_row (rest : List Word) : (s.taken rest).row = s.row := rfl
@[simp] theorem State.taken_payload (rest : List Word) : (s.taken rest).payload = s.payload := rfl
@[simp] theorem State.taken_issued (rest : List Word) : (s.taken rest).issued = s.issued := rfl
@[simp] theorem State.taken_cp (rest : List Word) : (s.taken rest).cp = s.cp + 1 := rfl
@[simp] theorem State.taken_ms (rest : List Word) : (s.taken rest).ms = s.ms := rfl
@[simp] theorem State.taken_current (rest : List Word) : (s.taken rest).current = s.current := rfl
@[simp] theorem State.taken_port (rest : List Word) : (s.taken rest).port = rest := rfl
@[simp] theorem State.taken_inbox (rest : List Word) : (s.taken rest).inbox = s.inbox := rfl
@[simp] theorem State.taken_trace (rest : List Word) : (s.taken rest).trace = s.trace := rfl
@[simp] theorem State.taken_env (rest : List Word) : (s.taken rest).env = s.env := rfl

@[simp] theorem State.acknowledged_cfg (r : Request) (rest : List Input) : (s.acknowledged r rest).cfg = s.cfg := rfl
@[simp] theorem State.acknowledged_lc (r : Request) (rest : List Input) : (s.acknowledged r rest).lc = s.lc := rfl
@[simp] theorem State.acknowledged_ca (r : Request) (rest : List Input) : (s.acknowledged r rest).ca = s.ca := rfl
@[simp] theorem State.acknowledged_cav (r : Request) (rest : List Input) : (s.acknowledged r rest).cav = s.cav := rfl
@[simp] theorem State.acknowledged_dir (r : Request) (rest : List Input) : (s.acknowledged r rest).dir = s.dir := rfl
@[simp] theorem State.acknowledged_dirv (r : Request) (rest : List Input) : (s.acknowledged r rest).dirv = s.dirv := rfl
@[simp] theorem State.acknowledged_oe (r : Request) (rest : List Input) : (s.acknowledged r rest).oe = s.oe := rfl
@[simp] theorem State.acknowledged_oev (r : Request) (rest : List Input) : (s.acknowledged r rest).oev = s.oev := rfl
@[simp] theorem State.acknowledged_wv (r : Request) (rest : List Input) : (s.acknowledged r rest).wv = s.wv := rfl
@[simp] theorem State.acknowledged_em (r : Request) (rest : List Input) : (s.acknowledged r rest).em = s.em := rfl
@[simp] theorem State.acknowledged_ra (r : Request) (rest : List Input) : (s.acknowledged r rest).ra = s.ra := rfl
@[simp] theorem State.acknowledged_pcnt (r : Request) (rest : List Input) : (s.acknowledged r rest).pcnt = s.pcnt := rfl
@[simp] theorem State.acknowledged_bi (r : Request) (rest : List Input) : (s.acknowledged r rest).bi = s.bi := rfl
@[simp] theorem State.acknowledged_row (r : Request) (rest : List Input) : (s.acknowledged r rest).row = s.row := rfl
@[simp] theorem State.acknowledged_payload (r : Request) (rest : List Input) : (s.acknowledged r rest).payload = s.payload := rfl
@[simp] theorem State.acknowledged_issued (r : Request) (rest : List Input) : (s.acknowledged r rest).issued = true := rfl
@[simp] theorem State.acknowledged_cp (r : Request) (rest : List Input) : (s.acknowledged r rest).cp = s.cp := rfl
@[simp] theorem State.acknowledged_ms (r : Request) (rest : List Input) : (s.acknowledged r rest).ms = s.ms := rfl
@[simp] theorem State.acknowledged_current (r : Request) (rest : List Input) : (s.acknowledged r rest).current = s.current := rfl
@[simp] theorem State.acknowledged_port (r : Request) (rest : List Input) : (s.acknowledged r rest).port = s.port := rfl
@[simp] theorem State.acknowledged_inbox (r : Request) (rest : List Input) : (s.acknowledged r rest).inbox = rest := rfl
@[simp] theorem State.acknowledged_trace (r : Request) (rest : List Input) : (s.acknowledged r rest).trace = s.trace ++ [.request r (s.env.answer s.cfg r)] := rfl
@[simp] theorem State.acknowledged_env (r : Request) (rest : List Input) : (s.acknowledged r rest).env = s.env.perform s.cfg r := rfl

@[simp] theorem State.requestFailed_cfg (r : Request) (rest : List Input) : (s.requestFailed r rest).cfg = s.cfg := rfl
@[simp] theorem State.requestFailed_lc (r : Request) (rest : List Input) : (s.requestFailed r rest).lc = s.lc := rfl
@[simp] theorem State.requestFailed_ca (r : Request) (rest : List Input) : (s.requestFailed r rest).ca = s.ca := rfl
@[simp] theorem State.requestFailed_cav (r : Request) (rest : List Input) : (s.requestFailed r rest).cav = s.cav := rfl
@[simp] theorem State.requestFailed_dir (r : Request) (rest : List Input) : (s.requestFailed r rest).dir = s.dir := rfl
@[simp] theorem State.requestFailed_dirv (r : Request) (rest : List Input) : (s.requestFailed r rest).dirv = s.dirv := rfl
@[simp] theorem State.requestFailed_oe (r : Request) (rest : List Input) : (s.requestFailed r rest).oe = s.oe := rfl
@[simp] theorem State.requestFailed_oev (r : Request) (rest : List Input) : (s.requestFailed r rest).oev = s.oev := rfl
@[simp] theorem State.requestFailed_wv (r : Request) (rest : List Input) : (s.requestFailed r rest).wv = s.wv := rfl
@[simp] theorem State.requestFailed_em (r : Request) (rest : List Input) : (s.requestFailed r rest).em = s.em := rfl
@[simp] theorem State.requestFailed_ra (r : Request) (rest : List Input) : (s.requestFailed r rest).ra = s.ra := rfl
@[simp] theorem State.requestFailed_pcnt (r : Request) (rest : List Input) : (s.requestFailed r rest).pcnt = s.pcnt := rfl
@[simp] theorem State.requestFailed_bi (r : Request) (rest : List Input) : (s.requestFailed r rest).bi = s.bi := rfl
@[simp] theorem State.requestFailed_row (r : Request) (rest : List Input) : (s.requestFailed r rest).row = s.row := rfl
@[simp] theorem State.requestFailed_payload (r : Request) (rest : List Input) : (s.requestFailed r rest).payload = s.payload := rfl
@[simp] theorem State.requestFailed_issued (r : Request) (rest : List Input) : (s.requestFailed r rest).issued = true := rfl
@[simp] theorem State.requestFailed_cp (r : Request) (rest : List Input) : (s.requestFailed r rest).cp = s.cp := rfl
@[simp] theorem State.requestFailed_ms (r : Request) (rest : List Input) : (s.requestFailed r rest).ms = s.ms := rfl
@[simp] theorem State.requestFailed_current (r : Request) (rest : List Input) : (s.requestFailed r rest).current = s.current := rfl
@[simp] theorem State.requestFailed_port (r : Request) (rest : List Input) : (s.requestFailed r rest).port = s.port := rfl
@[simp] theorem State.requestFailed_inbox (r : Request) (rest : List Input) : (s.requestFailed r rest).inbox = rest := rfl
@[simp] theorem State.requestFailed_trace (r : Request) (rest : List Input) : (s.requestFailed r rest).trace = s.trace ++ [.request r .error] := rfl
@[simp] theorem State.requestFailed_env (r : Request) (rest : List Input) : (s.requestFailed r rest).env = s.envAfterFailure r := rfl

@[simp] theorem raise_transportFailure_cfg : (raise .transportFailure s).cfg = s.cfg := rfl
@[simp] theorem raise_transportFailure_lc : (raise .transportFailure s).lc = if s.current = .command .setup then .unconfigured else s.lc := rfl
@[simp] theorem raise_transportFailure_ca : (raise .transportFailure s).ca = s.ca := rfl
@[simp] theorem raise_transportFailure_cav : (raise .transportFailure s).cav = false := rfl
@[simp] theorem raise_transportFailure_dir : (raise .transportFailure s).dir = s.dir := rfl
@[simp] theorem raise_transportFailure_dirv : (raise .transportFailure s).dirv = false := rfl
@[simp] theorem raise_transportFailure_oe : (raise .transportFailure s).oe = s.oe := rfl
@[simp] theorem raise_transportFailure_oev : (raise .transportFailure s).oev = false := rfl
@[simp] theorem raise_transportFailure_wv : (raise .transportFailure s).wv = s.wv := rfl
@[simp] theorem raise_transportFailure_em : (raise .transportFailure s).em = s.em := rfl
@[simp] theorem raise_transportFailure_ra : (raise .transportFailure s).ra = s.ra := rfl
@[simp] theorem raise_transportFailure_pcnt : (raise .transportFailure s).pcnt = s.pcnt := rfl
@[simp] theorem raise_transportFailure_bi : (raise .transportFailure s).bi = s.bi := rfl
@[simp] theorem raise_transportFailure_row : (raise .transportFailure s).row = s.row := rfl
@[simp] theorem raise_transportFailure_payload : (raise .transportFailure s).payload = s.payload := rfl
@[simp] theorem raise_transportFailure_issued : (raise .transportFailure s).issued = s.issued := rfl
@[simp] theorem raise_transportFailure_cp : (raise .transportFailure s).cp = s.cp := rfl
@[simp] theorem raise_transportFailure_ms : (raise .transportFailure s).ms = [.respond .transportFailure] := rfl
@[simp] theorem raise_transportFailure_current : (raise .transportFailure s).current = s.current := rfl
@[simp] theorem raise_transportFailure_port : (raise .transportFailure s).port = s.port := rfl
@[simp] theorem raise_transportFailure_inbox : (raise .transportFailure s).inbox = s.inbox := rfl
@[simp] theorem raise_transportFailure_trace : (raise .transportFailure s).trace = s.trace := rfl
@[simp] theorem raise_transportFailure_env : (raise .transportFailure s).env = s.env := rfl

@[simp] theorem raise_writeTimeout_cfg : (raise .writeTimeout s).cfg = s.cfg := rfl
@[simp] theorem raise_writeTimeout_lc : (raise .writeTimeout s).lc = s.lc := rfl
@[simp] theorem raise_writeTimeout_ca : (raise .writeTimeout s).ca = s.ca := rfl
@[simp] theorem raise_writeTimeout_cav : (raise .writeTimeout s).cav = s.cav := rfl
@[simp] theorem raise_writeTimeout_dir : (raise .writeTimeout s).dir = s.dir := rfl
@[simp] theorem raise_writeTimeout_dirv : (raise .writeTimeout s).dirv = s.dirv := rfl
@[simp] theorem raise_writeTimeout_oe : (raise .writeTimeout s).oe = s.oe := rfl
@[simp] theorem raise_writeTimeout_oev : (raise .writeTimeout s).oev = s.oev := rfl
@[simp] theorem raise_writeTimeout_wv : (raise .writeTimeout s).wv = s.wv := rfl
@[simp] theorem raise_writeTimeout_em : (raise .writeTimeout s).em = s.em := rfl
@[simp] theorem raise_writeTimeout_ra : (raise .writeTimeout s).ra = s.ra := rfl
@[simp] theorem raise_writeTimeout_pcnt : (raise .writeTimeout s).pcnt = s.pcnt := rfl
@[simp] theorem raise_writeTimeout_bi : (raise .writeTimeout s).bi = s.bi := rfl
@[simp] theorem raise_writeTimeout_row : (raise .writeTimeout s).row = s.row := rfl
@[simp] theorem raise_writeTimeout_payload : (raise .writeTimeout s).payload = s.payload := rfl
@[simp] theorem raise_writeTimeout_issued : (raise .writeTimeout s).issued = s.issued := rfl
@[simp] theorem raise_writeTimeout_cp : (raise .writeTimeout s).cp = s.cp := rfl
@[simp] theorem raise_writeTimeout_ms : (raise .writeTimeout s).ms = [.respond .writeTimeout] := rfl
@[simp] theorem raise_writeTimeout_current : (raise .writeTimeout s).current = s.current := rfl
@[simp] theorem raise_writeTimeout_port : (raise .writeTimeout s).port = s.port := rfl
@[simp] theorem raise_writeTimeout_inbox : (raise .writeTimeout s).inbox = s.inbox := rfl
@[simp] theorem raise_writeTimeout_trace : (raise .writeTimeout s).trace = s.trace := rfl
@[simp] theorem raise_writeTimeout_env : (raise .writeTimeout s).env = { s.env with suspect := some (s.env.writtenAddress s.cfg) } := rfl

@[simp] theorem raise_capacityExceeded_cfg : (raise .capacityExceeded s).cfg = s.cfg := rfl
@[simp] theorem raise_capacityExceeded_lc : (raise .capacityExceeded s).lc = s.lc := rfl
@[simp] theorem raise_capacityExceeded_ca : (raise .capacityExceeded s).ca = s.ca := rfl
@[simp] theorem raise_capacityExceeded_cav : (raise .capacityExceeded s).cav = s.cav := rfl
@[simp] theorem raise_capacityExceeded_dir : (raise .capacityExceeded s).dir = s.dir := rfl
@[simp] theorem raise_capacityExceeded_dirv : (raise .capacityExceeded s).dirv = s.dirv := rfl
@[simp] theorem raise_capacityExceeded_oe : (raise .capacityExceeded s).oe = s.oe := rfl
@[simp] theorem raise_capacityExceeded_oev : (raise .capacityExceeded s).oev = s.oev := rfl
@[simp] theorem raise_capacityExceeded_wv : (raise .capacityExceeded s).wv = s.wv := rfl
@[simp] theorem raise_capacityExceeded_em : (raise .capacityExceeded s).em = s.em := rfl
@[simp] theorem raise_capacityExceeded_ra : (raise .capacityExceeded s).ra = s.ra := rfl
@[simp] theorem raise_capacityExceeded_pcnt : (raise .capacityExceeded s).pcnt = s.pcnt := rfl
@[simp] theorem raise_capacityExceeded_bi : (raise .capacityExceeded s).bi = s.bi := rfl
@[simp] theorem raise_capacityExceeded_row : (raise .capacityExceeded s).row = s.row := rfl
@[simp] theorem raise_capacityExceeded_payload : (raise .capacityExceeded s).payload = s.payload := rfl
@[simp] theorem raise_capacityExceeded_issued : (raise .capacityExceeded s).issued = s.issued := rfl
@[simp] theorem raise_capacityExceeded_cp : (raise .capacityExceeded s).cp = s.cp := rfl
@[simp] theorem raise_capacityExceeded_ms : (raise .capacityExceeded s).ms = [.respond .capacityExceeded] := rfl
@[simp] theorem raise_capacityExceeded_current : (raise .capacityExceeded s).current = s.current := rfl
@[simp] theorem raise_capacityExceeded_port : (raise .capacityExceeded s).port = s.port := rfl
@[simp] theorem raise_capacityExceeded_inbox : (raise .capacityExceeded s).inbox = s.inbox := rfl
@[simp] theorem raise_capacityExceeded_trace : (raise .capacityExceeded s).trace = s.trace := rfl
@[simp] theorem raise_capacityExceeded_env : (raise .capacityExceeded s).env = s.env := rfl

end Updates

section EnvUpdates

variable (e : Env)

@[simp] theorem Env.setPin_pins (r : Role) (p : PinState) : (e.setPin r p).pins = e.pins.set r.index p := rfl
@[simp] theorem Env.setPin_shift (r : Role) (p : PinState) : (e.setPin r p).shift = e.shift := rfl
@[simp] theorem Env.setPin_latch (r : Role) (p : PinState) : (e.setPin r p).latch = e.latch := rfl
@[simp] theorem Env.setPin_mem (r : Role) (p : PinState) : (e.setPin r p).mem = e.mem := rfl
@[simp] theorem Env.setPin_busy (r : Role) (p : PinState) : (e.setPin r p).busy = e.busy := rfl
@[simp] theorem Env.setPin_suspect (r : Role) (p : PinState) : (e.setPin r p).suspect = e.suspect := rfl
@[simp] theorem Env.setPin_draws (r : Role) (p : PinState) : (e.setPin r p).draws = e.draws := rfl

@[simp] theorem Env.setMode_shift (r : Role) (m : Option PinMode) : (e.setMode r m).shift = e.shift := rfl
@[simp] theorem Env.setMode_latch (r : Role) (m : Option PinMode) : (e.setMode r m).latch = e.latch := rfl
@[simp] theorem Env.setMode_mem (r : Role) (m : Option PinMode) : (e.setMode r m).mem = e.mem := rfl
@[simp] theorem Env.setMode_busy (r : Role) (m : Option PinMode) : (e.setMode r m).busy = e.busy := rfl
@[simp] theorem Env.setMode_suspect (r : Role) (m : Option PinMode) : (e.setMode r m).suspect = e.suspect := rfl
@[simp] theorem Env.setMode_draws (r : Role) (m : Option PinMode) : (e.setMode r m).draws = e.draws := rfl

@[simp] theorem Env.setLevel_shift (r : Role) (l : Option Level) : (e.setLevel r l).shift = e.shift := rfl
@[simp] theorem Env.setLevel_latch (r : Role) (l : Option Level) : (e.setLevel r l).latch = e.latch := rfl
@[simp] theorem Env.setLevel_mem (r : Role) (l : Option Level) : (e.setLevel r l).mem = e.mem := rfl
@[simp] theorem Env.setLevel_busy (r : Role) (l : Option Level) : (e.setLevel r l).busy = e.busy := rfl
@[simp] theorem Env.setLevel_suspect (r : Role) (l : Option Level) : (e.setLevel r l).suspect = e.suspect := rfl
@[simp] theorem Env.setLevel_draws (r : Role) (l : Option Level) : (e.setLevel r l).draws = e.draws := rfl

@[simp] theorem Env.drawn_pins  : (e.drawn).pins = e.pins := rfl
@[simp] theorem Env.drawn_shift  : (e.drawn).shift = e.shift := rfl
@[simp] theorem Env.drawn_latch  : (e.drawn).latch = e.latch := rfl
@[simp] theorem Env.drawn_mem  : (e.drawn).mem = e.mem := rfl
@[simp] theorem Env.drawn_busy  : (e.drawn).busy = e.busy := rfl
@[simp] theorem Env.drawn_suspect  : (e.drawn).suspect = e.suspect := rfl
@[simp] theorem Env.drawn_draws  : (e.drawn).draws = e.draws + 1 := rfl

@[simp] theorem Env.writeByteAt_pins (a : Nat) (v : Byte) : (e.writeByteAt a v).pins = e.pins := rfl
@[simp] theorem Env.writeByteAt_shift (a : Nat) (v : Byte) : (e.writeByteAt a v).shift = e.shift := rfl
@[simp] theorem Env.writeByteAt_latch (a : Nat) (v : Byte) : (e.writeByteAt a v).latch = e.latch := rfl
@[simp] theorem Env.writeByteAt_mem (a : Nat) (v : Byte) : (e.writeByteAt a v).mem = Memory.write e.mem a v := rfl
@[simp] theorem Env.writeByteAt_busy (a : Nat) (v : Byte) : (e.writeByteAt a v).busy = e.busy := rfl
@[simp] theorem Env.writeByteAt_suspect (a : Nat) (v : Byte) : (e.writeByteAt a v).suspect = e.suspect := rfl
@[simp] theorem Env.writeByteAt_draws (a : Nat) (v : Byte) : (e.writeByteAt a v).draws = e.draws := rfl

end EnvUpdates

end Sys2Proof.Machine
end

