-- ==== Sys2Proof/Laws/Environment.lean ====
section
/-! SUPPORT. The laws of the pin file, of the role of a pin number, and of each transport request on a role's pin. -/

namespace Sys2Proof.Machine

theorem Role.index_inj {r r' : Role} (h : r.index = r'.index) : r = r' := by
  have hv : r.index.val = r'.index.val := congrArg Fin.val h
  cases r with
  | d i => cases r' with
    | d j => exact congrArg Role.d (Fin.ext (by simpa [Role.index] using hv))
    | _ => have := i.isLt; simp [Role.index] at hv; try omega
  | _ => cases r' with
    | d j => have := j.isLt; simp [Role.index] at hv; try omega
    | _ => first | rfl | simp [Role.index] at hv

theorem Env.pin_setPin (e : Env) (r r' : Role) (p : PinState) :
    (e.setPin r p).pin r' = if r = r' then p else e.pin r' := by
  simp only [Env.pin, Env.setPin, Fin.getElem_fin, Vector.getElem_set]
  by_cases h : r = r'
  · simp [h]
  · have : r.index.val ≠ r'.index.val := fun he => h (Role.index_inj (Fin.ext he))
    simp [h, this]

@[simp] theorem Env.pin_setMode (e : Env) (r r' : Role) (m : Option PinMode) :
    (e.setMode r m).pin r' = if r = r' then { e.pin r' with mode := m } else e.pin r' := by
  rw [Env.setMode, Env.pin_setPin]
  split
  · rename_i h; rw [h]
  · rfl

@[simp] theorem Env.pin_setLevel (e : Env) (r r' : Role) (l : Option Level) :
    (e.setLevel r l).pin r' = if r = r' then { e.pin r' with level := l } else e.pin r' := by
  rw [Env.setLevel, Env.pin_setPin]
  split
  · rename_i h; rw [h]
  · rfl

/-- What is not the pin file does not matter to a pin. -/
@[simp] theorem Env.pin_of_pins (e : Env) (sh : ShiftChain) (l : Option Address) (m : List Host.Cell)
    (b : Option WriteCycle) (a : Option Nat) (n : Nat) (r : Role) : (Env.mk e.pins sh l m b a n).pin r = e.pin r := rfl

@[simp] theorem Env.pin_drawn (e : Env) (r : Role) : e.drawn.pin r = e.pin r := rfl

@[simp] theorem Env.pin_writeByteAt (e : Env) (a : Nat) (v : Byte) (r : Role) : (e.writeByteAt a v).pin r = e.pin r := rfl

/-- Two roles have different pin numbers (R27: `PIN_MAP` is injective). -/
theorem pinOf_inj {cfg : Params} (h : cfg.wf = true) {r r' : Role} (he : pinOf cfg r = pinOf cfg r') : r = r' := by
  simp only [Params.wf, Bool.and_eq_true, decide_eq_true_eq] at h
  have hn : cfg.pinMap.toList.Nodup := h.1.1.2
  apply Role.index_inj
  apply Fin.ext
  have hi : ∀ i : Fin 13, i.val < cfg.pinMap.toList.length := fun i => by simp
  refine (List.Nodup.getElem_inj_iff hn (hi := hi r.index) (hj := hi r'.index)).1 ?_
  simpa [pinOf] using he

theorem Role.mem_all (r : Role) : r ∈ Role.all := by
  cases r with
  | d i => revert i; decide
  | _ => decide

/-- The role of a role's pin number (R27). -/
@[simp] theorem roleOf_pinOf {cfg : Params} (h : cfg.wf = true) (r : Role) : roleOf cfg (pinOf cfg r) = some r := by
  unfold roleOf
  cases hf : Role.all.find? fun r' => pinOf cfg r' == pinOf cfg r with
  | none => exact absurd (List.find?_eq_none.1 hf r (Role.mem_all r)) (by simp)
  | some r' => exact congrArg some (pinOf_inj h (by simpa using List.find?_some hf))

section Requests

variable {cfg : Params} (h : cfg.wf = true) (e : Env)
include h

theorem Env.perform_setPinMode (r : Role) (m : PinMode) :
    e.perform cfg (.setPinMode (pinOf cfg r) m) = (e.setMode r (some m)).drawn := by
  simp [Env.perform, h]

theorem Env.perform_digitalWrite (r : Role) (l : Level) :
    e.perform cfg (.digitalWrite (pinOf cfg r) l) = (e.writePin cfg r l).drawn := by
  simp [Env.perform, h]

theorem Env.fail_setPinMode (r : Role) (m : PinMode) :
    e.fail cfg (.setPinMode (pinOf cfg r) m) = (e.setMode r none).drawn := by
  simp [Env.fail, h]

theorem Env.fail_digitalWrite (r : Role) (l : Level) :
    e.fail cfg (.digitalWrite (pinOf cfg r) l) = (e.failPin cfg r l).drawn := by
  simp [Env.fail, h]

theorem Env.answer_digitalRead (i : Fin 8) :
    e.answer cfg (.digitalRead (pinOf cfg (.d i))) = .bit (e.dataBit cfg i) := by
  simp [Env.answer, h]

end Requests

theorem Env.perform_digitalRead (cfg : Params) (e : Env) (p : Pin) : e.perform cfg (.digitalRead p) = e.drawn := rfl

theorem Env.perform_shiftOut (cfg : Params) (e : Env) (b : Byte) :
    e.perform cfg (.shiftOut (pinOf cfg .sd) (pinOf cfg .sc) .msbFirst b) =
      { e with shift := e.shift.shiftIn b }.drawn := by
  simp [Env.perform, Env.shiftOut]

@[simp] theorem Env.answer_setPinMode (cfg : Params) (e : Env) (p : Pin) (m : PinMode) :
    e.answer cfg (.setPinMode p m) = .ack := rfl

@[simp] theorem Env.answer_digitalWrite (cfg : Params) (e : Env) (p : Pin) (l : Level) :
    e.answer cfg (.digitalWrite p l) = .ack := rfl

@[simp] theorem Env.answer_shiftOut (cfg : Params) (e : Env) (dp cp : Pin) (o : BitOrder) (b : Byte) :
    e.answer cfg (.shiftOut dp cp o b) = .ack := rfl

/-- A write of a pin other than LATCH and WE only sets its level (R64). -/
theorem Env.writePin_plain (cfg : Params) (e : Env) {r : Role} (l : Level) (h1 : r ≠ .latch) (h2 : r ≠ .we) :
    e.writePin cfg r l = e.setLevel r (some l) := by
  cases r <;> cases l <;> simp_all [Env.writePin]

theorem Env.writePin_low (cfg : Params) (e : Env) (r : Role) : e.writePin cfg r .low = e.setLevel r (some .low) := by
  cases r <;> simp [Env.writePin]

theorem Env.writePin_latch_high (cfg : Params) (e : Env) :
    e.writePin cfg .latch .high = { e with latch := e.latchRise }.setLevel .latch (some .high) := rfl

/-- The byte that the eight data pins drive is the byte whose bits are at their levels (R58, R68). -/
theorem byteOfBits_bits (v : Byte) : byteOfBits (fun i => v[i]) = v := by
  revert v; decide

theorem addressLines_latched (cfg : Params) (e : Env) {a : Address} (h : e.latch = some a) :
    e.addressLines cfg = a.toNat % 2 ^ addrBits cfg := by
  simp [Env.addressLines, h, deviceAddress]

/-- `CAPACITY = 2 ^ ADDR_BITS` (R7). -/
theorem capacity_eq {cfg : Params} (h : cfg.wf = true) : cfg.capacity = 2 ^ addrBits cfg := by
  simp only [Params.wf, Bool.and_eq_true, beq_iff_eq] at h
  exact h.1.1.1.1.1

theorem capacity_bounds {cfg : Params} (h : cfg.wf = true) : 16 ≤ cfg.capacity ∧ cfg.capacity ≤ 65536 := by
  simp only [Params.wf, Bool.and_eq_true, decide_eq_true_eq] at h
  exact ⟨h.1.1.1.1.2, h.1.1.1.2⟩

/-- A device address stays itself on the address lines. -/
theorem addressLines_of_lt {cfg : Params} (h : cfg.wf = true) {e : Env} {a : Address} (hl : e.latch = some a)
    (ha : a.toNat < cfg.capacity) : e.addressLines cfg = a.toNat := by
  rw [addressLines_latched _ _ hl, ← capacity_eq h, Nat.mod_eq_of_lt ha]

theorem deviceAddress_lt {cfg : Params} (h : cfg.wf = true) (n : Nat) : deviceAddress cfg n < cfg.capacity := by
  rw [capacity_eq h]; exact Nat.mod_lt _ (by positivity)

theorem addressLines_lt {cfg : Params} (h : cfg.wf = true) (e : Env) : e.addressLines cfg < cfg.capacity :=
  deviceAddress_lt h _

end Sys2Proof.Machine
end

