-- ==== Sys2Proof/Laws/Run.lean ====
section
/-! SUPPORT. Runs, and what one step does at each kind of position: the lemmas that a proof about a procedure cites
instead of unfolding `step`. -/

namespace Sys2Proof.Machine

theorem coreRun_next (M : Host.Core) {s t : M.State} (h : M.step s = .next t) (k : Nat) :
    M.run (k + 1) s = M.run k t := by
  rw [Host.Core.run, h]

theorem coreRun_add (M : Host.Core) {s t : M.State} {j : Nat} (h : M.run j s = .next t) (k : Nat) :
    M.run (j + k) s = M.run k t := by
  induction j generalizing s with
  | zero =>
    have : s = t := by simpa [Host.Core.run] using h
    rw [this, Nat.zero_add]
  | succ j ih =>
    rw [Nat.succ_add]
    cases hs : M.step s with
    | next u => rw [coreRun_next M hs]; exact ih (by rwa [coreRun_next M hs] at h)
    | fault r => simp [Host.Core.run, hs] at h
    | refused r => simp [Host.Core.run, hs] at h

theorem coreRun_step_congr (M : Host.Core) {s t : M.State} (h : M.step s = M.step t) (k : Nat) :
    M.run (k + 1) s = M.run (k + 1) t := by
  simp only [Host.Core.run, h]

@[simp] theorem run_zero (s : State) : run 0 s = .next s := rfl

theorem run_succ {s t : State} (h : step s = .next t) (k : Nat) : run (k + 1) s = run k t :=
  coreRun_next Sys2Proof.core h k

theorem run_add {s t : State} {j : Nat} (h : run j s = .next t) (k : Nat) : run (j + k) s = run k t :=
  coreRun_add Sys2Proof.core h k

theorem Reaches.refl (s : State) : Reaches s s := ⟨0, run_zero s⟩

theorem Reaches.of_eq {s t : State} (h : s = t) : Reaches s t := h ▸ Reaches.refl s

theorem Reaches.single {s t : State} (h : step s = .next t) : Reaches s t := ⟨1, by rw [run_succ h, run_zero]⟩

theorem Reaches.trans {s t u : State} (h1 : Reaches s t) (h2 : Reaches t u) : Reaches s u := by
  obtain ⟨j, hj⟩ := h1
  obtain ⟨k, hk⟩ := h2
  exact ⟨j + k, by rw [run_add hj, hk]⟩

theorem SequencerTurn.nil : SequencerTurn [] := by simp [SequencerTurn]

theorem SequencerTurn.reply (f : Bool) (l : List Input) : SequencerTurn (.reply f :: l) := by
  intro x hx
  exact ⟨f, by simpa using hx.symm⟩

theorem SequencerTurn.acks_append (n : Nat) {l : List Input} (h : SequencerTurn l) : SequencerTurn (acks n ++ l) := by
  cases n with
  | zero => simpa [acks] using h
  | succ n => simpa [acks, List.replicate_succ] using SequencerTurn.reply false _

@[simp] theorem acks_zero : acks 0 = [] := rfl

theorem acks_succ (n : Nat) (l : List Input) : acks (n + 1) ++ l = .reply false :: (acks n ++ l) := by
  simp [acks, List.replicate_succ]

theorem acks_add (m n : Nat) (l : List Input) : acks (m + n) ++ l = acks m ++ (acks n ++ l) := by
  rw [← List.append_assoc]; simp [acks, List.replicate_append_replicate]

/-- At the sequencer's turn, the step is the sequencer's (R5). -/
theorem step_eq_sequencerStep {s : State} (h : SequencerTurn s.inbox) : step s = sequencerStep s := by
  unfold step
  cases hi : s.inbox with
  | nil => rfl
  | cons x rest =>
    obtain ⟨f, rfl⟩ := h x (by simp [hi])
    rfl

/-- `MS` is overwritten by what a procedure goes on with. -/
theorem settle_ms (k : List MicroOp) (s : State) (m : List MicroOp) : settle k { s with ms := m } = settle k s := by
  induction k generalizing s m with
  | nil => rfl
  | cons op k ih =>
    cases op with
    | lifecycle l => exact ih { s with lc := l } m
    | latched a => exact ih { s with ca := a, cav := true } m
    | directionSet d => exact ih { s with dir := d, dirv := true } m
    | outputEnableSet e => exact ih { s with oe := e, oev := true } m
    | clearAccumulator => exact ih { s with ra := 0 } m
    | captureValue v => exact ih { s with em := v[7], wv := v } m
    | shiftValue => exact ih { s with wv := s.wv >>> 1 } m
    | clearPollCount => exact ih { s with pcnt := 0 } m
    | clearIndex => exact ih { s with bi := 0 } m
    | nextIndex => exact ih { s with bi := s.bi + 1 } m
    | clearRow => exact ih { s with row := [] } m
    | storeRow => exact ih { s with row := s.row ++ [s.ra] } m
    | emitLine =>
      exact ih { s with trace := s.trace ++ [.text (dumpLine s.cfg (16 * s.bi.toNat) s.row)] } m
    | setAddress a => simp only [settle, ih s m]
    | setMode d => simp only [settle, ih s m]
    | setOutputEnabled e => simp only [settle, ih s m]
    | _ => rfl

theorem resume_ms (k : List MicroOp) (s : State) (m : List MicroOp) : resume k { s with ms := m } = resume k s := by
  rw [resume, settle_ms, resume]

section Silent

variable (k : List MicroOp) (s : State)

@[simp] theorem resume_nil : resume [] s = { s with ms := [] } := rfl
theorem resume_request (r : Request) : resume (.request r :: k) s = { s with ms := .request r :: k } := rfl
theorem resume_sample (i : Fin 8) : resume (.sample i :: k) s = { s with ms := .sample i :: k } := rfl
theorem resume_pollRead : resume (.pollRead :: k) s = { s with ms := .pollRead :: k } := rfl
theorem resume_restoreBit7 : resume (.restoreBit7 :: k) s = { s with ms := .restoreBit7 :: k } := rfl
theorem resume_delay (d : DelayKind) (n : Nat) : resume (.delay d n :: k) s = { s with ms := .delay d n :: k } := rfl
theorem resume_respond (st : Status) : resume (.respond st :: k) s = { s with ms := .respond st :: k } := rfl
theorem resume_respondByte : resume (.respondByte :: k) s = { s with ms := .respondByte :: k } := rfl
theorem resume_takePayload (n : Nat) : resume (.takePayload n :: k) s = { s with ms := .takePayload n :: k } := rfl
theorem resume_setup : resume (.setup :: k) s =
    { s with cav := false, dirv := false, oev := false, ms := setupOps s.cfg ++ k } := rfl
theorem resume_lifecycle (l : Lifecycle) : resume (.lifecycle l :: k) s = resume k { s with lc := l } := rfl
theorem resume_latched (a : Address) : resume (.latched a :: k) s = resume k { s with ca := a, cav := true } := rfl
theorem resume_directionSet (d : PinMode) :
    resume (.directionSet d :: k) s = resume k { s with dir := d, dirv := true } := rfl
theorem resume_outputEnableSet (e : Bool) :
    resume (.outputEnableSet e :: k) s = resume k { s with oe := e, oev := true } := rfl
theorem resume_clearAccumulator : resume (.clearAccumulator :: k) s = resume k { s with ra := 0 } := rfl
theorem resume_captureValue (v : Byte) :
    resume (.captureValue v :: k) s = resume k { s with em := v[7], wv := v } := rfl
theorem resume_driveBit (i : Fin 8) : resume (.driveBit i :: k) s =
    { s with ms := digitalWriteOp s.cfg (.d i) (if s.wv[0] then .high else .low) :: .shiftValue :: k } := rfl
theorem resume_shiftValue : resume (.shiftValue :: k) s = resume k { s with wv := s.wv >>> 1 } := rfl
theorem resume_clearPollCount : resume (.clearPollCount :: k) s = resume k { s with pcnt := 0 } := rfl
theorem resume_raiseTimeout : resume (.raiseTimeout :: k) s = raise .writeTimeout s := rfl
theorem resume_clearIndex : resume (.clearIndex :: k) s = resume k { s with bi := 0 } := rfl
theorem resume_nextIndex : resume (.nextIndex :: k) s = resume k { s with bi := s.bi + 1 } := rfl
theorem resume_clearRow : resume (.clearRow :: k) s = resume k { s with row := [] } := rfl
theorem resume_storeRow : resume (.storeRow :: k) s = resume k { s with row := s.row ++ [s.ra] } := rfl
theorem resume_emitLine : resume (.emitLine :: k) s =
    resume k { s with trace := s.trace ++ [.text (dumpLine s.cfg (16 * s.bi.toNat) s.row)] } := rfl

/-- The fast path of SetAddress (R140, R141). -/
theorem resume_setAddress_fast {a : Address} (h : s.cav = true ∧ s.ca = a) :
    resume (.setAddress a :: k) s = resume k s := by
  simp only [resume, settle, if_pos h]

/-- SetAddress without its fast path (R140). -/
theorem resume_setAddress_load {a : Address} (h : ¬(s.cav = true ∧ s.ca = a)) :
    resume (.setAddress a :: k) s = resume (loadOps s.cfg a ++ k) s := by
  simp only [resume, settle, if_neg h]; rfl

theorem resume_setMode_fast {d : PinMode} (h : s.dirv = true ∧ s.dir = d) : resume (.setMode d :: k) s = resume k s := by
  simp only [resume, settle, if_pos h]

theorem resume_setMode_full {d : PinMode} (h : ¬(s.dirv = true ∧ s.dir = d)) :
    resume (.setMode d :: k) s = resume (setModeOps s.cfg d ++ k) s := by
  simp only [resume, settle, if_neg h]; rfl

theorem resume_setOutputEnabled_fast {e : Bool} (h : s.oev = true ∧ s.oe = e) :
    resume (.setOutputEnabled e :: k) s = resume k s := by
  simp only [resume, settle, if_pos h]

theorem resume_setOutputEnabled_full {e : Bool} (h : ¬(s.oev = true ∧ s.oe = e)) :
    resume (.setOutputEnabled e :: k) s = resume (setOutputEnabledOps s.cfg e ++ k) s := by
  simp only [resume, settle, if_neg h]; rfl

/-- One more iteration of a bulk loop (R220, R222, R223): every iteration starts with micro-steps that end at a request, so
nothing of the loop is looked at twice. -/
theorem resume_loop_next {kind : BulkKind} {n : Nat} (h : s.bi.toNat < n) :
    resume (.loop kind n :: k) s = settle (iterationOps kind s ++ .nextIndex :: .loop kind n :: k) s := by
  have : resume (.loop kind n :: k) s =
      if s.bi.toNat < n then settle (iterationOps kind { s with ms := .loop kind n :: k } ++ .nextIndex :: .loop kind n :: k)
        { s with ms := .loop kind n :: k } else settle k { s with ms := .loop kind n :: k } := rfl
  rw [this, if_pos h, settle_ms]
  cases kind <;> rfl

/-- The end of a bulk loop. -/
theorem resume_loop_done {kind : BulkKind} {n : Nat} (h : ¬ s.bi.toNat < n) :
    resume (.loop kind n :: k) s = settle k s := by
  have : resume (.loop kind n :: k) s =
      if s.bi.toNat < n then settle (iterationOps kind { s with ms := .loop kind n :: k } ++ .nextIndex :: .loop kind n :: k)
        { s with ms := .loop kind n :: k } else settle k { s with ms := .loop kind n :: k } := rfl
  rw [this, if_neg h, settle_ms]

end Silent

/-- Every request row of the opcode table is performed by `transport` (R50). -/
@[simp] theorem exec_request (r : Request) (s : State) : exec r.instr s = transport r s := by
  cases r <;> rfl

section Positions

variable {s : State} {k : List MicroOp} {rest : List Input}

theorem settled_of_eq (h : resume s.ms s = s) : s.settled = s := h

/-- At a request that is acknowledged (R10). -/
theorem step_request_ack {r : Request} (hm : s.ms = .request r :: k) (hi : s.inbox = .reply false :: rest) :
    step s = .next (resume k (s.acknowledged r rest)) := by
  have hs : s.settled = s := by rw [State.settled, hm, resume_request, ← hm]
  have : step s = sequencerStep s := by unfold step; rw [hi]
  rw [this, sequencerStep, hs, sequencerAct, hm]
  simp only [MicroOp.nextRequest, exec_request, transport, hi, afterResponse, State.acknowledged_ms, hm]

/-- At a request that answers `error` (R272, R273). -/
theorem step_request_error {op : MicroOp} {r : Request} (hm : s.ms = op :: k) (hr : op.nextRequest s.cfg = some r)
    (hi : s.inbox = .reply true :: rest) : step s = .next (raise .transportFailure (s.requestFailed r rest)) := by
  have : step s = sequencerStep s := by unfold step; rw [hi]
  cases op <;> simp only [MicroOp.nextRequest, Option.some.injEq, reduceCtorEq] at hr <;> subst hr <;>
  · have hs : s.settled = s := by rw [State.settled, hm]; first
      | rw [resume_request, ← hm]
      | rw [resume_sample, ← hm]
      | rw [resume_pollRead, ← hm]
      | rw [resume_restoreBit7, ← hm]
    rw [this, sequencerStep, hs, sequencerAct, hm]
    simp only [MicroOp.nextRequest, exec_request, transport, hi]

/-- At a sample that is answered with a bit (R180). -/
theorem step_sample_ack {i : Fin 8} {b : Bool} (hm : s.ms = .sample i :: k) (hi : s.inbox = .reply false :: rest)
    (hb : s.env.answer s.cfg (.digitalRead (pinOf s.cfg (.d i))) = .bit b) :
    step s = .next (resume k { s.acknowledged (.digitalRead (pinOf s.cfg (.d i))) rest with
      ra := (s.ra <<< 1) ||| (BitVec.ofBool b).setWidth 8 }) := by
  have hs : s.settled = s := by rw [State.settled, hm, resume_sample, ← hm]
  have : step s = sequencerStep s := by unfold step; rw [hi]
  rw [this, sequencerStep, hs, sequencerAct, hm]
  simp only [MicroOp.nextRequest, exec_request, transport, hi, afterResponse, State.acknowledged_ms, hm, hb,
    State.acknowledged_ra]
  cases b <;> rfl

/-- At a polling read that is answered with a bit (R184). -/
theorem step_pollRead_ack {b : Bool} (hm : s.ms = .pollRead :: k) (hi : s.inbox = .reply false :: rest)
    (hb : s.env.answer s.cfg (.digitalRead (pinOf s.cfg (.d 7))) = .bit b) :
    step s = .next (
      if b = s.em then
        resume (.restoreBit7 :: k)
          { s.acknowledged (.digitalRead (pinOf s.cfg (.d 7))) rest with pcnt := s.pcnt + 1 }
      else if s.cfg.pollLimit = some (s.pcnt + 1) then
        resume (.restoreBit7 :: .raiseTimeout :: k)
          { s.acknowledged (.digitalRead (pinOf s.cfg (.d 7))) rest with pcnt := s.pcnt + 1 }
      else { s.acknowledged (.digitalRead (pinOf s.cfg (.d 7))) rest with pcnt := s.pcnt + 1 }) := by
  have hs : s.settled = s := by rw [State.settled, hm, resume_pollRead, ← hm]
  have : step s = sequencerStep s := by unfold step; rw [hi]
  rw [this, sequencerStep, hs, sequencerAct, hm]
  simp only [MicroOp.nextRequest, exec_request, transport, hi, afterResponse, State.acknowledged_ms, hm, hb,
    State.acknowledged_em, State.acknowledged_pcnt, State.acknowledged_cfg, Response.bit.injEq]

/-- At the restore of D7 (R184 P3, P4). -/
theorem step_restoreBit7_ack (hm : s.ms = .restoreBit7 :: k) (hi : s.inbox = .reply false :: rest) :
    step s = .next (resume k (s.acknowledged (.setPinMode (pinOf s.cfg (.d 7)) .output) rest)) := by
  have hs : s.settled = s := by rw [State.settled, hm, resume_restoreBit7, ← hm]
  have : step s = sequencerStep s := by unfold step; rw [hi]
  rw [this, sequencerStep, hs, sequencerAct, hm]
  simp only [MicroOp.nextRequest, exec_request, transport, hi, afterResponse, State.acknowledged_ms, hm]

/-- At a delay (R123). -/
theorem step_delay {d : DelayKind} {n : Nat} (hm : s.ms = .delay d n :: k) (hi : SequencerTurn s.inbox) :
    step s = .next (resume k (s.recordDelay d n)) := by
  have hs : s.settled = s := by rw [State.settled, hm, resume_delay, ← hm]
  rw [step_eq_sequencerStep hi, sequencerStep, hs, sequencerAct, hm]

/-- At a response (R100). -/
theorem step_respond {st : Status} (hm : s.ms = .respond st :: k) (hi : SequencerTurn s.inbox) :
    step s = .next (s.deliver st 0) := by
  have hs : s.settled = s := by rw [State.settled, hm, resume_respond, ← hm]
  rw [step_eq_sequencerStep hi, sequencerStep, hs, sequencerAct, hm]

/-- At the response of a READ (R181). -/
theorem step_respondByte (hm : s.ms = .respondByte :: k) (hi : SequencerTurn s.inbox) :
    step s = .next (s.deliver .ok s.ra) := by
  have hs : s.settled = s := by rw [State.settled, hm, resume_respondByte, ← hm]
  rw [step_eq_sequencerStep hi, sequencerStep, hs, sequencerAct, hm]

/-- At a command position with a word that decodes (R254). -/
theorem step_command {w : Word} {ws : List Word} {i : Instr} (hm : s.ms = []) (hi : SequencerTurn s.inbox)
    (hp : s.port = w :: ws) (hd : decode .command w = .ok i) : step s = exec i (s.taken ws) := by
  have hs : s.settled = s := by rw [State.settled, hm, resume_nil, ← hm]
  rw [step_eq_sequencerStep hi, sequencerStep, hs, sequencerAct, hm, acceptCommand, hp]
  simp only [hd]

end Positions

/-- The command cycle of a one-word command that passes the gate and the range check (R253, R254). -/
theorem accept_runs {i : Instr} {s : State} {run : State → State}
    (hl : s.lc = .ready ∨ (s.lc = .unconfigured ∧ runsUnconfigured i = true))
    (ha : addressOutOfRange s.cfg i = false) :
    accept i s run = .next (run { s with issued := false, current := .command i }) := by
  unfold accept gate
  rcases hl with hl | ⟨hl, hr⟩
  · simp [hl, ha]
  · simp [hl, ha, hr]

/-- The command cycle while `LC = CLOSED` (R253). -/
theorem accept_closed {i : Instr} {s : State} {run : State → State} (hl : s.lc = .closed) :
    accept i s run = .next { s with issued := false, current := .command i, ms := [.respond .refusedClosed] } := by
  simp [accept, gate, hl, State.refuse]

/-- The command cycle of a command that needs Setup, before it (R253). -/
theorem accept_unconfigured {i : Instr} {s : State} {run : State → State} (hl : s.lc = .unconfigured)
    (hr : runsUnconfigured i = false) :
    accept i s run = .next { s with issued := false, current := .command i, ms := [.respond .refusedNotConfigured] } := by
  simp [accept, gate, hl, hr, State.refuse]

/-- The command cycle of a command whose address is no device address (R94). -/
theorem accept_out_of_range {i : Instr} {s : State} {run : State → State} (hl : s.lc = .ready)
    (ha : addressOutOfRange s.cfg i = true) :
    accept i s run =
      .next { s with issued := false, current := .command i, ms := [.respond .refusedAddressOutOfRange] } := by
  simp [accept, gate, hl, ha, State.refuse]

/-- The delivery of a response word in the terms of the statements (R100). -/
theorem deliver_eq_answered (s : State) (st : Status) (v : Byte) :
    s.deliver st v = s.answered [] (responseWord st s.issued v) := by
  simp [State.deliver, State.answered]

/-- A state right after reset takes the same steps as the settled one (R302): its first micro-steps are silent. -/
theorem Reaches.of_settled {s u : State} (hi : SequencerTurn s.inbox) (hin : s.settled.inbox = s.inbox)
    (hs : s.settled.settled = s.settled) (h : Reaches s.settled u) (hne : u ≠ s.settled) : Reaches s u := by
  have hstep : step s = step s.settled := by
    rw [step_eq_sequencerStep hi, step_eq_sequencerStep (by rw [hin]; exact hi), sequencerStep, sequencerStep, hs]
  obtain ⟨k, hk⟩ := h
  cases k with
  | zero =>
    rw [run_zero] at hk
    exact absurd (Host.Outcome.next.inj hk).symm hne
  | succ k =>
    exact ⟨k + 1, (coreRun_step_congr Sys2Proof.core hstep k).trans hk⟩

end Sys2Proof.Machine
end

