-- ==== Sys2Proof/Laws/Procedures.lean ====
section
/-! SUPPORT. What each procedure of files 42 to 44 does when every request is acknowledged: from the position at the
procedure to the position after it, with the state and the environment it leaves. -/

namespace Sys2Proof.Machine

section Steps

variable {s : State} {k : List MicroOp} {rest : List Input}

theorem reaches_request {r : Request} (hi : s.inbox = .reply false :: rest) :
    Reaches (resume (.request r :: k) s) (resume k (s.acknowledged r rest)) := by
  rw [resume_request]
  have h := step_request_ack (s := { s with ms := .request r :: k }) (k := k) rfl hi
  refine Reaches.single (h.trans ?_)
  exact congrArg _ (resume_ms k (s.acknowledged r rest) (.request r :: k))

/-- A request that fails before any `DW(WE, L)` only disturbs what it names (R53). -/
theorem State.envAfterFailure_of_not_past {r : Request} (h : s.pastWriteLow = false) :
    s.envAfterFailure r = s.env.fail s.cfg r := by
  simp [State.envAfterFailure, h]

/-- A request that answers `error` ends the command: the error is taken and its response delivered (R272, R273). -/
theorem reaches_requestFailed {r : Request} (hi : s.inbox = .reply true :: rest) (ht : SequencerTurn rest) :
    Reaches (resume (.request r :: k) s)
      ({ s with
        cav := false, dirv := false, oev := false
        lc := if s.current = Activity.command .setup then .unconfigured else s.lc
        inbox := rest, env := { s with ms := .request r :: k }.envAfterFailure r }.answered
        [Event.request r .error] 0x01000100#32) := by
  rw [resume_request]
  refine (Reaches.single (step_request_error (s := { s with ms := .request r :: k }) (k := k) rfl rfl hi)).trans ?_
  refine (Reaches.single (step_respond (k := []) rfl (by exact ht))).trans (Reaches.of_eq ?_)
  simp [raise, State.requestFailed, State.deliver, State.answered, responseWord, ErrorKind.status, Status.code]
  by_cases h : s.current = Activity.command .setup <;> simp [h]

/-- A request of a procedure that has no write pulse behind it and no polling before it only disturbs what it names. -/
theorem reaches_requestFailed_plain {r : Request} (hi : s.inbox = .reply true :: rest) (ht : SequencerTurn rest)
    (h1 : MicroOp.pollRead ∉ k) (h2 : MicroOp.restoreBit7 ∉ k) :
    Reaches (resume (.request r :: k) s)
      ({ s with
        cav := false, dirv := false, oev := false
        lc := if s.current = Activity.command .setup then .unconfigured else s.lc
        inbox := rest, env := s.env.fail s.cfg r }.answered [Event.request r .error] 0x01000100#32) := by
  have h : State.pastWriteLow { s with ms := .request r :: k } = false := by simp [State.pastWriteLow, h1, h2]
  have := reaches_requestFailed (k := k) (r := r) hi ht
  rwa [State.envAfterFailure_of_not_past h] at this

theorem reaches_delay {d : DelayKind} {n : Nat} (hi : SequencerTurn s.inbox) :
    Reaches (resume (.delay d n :: k) s) (resume k (s.recordDelay d n)) := by
  rw [resume_delay]
  have h := step_delay (s := { s with ms := .delay d n :: k }) (k := k) rfl hi
  refine Reaches.single (h.trans ?_)
  exact congrArg _ (resume_ms k (s.recordDelay d n) (.delay d n :: k))

theorem reaches_optionalDelay {d : DelayKind} {n : Nat} (hi : SequencerTurn s.inbox) :
    Reaches (resume (optionalDelay d n ++ k) s)
      (resume k { s with trace := s.trace ++ optionalDelayEvent s.cfg d n }) := by
  by_cases hn : 0 < n
  · simp only [optionalDelay, optionalDelayEvent, if_pos hn]
    exact reaches_delay hi
  · simp only [optionalDelay, optionalDelayEvent, if_neg hn, List.nil_append, List.append_nil]
    exact Reaches.refl _

theorem reaches_respond {st : Status} (hi : SequencerTurn s.inbox) :
    Reaches (resume [.respond st] s) (s.deliver st 0) := by
  rw [resume_respond]
  exact Reaches.single (step_respond (s := { s with ms := [.respond st] }) (k := []) rfl hi)

theorem reaches_respondByte (hi : SequencerTurn s.inbox) :
    Reaches (resume [.respondByte] s) (s.deliver .ok s.ra) := by
  rw [resume_respondByte]
  exact Reaches.single (step_respondByte (s := { s with ms := [.respondByte] }) (k := []) rfl hi)

theorem reaches_sample {i : Fin 8} {b : Bool} (hi : s.inbox = .reply false :: rest)
    (hb : s.env.answer s.cfg (.digitalRead (pinOf s.cfg (.d i))) = .bit b) :
    Reaches (resume (.sample i :: k) s)
      (resume k { s.acknowledged (.digitalRead (pinOf s.cfg (.d i))) rest with
        ra := (s.ra <<< 1) ||| (BitVec.ofBool b).setWidth 8 }) := by
  rw [resume_sample]
  have h := step_sample_ack (s := { s with ms := .sample i :: k }) (k := k) rfl hi hb
  refine Reaches.single (h.trans ?_)
  exact congrArg _ (resume_ms k { s.acknowledged (.digitalRead (pinOf s.cfg (.d i))) rest with
    ra := (s.ra <<< 1) ||| (BitVec.ofBool b).setWidth 8 } (.sample i :: k))

theorem reaches_restoreBit7 (hi : s.inbox = .reply false :: rest) :
    Reaches (resume (.restoreBit7 :: k) s)
      (resume k (s.acknowledged (.setPinMode (pinOf s.cfg (.d 7)) .output) rest)) := by
  rw [resume_restoreBit7]
  have h := step_restoreBit7_ack (s := { s with ms := .restoreBit7 :: k }) (k := k) rfl hi
  refine Reaches.single (h.trans ?_)
  exact congrArg _ (resume_ms k (s.acknowledged (.setPinMode (pinOf s.cfg (.d 7)) .output) rest) (.restoreBit7 :: k))

end Steps

/-- `{a[15:8], a[7:0]} = a` (R57). -/
@[simp] theorem high_append_low (a : Address) : highByte a ++ lowByte a = a := by
  apply BitVec.eq_of_toNat_eq
  refine (BitVec.toNat_append (highByte a) (lowByte a)).trans ?_
  have hh : (highByte a).toNat = a.toNat / 256 % 256 := by simp [highByte, Nat.shiftRight_eq_div_pow]
  have hl : (lowByte a).toNat = a.toNat % 256 := by simp [lowByte]
  have := a.isLt
  rw [hh, hl, Nat.shiftLeft_eq, Nat.mul_comm, ← Nat.two_pow_add_eq_or_of_lt (by omega : a.toNat % 256 < 2 ^ 8)]
  omega

/-- SetAddress with every request acknowledged (R140, R143, R145): the address is cached; without the fast path the latch
clock ends low, and if it was low the address stands on the address lines; no other pin, no byte and no cycle is
different. -/
theorem reaches_setAddress {s : State} {a : Address} (k : List MicroOp) {rest : List Input}
    (hc : s.cfg.wf = true) (hi : s.inbox = acks (addressCost s a) ++ rest) (ht : SequencerTurn rest) :
    ∃ e : Env,
      Reaches (resume (.setAddress a :: k) s)
        (resume k { s with
          ca := a, cav := true, issued := s.issued || decide (addressCost s a ≠ 0), inbox := rest
          trace := s.trace ++ addressEvents s a, env := e }) ∧
      (s.cav = true ∧ s.ca = a → e = s.env) ∧
      (¬(s.cav = true ∧ s.ca = a) → e.pin .latch = { s.env.pin .latch with level := some .low } ∧
        ((s.env.pin .latch).level = some .low → e.latch = some a ∧ e.shift.value = some a)) ∧
      (∀ r, r ≠ .latch → e.pin r = s.env.pin r) ∧ e.mem = s.env.mem ∧ e.busy = s.env.busy ∧
      e.suspect = s.env.suspect := by
  by_cases hf : s.cav = true ∧ s.ca = a
  · refine ⟨s.env, ?_, fun _ => rfl, fun h => absurd hf h, fun _ _ => rfl, rfl, rfl, rfl⟩
    rw [resume_setAddress_fast _ _ hf]
    refine Reaches.of_eq (congrArg _ ?_)
    simp only [addressCost, if_pos hf, acks_zero, List.nil_append] at hi
    obtain ⟨h1, h2⟩ := hf
    cases s
    simp_all [addressEvents, addressCost]
  · simp only [addressCost, if_neg hf] at hi
    have hi4 : s.inbox = .reply false :: .reply false :: .reply false :: .reply false :: rest := hi
    have hw := Env.perform_digitalWrite hc
    refine ⟨(((((s.env.perform s.cfg (.shiftOut (pinOf s.cfg .sd) (pinOf s.cfg .sc) .msbFirst (highByte a))).perform s.cfg
      (.shiftOut (pinOf s.cfg .sd) (pinOf s.cfg .sc) .msbFirst (lowByte a)))).perform s.cfg
      (.digitalWrite (pinOf s.cfg .latch) .high)).perform s.cfg (.digitalWrite (pinOf s.cfg .latch) .low)),
      ?_, fun h => absurd h hf, fun _ => ⟨?_, fun hlow => ?_⟩, ?_, ?_⟩
    · rw [resume_setAddress_load _ _ hf]
      simp only [loadOps, List.append_assoc, List.cons_append, List.nil_append]
      refine (reaches_request hi4).trans ((reaches_request rfl).trans ((reaches_request rfl).trans ?_))
      refine (reaches_optionalDelay (SequencerTurn.reply _ _)).trans ?_
      refine (reaches_request rfl).trans ((reaches_optionalDelay ht).trans ?_)
      rw [resume_latched]
      refine Reaches.of_eq (congrArg _ ?_)
      simp [State.acknowledged, addressEvents, hf, addressCost, soEvent, dwEvent]
    · simp [hw, Env.perform_shiftOut, Env.writePin_low, Env.writePin_latch_high]
    · simp [hw, Env.perform_shiftOut, Env.writePin_low, Env.writePin_latch_high, Env.latchRise, hlow,
        ShiftChain.shiftIn, ShiftChain.value, high_append_low]
    · intro r hr
      simp [hw, Env.perform_shiftOut, Env.writePin_low, Env.writePin_latch_high, Ne.symm hr]
    · simp [hw, Env.perform_shiftOut, Env.writePin_low, Env.writePin_latch_high]

/-- SetAddress from a cache that describes the address lines and a latch clock that is low: the address is on the address
lines afterwards, and every pin is as before. -/
theorem reaches_setAddress_coherent {s : State} {a : Address} (k : List MicroOp) {rest : List Input}
    (hc : s.cfg.wf = true) (hi : s.inbox = acks (addressCost s a) ++ rest) (ht : SequencerTurn rest)
    (hlow : (s.env.pin .latch).level = some .low) (hcoh : s.cav = true → s.env.latch = some s.ca) :
    ∃ e : Env,
      Reaches (resume (.setAddress a :: k) s)
        (resume k { s with
          ca := a, cav := true, issued := s.issued || decide (addressCost s a ≠ 0), inbox := rest
          trace := s.trace ++ addressEvents s a, env := e }) ∧
      e.latch = some a ∧ (∀ r, e.pin r = s.env.pin r) ∧ e.mem = s.env.mem ∧ e.busy = s.env.busy ∧
      e.suspect = s.env.suspect := by
  obtain ⟨e, hr, hfast, hslow, hp, hm, hb, hs⟩ := reaches_setAddress k hc hi ht
  refine ⟨e, hr, ?_, fun r => ?_, hm, hb, hs⟩
  · by_cases hf : s.cav = true ∧ s.ca = a
    · rw [hfast hf, hcoh hf.1, hf.2]
    · exact ((hslow hf).2 hlow).1
  · by_cases h : r = .latch
    · by_cases hf : s.cav = true ∧ s.ca = a
      · rw [hfast hf]
      · rw [h, (hslow hf).1, ← hlow]
    · exact hp r h

/-- The environment after a run of acknowledged `SPM`s: each role in the list has the mode, nothing else differs. -/
def Env.setModes (e : Env) (rs : List Role) (m : PinMode) : Env :=
  rs.foldl (fun e r => (e.setMode r (some m)).drawn) e

theorem Env.pin_setModes (e : Env) (rs : List Role) (m : PinMode) (r : Role) :
    (e.setModes rs m).pin r = if r ∈ rs then { e.pin r with mode := some m } else e.pin r := by
  induction rs generalizing e with
  | nil => simp [Env.setModes]
  | cons r' rs ih =>
    simp only [Env.setModes, List.foldl_cons] at ih ⊢
    rw [ih]
    by_cases h1 : r' = r
    · subst h1; simp
    · have h2 : ¬ r = r' := fun h => h1 h.symm
      simp [h1, h2]

theorem Env.setModes_rest (e : Env) (rs : List Role) (m : PinMode) :
    (e.setModes rs m).shift = e.shift ∧ (e.setModes rs m).latch = e.latch ∧ (e.setModes rs m).mem = e.mem ∧
      (e.setModes rs m).busy = e.busy ∧ (e.setModes rs m).suspect = e.suspect := by
  induction rs generalizing e with
  | nil => simp [Env.setModes]
  | cons r' rs ih =>
    simp only [Env.setModes, List.foldl_cons] at ih ⊢
    simpa using ih (e := (e.setMode r' (some m)).drawn)

/-- A run of acknowledged `SPM`s to one mode. -/
theorem reaches_setPinModes {s : State} (rs : List Role) (m : PinMode) (k : List MicroOp) {rest : List Input}
    (hc : s.cfg.wf = true) (hi : s.inbox = acks rs.length ++ rest) :
    Reaches (resume (rs.map (fun r => setPinModeOp s.cfg r m) ++ k) s)
      (resume k { s with
        issued := s.issued || !rs.isEmpty, inbox := rest, env := s.env.setModes rs m
        trace := s.trace ++ rs.map fun r => spmEvent s.cfg r m }) := by
  induction rs generalizing s with
  | nil =>
    refine Reaches.of_eq (congrArg _ ?_)
    cases s
    simp_all [Env.setModes]
  | cons r rs ih =>
    rw [List.length_cons, acks_succ] at hi
    refine (reaches_request hi).trans ?_
    refine (ih (s := s.acknowledged (.setPinMode (pinOf s.cfg r) m) (acks rs.length ++ rest)) hc rfl).trans ?_
    refine Reaches.of_eq (congrArg _ ?_)
    simp [State.acknowledged, Env.setModes, Env.perform_setPinMode hc, spmEvent]

/-- SetMode with every request acknowledged (R160, R165): the direction is cached; without the fast path the data pins are
in the mode; no other pin, no level, no byte and no cycle is different. -/
theorem reaches_setMode {s : State} {d : PinMode} (k : List MicroOp) {rest : List Input}
    (hc : s.cfg.wf = true) (hi : s.inbox = acks (modeCost s d) ++ rest) :
    ∃ e : Env,
      Reaches (resume (.setMode d :: k) s)
        (resume k { s with
          dir := d, dirv := true, issued := s.issued || decide (modeCost s d ≠ 0), inbox := rest
          trace := s.trace ++ modeEvents s d, env := e }) ∧
      (s.dirv = true ∧ s.dir = d → e = s.env) ∧
      (¬(s.dirv = true ∧ s.dir = d) → ∀ i, e.pin (.d i) = { s.env.pin (.d i) with mode := some d }) ∧
      (∀ r, (∀ i, r ≠ .d i) → e.pin r = s.env.pin r) ∧
      e.shift = s.env.shift ∧ e.latch = s.env.latch ∧ e.mem = s.env.mem ∧ e.busy = s.env.busy ∧
      e.suspect = s.env.suspect := by
  by_cases hf : s.dirv = true ∧ s.dir = d
  · refine ⟨s.env, ?_, fun _ => rfl, fun h => absurd hf h, fun _ _ => rfl, rfl, rfl, rfl, rfl, rfl⟩
    rw [resume_setMode_fast _ _ hf]
    refine Reaches.of_eq (congrArg _ ?_)
    simp only [modeCost, if_pos hf, acks_zero, List.nil_append] at hi
    obtain ⟨h1, h2⟩ := hf
    cases s
    simp_all [modeEvents, modeCost]
  · simp only [modeCost, if_neg hf] at hi
    obtain ⟨h1, h2, h3, h4, h5⟩ := Env.setModes_rest s.env ((List.finRange 8).map Role.d) d
    refine ⟨s.env.setModes ((List.finRange 8).map Role.d) d, ?_, fun h => absurd h hf, fun _ i => ?_, ?_, h1, h2, h3, h4, h5⟩
    · rw [resume_setMode_full _ _ hf]
      have := reaches_setPinModes ((List.finRange 8).map Role.d) d (.directionSet d :: k) hc (rest := rest)
        (by simpa using hi)
      refine Reaches.trans (Reaches.of_eq ?_) (this.trans ?_)
      · rfl
      · rw [resume_directionSet]
        refine Reaches.of_eq (congrArg _ ?_)
        simp [modeEvents, hf, modeCost]
    · simp [Env.pin_setModes]
    · intro r hr
      rw [Env.pin_setModes, if_neg]
      rintro h
      obtain ⟨i, -, rfl⟩ := List.mem_map.1 h
      exact hr i rfl

/-- SetMode from a direction cache that describes the pins: the data pins are in the mode. -/
theorem reaches_setMode_coherent {s : State} {d : PinMode} (k : List MicroOp) {rest : List Input}
    (hc : s.cfg.wf = true) (hi : s.inbox = acks (modeCost s d) ++ rest)
    (hcoh : s.dirv = true → ∀ i : Fin 8, (s.env.pin (.d i)).mode = some s.dir) :
    ∃ e : Env,
      Reaches (resume (.setMode d :: k) s)
        (resume k { s with
          dir := d, dirv := true, issued := s.issued || decide (modeCost s d ≠ 0), inbox := rest
          trace := s.trace ++ modeEvents s d, env := e }) ∧
      (∀ i, e.pin (.d i) = { s.env.pin (.d i) with mode := some d }) ∧
      (∀ r, (∀ i, r ≠ .d i) → e.pin r = s.env.pin r) ∧
      e.latch = s.env.latch ∧ e.mem = s.env.mem ∧ e.busy = s.env.busy ∧ e.suspect = s.env.suspect := by
  obtain ⟨e, hr, hfast, hslow, hp, -, h⟩ := reaches_setMode (d := d) k hc hi
  refine ⟨e, hr, fun i => ?_, hp, h⟩
  by_cases hf : s.dirv = true ∧ s.dir = d
  · have := hcoh hf.1 i
    rw [hf.2] at this
    rw [hfast hf, ← this]
  · exact hslow hf i

/-- SetOutputEnabled with its request acknowledged (R162): the state is cached; without the fast path the OE pin is at the
level of the state; nothing else is different. -/
theorem reaches_setOutputEnabled {s : State} {b : Bool} (k : List MicroOp) {rest : List Input}
    (hc : s.cfg.wf = true) (hi : s.inbox = acks (outputEnableCost s b) ++ rest) :
    ∃ e : Env,
      Reaches (resume (.setOutputEnabled b :: k) s)
        (resume k { s with
          oe := b, oev := true, issued := s.issued || decide (outputEnableCost s b ≠ 0), inbox := rest
          trace := s.trace ++ outputEnableEvents s b, env := e }) ∧
      (s.oev = true ∧ s.oe = b → e = s.env) ∧
      (¬(s.oev = true ∧ s.oe = b) → e.pin .oe = { s.env.pin .oe with level := some (outputEnableLevel b) }) ∧
      (∀ r, r ≠ .oe → e.pin r = s.env.pin r) ∧
      e.shift = s.env.shift ∧ e.latch = s.env.latch ∧ e.mem = s.env.mem ∧ e.busy = s.env.busy ∧
      e.suspect = s.env.suspect := by
  by_cases hf : s.oev = true ∧ s.oe = b
  · refine ⟨s.env, ?_, fun _ => rfl, fun h => absurd hf h, fun _ _ => rfl, rfl, rfl, rfl, rfl, rfl⟩
    rw [resume_setOutputEnabled_fast _ _ hf]
    refine Reaches.of_eq (congrArg _ ?_)
    simp only [outputEnableCost, if_pos hf, acks_zero, List.nil_append] at hi
    obtain ⟨h1, h2⟩ := hf
    cases s
    simp_all [outputEnableEvents, outputEnableCost]
  · simp only [outputEnableCost, if_neg hf] at hi
    have hw := Env.writePin_plain s.cfg s.env (r := .oe) (outputEnableLevel b) (by simp) (by simp)
    refine ⟨s.env.perform s.cfg (.digitalWrite (pinOf s.cfg .oe) (outputEnableLevel b)), ?_, fun h => absurd h hf,
      fun _ => ?_, ?_, ?_⟩
    · rw [resume_setOutputEnabled_full _ _ hf]
      refine (reaches_request (k := .outputEnableSet b :: k) (rest := rest) hi).trans ?_
      rw [resume_outputEnableSet]
      refine Reaches.of_eq (congrArg _ ?_)
      simp [State.acknowledged, outputEnableEvents, hf, outputEnableCost, dwEvent]
    · simp [Env.perform_digitalWrite hc, hw]
    · intro r hr
      simp [Env.perform_digitalWrite hc, hw, Ne.symm hr]
    · simp [Env.perform_digitalWrite hc, hw]

/-- SetOutputEnabled from an output-enable cache that describes the pin: the OE pin is at the level of the state. -/
theorem reaches_setOutputEnabled_coherent {s : State} {b : Bool} (k : List MicroOp) {rest : List Input}
    (hc : s.cfg.wf = true) (hi : s.inbox = acks (outputEnableCost s b) ++ rest)
    (hcoh : s.oev = true → (s.env.pin .oe).level = some (outputEnableLevel s.oe)) :
    ∃ e : Env,
      Reaches (resume (.setOutputEnabled b :: k) s)
        (resume k { s with
          oe := b, oev := true, issued := s.issued || decide (outputEnableCost s b ≠ 0), inbox := rest
          trace := s.trace ++ outputEnableEvents s b, env := e }) ∧
      e.pin .oe = { s.env.pin .oe with level := some (outputEnableLevel b) } ∧
      (∀ r, r ≠ .oe → e.pin r = s.env.pin r) ∧
      e.latch = s.env.latch ∧ e.mem = s.env.mem ∧ e.busy = s.env.busy ∧ e.suspect = s.env.suspect := by
  obtain ⟨e, hr, hfast, hslow, hp, -, h⟩ := reaches_setOutputEnabled (b := b) k hc hi
  refine ⟨e, hr, ?_, hp, h⟩
  by_cases hf : s.oev = true ∧ s.oe = b
  · have := hcoh hf.1
    rw [hf.2] at this
    rw [hfast hf, ← this]
  · exact hslow hf

/-- What makes the data lines carry the byte at an address: the latch holds the address, OE is driven low, WE idles high,
the data pins are inputs, no write cycle is in progress (R67, R69). -/
structure Env.Readable (e : Env) (a : Address) : Prop where
  latch : e.latch = some a
  outputEnable : e.pin .oe = ⟨some .output, some .low⟩
  writeEnable : (e.pin .we).level = some .high
  data : ∀ i : Fin 8, (e.pin (.d i)).mode = some .input
  notBusy : e.busy = none

theorem Env.Readable.drawn {e : Env} {a : Address} (h : e.Readable a) : e.drawn.Readable a :=
  ⟨h.latch, h.outputEnable, h.writeEnable, h.data, h.notBusy⟩

theorem Env.Readable.dataBit {cfg : Params} (hc : cfg.wf = true) {e : Env} {a : Address} (h : e.Readable a)
    (ha : a.toNat < cfg.capacity) (i : Fin 8) : e.dataBit cfg i = (e.byteAt a.toNat)[i] := by
  have hl := addressLines_of_lt hc h.latch ha
  simp [Env.dataBit, Env.outputEnableAt, h.outputEnable, h.data, h.notBusy, h.writeEnable, h.latch, hl]

/-- The environment after a run of acknowledged digital reads. -/
def Env.drawnTimes (e : Env) (n : Nat) : Env :=
  { e with draws := e.draws + n }

/-- Eight bits shifted in, most significant first, are the byte (R58, R180). -/
theorem accumulated (v : Byte) : ((((((((0 : Byte) <<< 1 ||| (BitVec.ofBool v[7]).setWidth 8) <<< 1 |||
    (BitVec.ofBool v[6]).setWidth 8) <<< 1 ||| (BitVec.ofBool v[5]).setWidth 8) <<< 1 |||
    (BitVec.ofBool v[4]).setWidth 8) <<< 1 ||| (BitVec.ofBool v[3]).setWidth 8) <<< 1 |||
    (BitVec.ofBool v[2]).setWidth 8) <<< 1 ||| (BitVec.ofBool v[1]).setWidth 8) <<< 1 |||
    (BitVec.ofBool v[0]).setWidth 8 = v := by
  revert v; decide

/-- The eight samples of ReadByte (R180): `RA` ends at the byte on the data lines. -/
theorem reaches_samples {s : State} {a : Address} (k : List MicroOp) {rest : List Input}
    (hc : s.cfg.wf = true) (ha : a.toNat < s.cfg.capacity) (hi : s.inbox = acks 8 ++ rest) (hr : s.env.Readable a) :
    Reaches (resume (.clearAccumulator :: .sample 7 :: .sample 6 :: .sample 5 :: .sample 4 :: .sample 3 :: .sample 2 ::
        .sample 1 :: .sample 0 :: k) s)
      (resume k { s with
        ra := s.env.byteAt a.toNat, issued := true, inbox := rest
        trace := s.trace ++ sampleEvents s.cfg (s.env.byteAt a.toNat), env := s.env.drawnTimes 8 }) := by
  have one : ∀ (t : State) (i : Fin 8) (k : List MicroOp) (l : List Input), t.cfg = s.cfg → t.env.Readable a →
      t.inbox = .reply false :: l →
      Reaches (resume (.sample i :: k) t) (resume k { t with
        ra := (t.ra <<< 1) ||| (BitVec.ofBool (t.env.byteAt a.toNat)[i]).setWidth 8, issued := true, inbox := l
        trace := t.trace ++ [drEvent s.cfg i (t.env.byteAt a.toNat)[i]], env := t.env.drawn }) := by
    intro t i k l hcfg hrt hit
    have hct : t.cfg.wf = true := by rw [hcfg]; exact hc
    have hb : t.env.answer t.cfg (.digitalRead (pinOf t.cfg (.d i))) = .bit (t.env.byteAt a.toNat)[i] := by
      rw [Env.answer_digitalRead hct, hrt.dataBit hct (by rw [hcfg]; exact ha)]
    refine (reaches_sample (k := k) hit hb).trans (Reaches.of_eq (congrArg _ ?_))
    simp [State.acknowledged, hb, drEvent, ← hcfg, Env.perform_digitalRead]
  rw [resume_clearAccumulator]
  refine Reaches.trans (one _ 7 _ _ rfl (by exact hr) (by exact hi)) ?_
  refine Reaches.trans (one _ 6 _ _ rfl (by exact hr.drawn) (by exact rfl)) ?_
  refine Reaches.trans (one _ 5 _ _ rfl (by exact hr.drawn.drawn) (by exact rfl)) ?_
  refine Reaches.trans (one _ 4 _ _ rfl (by exact hr.drawn.drawn.drawn) (by exact rfl)) ?_
  refine Reaches.trans (one _ 3 _ _ rfl (by exact hr.drawn.drawn.drawn.drawn) (by exact rfl)) ?_
  refine Reaches.trans (one _ 2 _ _ rfl (by exact hr.drawn.drawn.drawn.drawn.drawn) (by exact rfl)) ?_
  refine Reaches.trans (one _ 1 _ _ rfl (by exact hr.drawn.drawn.drawn.drawn.drawn.drawn) (by exact rfl)) ?_
  refine Reaches.trans (one _ 0 _ rest rfl (by exact hr.drawn.drawn.drawn.drawn.drawn.drawn.drawn) (by exact rfl)) ?_
  refine Reaches.of_eq (congrArg _ ?_)
  have hd : ∀ e : Env, e.drawn.byteAt a.toNat = e.byteAt a.toNat := fun _ => rfl
  have h8 : (List.finRange 8).reverse = [7, 6, 5, 4, 3, 2, 1, 0] := by decide
  simp only [hd, sampleEvents, h8, List.map_cons, List.map_nil, List.append_assoc, List.cons_append, List.nil_append]
  simp only [State.mk.injEq, true_and]
  exact ⟨accumulated (s.env.byteAt a.toNat), by simp [Env.drawn, Env.drawnTimes]⟩

/-- ReadByte with every request acknowledged (R180, R181): `RA` is the byte at the address; the address is latched, the
data pins are inputs, output is enabled, and no other pin, no level of a data pin, no byte and no cycle is different. -/
theorem reaches_readByte {s : State} {a : Address} (k : List MicroOp) {rest : List Input} (h : s.Operational)
    (ha : a.toNat < s.cfg.capacity) (hi : s.inbox = acks (readCost s a) ++ rest) (ht : SequencerTurn rest) :
    ∃ e : Env,
      Reaches (resume (readByteOps a ++ k) s)
        (resume k { s with
          ca := a, cav := true, dir := .input, dirv := true, oe := true, oev := true
          ra := s.env.byteAt a.toNat, issued := true, inbox := rest
          trace := s.trace ++ (addressEvents s a ++ modeEvents s .input ++ outputEnableEvents s true ++
            sampleEvents s.cfg (s.env.byteAt a.toNat))
          env := e }) ∧
      (∀ i, e.pin (.d i) = { s.env.pin (.d i) with mode := some .input }) ∧
      e.pin .oe = { s.env.pin .oe with level := some .low } ∧
      (∀ r, (∀ i, r ≠ .d i) → r ≠ .oe → e.pin r = s.env.pin r) ∧
      e.latch = some a ∧ e.mem = s.env.mem ∧ e.busy = s.env.busy ∧ e.suspect = s.env.suspect := by
  obtain ⟨hc, -, hcoh, hq⟩ := h
  rw [readCost, Nat.add_assoc, Nat.add_assoc, acks_add, acks_add, acks_add] at hi
  have ht8 : SequencerTurn (acks 8 ++ rest) := SequencerTurn.acks_append _ ht
  obtain ⟨e1, hr1, hl1, hp1, hm1, hb1, hs1⟩ := reaches_setAddress_coherent
    (.setMode .input :: .setOutputEnabled true :: .clearAccumulator :: .sample 7 :: .sample 6 :: .sample 5 ::
      .sample 4 :: .sample 3 :: .sample 2 :: .sample 1 :: .sample 0 :: k) hc hi
    (SequencerTurn.acks_append _ (SequencerTurn.acks_append _ ht8)) hq.latchLow hcoh.address
  obtain ⟨e2, hr2, hd2, hp2, hl2, hm2, hb2, hs2⟩ := reaches_setMode_coherent (d := .input)
    (s := { s with
      ca := a, cav := true, issued := s.issued || decide (addressCost s a ≠ 0)
      inbox := acks (modeCost s .input) ++ (acks (outputEnableCost s true) ++ (acks 8 ++ rest))
      trace := s.trace ++ addressEvents s a, env := e1 })
    (.setOutputEnabled true :: .clearAccumulator :: .sample 7 :: .sample 6 :: .sample 5 ::
      .sample 4 :: .sample 3 :: .sample 2 :: .sample 1 :: .sample 0 :: k) hc rfl
    (fun hv i => by simpa [hp1] using hcoh.direction hv i)
  obtain ⟨e3, hr3, ho3, hp3, hl3, hm3, hb3, hs3⟩ := reaches_setOutputEnabled_coherent (b := true)
    (s := { s with
      ca := a, cav := true, dir := .input, dirv := true
      issued := (s.issued || decide (addressCost s a ≠ 0)) || decide (modeCost s .input ≠ 0)
      inbox := acks (outputEnableCost s true) ++ (acks 8 ++ rest)
      trace := (s.trace ++ addressEvents s a) ++ modeEvents s .input, env := e2 })
    (.clearAccumulator :: .sample 7 :: .sample 6 :: .sample 5 ::
      .sample 4 :: .sample 3 :: .sample 2 :: .sample 1 :: .sample 0 :: k) hc rfl
    (fun hv => by simpa [hp2, hp1] using hcoh.outputEnable hv)
  have hoe : e3.pin .oe = { s.env.pin .oe with level := some .low } := by
    simp [ho3, hp2, hp1, outputEnableLevel]
  have hdata : ∀ i, e3.pin (.d i) = { s.env.pin (.d i) with mode := some .input } := by
    intro i
    simp [hp3, hd2, hp1]
  have hother : ∀ r, (∀ i, r ≠ .d i) → r ≠ .oe → e3.pin r = s.env.pin r := by
    intro r h1 h2
    rw [hp3 r h2, hp2 r h1, hp1]
  have hmem : e3.mem = s.env.mem := by rw [hm3, hm2, hm1]
  have hread : e3.Readable a := by
    refine ⟨by rw [hl3, hl2, hl1], ?_, ?_, ?_, by rw [hb3, hb2, hb1]; exact hq.notBusy⟩
    · rw [hoe]
      simp [hq.outputEnableDriven]
    · rw [hother _ (by simp) (by simp)]
      exact hq.writeEnableHigh
    · intro i
      rw [hdata]
  have hbyte : e3.byteAt a.toNat = s.env.byteAt a.toNat := by rw [Env.byteAt, Env.byteAt, hmem]
  have hr4 := reaches_samples
    (s := { s with
      ca := a, cav := true, dir := .input, dirv := true, oe := true, oev := true
      issued := ((s.issued || decide (addressCost s a ≠ 0)) || decide (modeCost s .input ≠ 0)) ||
        decide (outputEnableCost s true ≠ 0)
      inbox := acks 8 ++ rest
      trace := ((s.trace ++ addressEvents s a) ++ modeEvents s .input) ++ outputEnableEvents s true, env := e3 })
    k hc ha rfl hread
  refine ⟨e3.drawnTimes 8, hr1.trans (hr2.trans (hr3.trans (hr4.trans (Reaches.of_eq ?_)))), hdata, hoe, hother, hread.latch, hmem, ?_, ?_⟩
  · simp only [hbyte, List.append_assoc]
  · change e3.busy = _
    rw [hb3, hb2, hb1]
  · change e3.suspect = _
    rw [hs3, hs2, hs1]

/-- The environment after acknowledged `DW`s of data pins to the bits of a byte. -/
def Env.drives (e : Env) (v : Byte) (is : List (Fin 8)) : Env :=
  is.foldl (fun e i => (e.setLevel (.d i) (some (if v[i] then .high else .low))).drawn) e

theorem Env.pin_drives_data (e : Env) (v : Byte) (is : List (Fin 8)) (i : Fin 8) :
    (e.drives v is).pin (.d i) =
      if i ∈ is then { e.pin (.d i) with level := some (if v[i] then .high else .low) } else e.pin (.d i) := by
  induction is generalizing e with
  | nil => simp [Env.drives]
  | cons j is ih =>
    simp only [Env.drives, List.foldl_cons] at ih ⊢
    rw [ih]
    by_cases h1 : j = i
    · subst h1; simp
    · have h2 : ¬ i = j := fun h => h1 h.symm
      simp [h1, h2]

theorem Env.pin_drives_other (e : Env) (v : Byte) (is : List (Fin 8)) {r : Role} (hr : ∀ i, r ≠ .d i) :
    (e.drives v is).pin r = e.pin r := by
  induction is generalizing e with
  | nil => simp [Env.drives]
  | cons j is ih =>
    simp only [Env.drives, List.foldl_cons] at ih ⊢
    rw [ih]
    have := Ne.symm (hr j)
    simp [this]

theorem Env.drives_rest (e : Env) (v : Byte) (is : List (Fin 8)) :
    (e.drives v is).shift = e.shift ∧ (e.drives v is).latch = e.latch ∧ (e.drives v is).mem = e.mem ∧
      (e.drives v is).busy = e.busy ∧ (e.drives v is).suspect = e.suspect := by
  induction is generalizing e with
  | nil => simp [Env.drives]
  | cons j is ih =>
    simp only [Env.drives, List.foldl_cons] at ih ⊢
    simpa using ih (e := (e.setLevel (.d j) (some (if v[j] then .high else .low))).drawn)

theorem ushiftRight_bit (v : Byte) (i : Fin 8) : (v >>> i.val)[0] = v[i] := by
  revert v i; decide

/-- Step 5 of WriteByte (R182): the data pins are driven to the bits of the value, D0 first. -/
theorem reaches_drives {s : State} {v : Byte} (k : List MicroOp) {rest : List Input}
    (hc : s.cfg.wf = true) (hi : s.inbox = acks 8 ++ rest) :
    Reaches (resume (.captureValue v :: .driveBit 0 :: .driveBit 1 :: .driveBit 2 :: .driveBit 3 :: .driveBit 4 ::
        .driveBit 5 :: .driveBit 6 :: .driveBit 7 :: k) s)
      (resume k { s with
        em := v[7], wv := v >>> 8, issued := true, inbox := rest
        trace := s.trace ++ (List.finRange 8).map fun i => dwEvent s.cfg (.d i) (if v[i] then .high else .low)
        env := s.env.drives v (List.finRange 8) }) := by
  have one : ∀ (t : State) (i : Fin 8) (k : List MicroOp) (l : List Input), t.cfg = s.cfg → t.wv = v >>> i.val →
      t.inbox = .reply false :: l →
      Reaches (resume (.driveBit i :: k) t) (resume k { t with
        wv := v >>> (i.val + 1), issued := true, inbox := l
        trace := t.trace ++ [dwEvent s.cfg (.d i) (if v[i] then .high else .low)]
        env := (t.env.setLevel (.d i) (some (if v[i] then .high else .low))).drawn }) := by
    intro t i k l hcfg hwv hit
    have hct : t.cfg.wf = true := by rw [hcfg]; exact hc
    have h0 : t.wv[0] = v[i] := by rw [hwv, ushiftRight_bit]
    rw [resume_driveBit, h0]
    have := reaches_request (s := t) (r := .digitalWrite (pinOf t.cfg (.d i)) (if v[i] then .high else .low))
      (k := .shiftValue :: k) hit
    rw [resume_request] at this
    refine this.trans ?_
    rw [resume_shiftValue]
    refine Reaches.of_eq (congrArg _ ?_)
    rw [State.acknowledged, Env.perform_digitalWrite hct, Env.writePin_plain _ _ _ (by simp) (by simp), ← hcfg, hwv,
      BitVec.shiftRight_add]
    rfl
  rw [resume_captureValue]
  refine Reaches.trans (one _ 0 _ _ rfl (by simp) (by exact hi)) ?_
  refine Reaches.trans (one _ 1 _ _ rfl rfl rfl) ?_
  refine Reaches.trans (one _ 2 _ _ rfl rfl rfl) ?_
  refine Reaches.trans (one _ 3 _ _ rfl rfl rfl) ?_
  refine Reaches.trans (one _ 4 _ _ rfl rfl rfl) ?_
  refine Reaches.trans (one _ 5 _ _ rfl rfl rfl) ?_
  refine Reaches.trans (one _ 6 _ _ rfl rfl rfl) ?_
  refine Reaches.trans (one _ 7 _ rest rfl rfl rfl) ?_
  refine Reaches.of_eq (congrArg _ ?_)
  have h8 : List.finRange 8 = [0, 1, 2, 3, 4, 5, 6, 7] := by decide
  simp only [h8, List.map_cons, List.map_nil, List.append_assoc, List.cons_append, List.nil_append, Env.drives,
    List.foldl_cons, List.foldl_nil]
  rfl

/-- A write pulse that starts a write cycle (R68): OE is driven high, the address is latched, no cycle is in progress and
the data pins drive the value. -/
theorem Env.writePulse_cycle {cfg : Params} (hc : cfg.wf = true) {e : Env} {a : Address} {v : Byte}
    (hl : e.latch = some a) (ha : a.toNat < cfg.capacity) (ho : e.pin .oe = ⟨some .output, some .high⟩)
    (hb : e.busy = none)
    (hd : ∀ i : Fin 8, e.pin (.d i) = ⟨some .output, some (if v[i] then .high else .low)⟩) :
    e.writePulse cfg = { e with busy := some ⟨a.toNat, v⟩, suspect := none } := by
  have hbit : ∀ i, e.drivenBit i = some v[i] := by
    intro i
    simp only [Env.drivenBit, hd]
    cases v[i] <;> rfl
  have hbyte : e.drivenByte = some v := by
    have hall : ((List.finRange 8).all fun i => (e.drivenBit i).isSome) = true := by simp [hbit]
    rw [Env.drivenByte, if_pos hall]
    simp only [hbit, Option.getD_some]
    rw [byteOfBits_bits]
  have hoe : e.outputEnableAt Level.high = true := by simp [Env.outputEnableAt, ho]
  simp [Env.writePulse, hb, hoe, hbyte, addressLines_of_lt hc hl ha]

/-- Step 6 of WriteByte (R182, R68): the write pulse starts the write cycle. -/
theorem reaches_writePulse {s : State} {a : Address} {v : Byte} (k : List MicroOp) {rest : List Input}
    (hc : s.cfg.wf = true) (ha : a.toNat < s.cfg.capacity) (hi : s.inbox = acks 2 ++ rest)
    (hl : s.env.latch = some a) (ho : s.env.pin .oe = ⟨some .output, some .high⟩) (hb : s.env.busy = none)
    (hd : ∀ i : Fin 8, s.env.pin (.d i) = ⟨some .output, some (if v[i] then .high else .low)⟩) :
    ∃ e : Env,
      Reaches (resume (digitalWriteOp s.cfg .we .low :: (optionalDelay .ns s.cfg.tWeNs ++
          (digitalWriteOp s.cfg .we .high :: k))) s)
        (resume k { s with
          issued := true, inbox := rest
          trace := s.trace ++ ([dwEvent s.cfg .we .low] ++ optionalDelayEvent s.cfg .ns s.cfg.tWeNs ++
            [dwEvent s.cfg .we .high])
          env := e }) ∧
      e.pin .we = { s.env.pin .we with level := some .high } ∧ (∀ r, r ≠ .we → e.pin r = s.env.pin r) ∧
      e.latch = some a ∧ e.mem = s.env.mem ∧ e.busy = some ⟨a.toNat, v⟩ ∧ e.suspect = none := by
  have hw := Env.perform_digitalWrite hc
  have hp : ((s.env.setLevel .we (some .low)).drawn).writePulse s.cfg =
      { (s.env.setLevel .we (some .low)).drawn with busy := some ⟨a.toNat, v⟩, suspect := none } :=
    Env.writePulse_cycle hc (by simpa using hl) ha (by simpa using ho) (by simpa using hb) (fun i => by simpa using hd i)
  have hperf : (s.env.perform s.cfg (.digitalWrite (pinOf s.cfg .we) .low)).perform s.cfg
      (.digitalWrite (pinOf s.cfg .we) .high) =
      (({ (s.env.setLevel .we (some .low)).drawn with busy := some ⟨a.toNat, v⟩, suspect := none } : Env).setLevel .we
        (some .high)).drawn := by
    rw [hw, hw, Env.writePin_low]
    simp only [Env.writePin]
    rw [if_pos (by simp), hp]
  refine ⟨(s.env.perform s.cfg (.digitalWrite (pinOf s.cfg .we) .low)).perform s.cfg
      (.digitalWrite (pinOf s.cfg .we) .high), ?_, ?_, ?_, ?_, ?_, ?_, ?_⟩
  · refine (reaches_request (rest := .reply false :: rest) hi).trans ?_
    refine (reaches_optionalDelay (SequencerTurn.reply _ _)).trans ?_
    refine (reaches_request (rest := rest) rfl).trans (Reaches.of_eq (congrArg _ ?_))
    simp [State.acknowledged, dwEvent]
  · rw [hperf]; simp
  · intro r hr
    rw [hperf]; simp [Ne.symm hr]
  · rw [hperf]; simpa using hl
  · rw [hperf]; simp
  · rw [hperf]; simp
  · rw [hperf]; simp

/-- A polling read while a cycle is in progress returns the complement of bit 7 of its value (R69). -/
theorem Env.dataBit_busy {cfg : Params} {e : Env} {c : WriteCycle} (ho : e.pin .oe = ⟨some .output, some .low⟩)
    (hd : (e.pin (.d 7)).mode = some .input) (hb : e.busy = some c) : e.dataBit cfg 7 = !c.data[7] := by
  simp [Env.dataBit, Env.outputEnableAt, ho, hd, hb]

/-- Polling reads that miss: the device is busy, the limit is not reached (R184, R185). -/
theorem reaches_pollMisses {s : State} {c : WriteCycle} (k : List MicroOp) (n : Nat) {rest : List Input}
    (hc : s.cfg.wf = true) (hi : s.inbox = acks n ++ rest) (ho : s.env.pin .oe = ⟨some .output, some .low⟩)
    (hd : (s.env.pin (.d 7)).mode = some .input) (hb : s.env.busy = some c) (hem : s.em = c.data[7])
    (hlim : ∀ m, s.cfg.pollLimit = some m → s.pcnt + n < m) :
    Reaches (resume (.pollRead :: k) s)
      (resume (.pollRead :: k) { s with
        pcnt := s.pcnt + n, issued := s.issued || decide (n ≠ 0), inbox := rest
        trace := s.trace ++ (List.replicate n (!s.em)).map (drEvent s.cfg 7), env := s.env.drawnTimes n }) := by
  induction n generalizing s with
  | zero =>
    refine Reaches.of_eq (congrArg _ ?_)
    clear hb ho hd hem hlim
    cases s
    simp_all [Env.drawnTimes]
  | succ n ih =>
    rw [acks_succ] at hi
    have hbit : s.env.answer s.cfg (.digitalRead (pinOf s.cfg (.d 7))) = .bit (!s.em) := by
      rw [Env.answer_digitalRead hc, Env.dataBit_busy ho hd hb, hem]
    have h1 := step_pollRead_ack (s := { s with ms := .pollRead :: k }) (k := k) rfl hi hbit
    rw [if_neg (by simp), if_neg (fun h => by have := hlim _ h; simp at this)] at h1
    rw [resume_pollRead]
    refine (Reaches.single h1).trans ?_
    have h2 := ih (s := { s.acknowledged (.digitalRead (pinOf s.cfg (.d 7))) (acks n ++ rest) with
      pcnt := s.pcnt + 1 }) hc rfl ho hd hb hem (fun m hm => by have := hlim m hm; simp only; omega)
    rw [resume_pollRead] at h2
    refine h2.trans (Reaches.of_eq (congrArg _ ?_))
    simp [State.acknowledged, drEvent, hbit, Env.perform_digitalRead, Env.drawn, Env.drawnTimes, List.replicate_succ,
      Nat.add_comm, Nat.add_left_comm]

/-- The environment's completion step (R70), whatever the sequencer waits for. -/
theorem step_complete {s : State} {rest : List Input} (hi : s.inbox = .complete :: rest) :
    step s = .next { s with inbox := rest, env := s.env.completeCycle } := by
  unfold step; rw [hi]

/-- A polling read that matches and the restore of D7 (R184 P3). -/
theorem reaches_pollMatch {s : State} {a : Address} (k : List MicroOp) {rest : List Input}
    (hc : s.cfg.wf = true) (ha : a.toNat < s.cfg.capacity) (hi : s.inbox = acks 2 ++ rest)
    (hl : s.env.latch = some a) (ho : s.env.pin .oe = ⟨some .output, some .low⟩)
    (hw : (s.env.pin .we).level = some .high) (hd : (s.env.pin (.d 7)).mode = some .input) (hb : s.env.busy = none)
    (hem : s.em = (s.env.byteAt a.toNat)[7]) :
    Reaches (resume (.pollRead :: k) s)
      (resume k { s with
        pcnt := s.pcnt + 1, issued := true, inbox := rest
        trace := s.trace ++ [drEvent s.cfg 7 s.em, spmEvent s.cfg (.d 7) .output]
        env := ((s.env.drawn).setMode (.d 7) (some .output)).drawn }) := by
  have hal := addressLines_of_lt hc hl ha
  have hbit : s.env.answer s.cfg (.digitalRead (pinOf s.cfg (.d 7))) = .bit s.em := by
    rw [Env.answer_digitalRead hc, hem]
    simp [Env.dataBit, Env.outputEnableAt, ho, hd, hb, hw, hl, hal]
  have h1 := step_pollRead_ack (s := { s with ms := .pollRead :: k }) (k := k) (rest := .reply false :: rest) rfl hi hbit
  rw [if_pos rfl] at h1
  rw [resume_pollRead]
  refine (Reaches.single h1).trans ((reaches_restoreBit7 (rest := rest) rfl).trans (Reaches.of_eq ?_))
  refine (congrArg (resume k) ?_ : resume k _ = resume k { (_ : State) with ms := .pollRead :: k }).trans
    (resume_ms k _ (.pollRead :: k))
  simp [State.acknowledged, hbit, drEvent, spmEvent, Env.perform_digitalRead, Env.perform_setPinMode hc]

/-- WriteByte up to its polling loop, with every request acknowledged (R182, R184 P0 to P1): the write cycle is in
progress, D7 is an input, output is enabled. -/
theorem reaches_writeByte_polling {s : State} {a : Address} {v : Byte} (k : List MicroOp) {rest : List Input}
    (h : s.Operational) (ha : a.toNat < s.cfg.capacity) (hi : s.inbox = acks (writeCost s a) ++ rest) :
    ∃ e : Env,
      Reaches (resume (writeByteOps s.cfg a v ++ k) s)
        (resume (.pollRead :: k) { s with
          ca := a, cav := true, dir := .output, dirv := true, oe := true, oev := true
          em := v[7], wv := v >>> 8, pcnt := 0, issued := true, inbox := rest
          trace := s.trace ++ (addressEvents s a ++ outputEnableEvents s false ++ modeEvents s .output ++
            driveEvents s.cfg v ++ [spmEvent s.cfg (.d 7) .input, dwEvent s.cfg .oe .low])
          env := e }) ∧
      (∀ i, e.pin (.d i) = ⟨some (if i = 7 then .input else .output), some (if v[i] then .high else .low)⟩) ∧
      e.pin .oe = ⟨some .output, some .low⟩ ∧
      (∀ r, (∀ i, r ≠ .d i) → r ≠ .oe → e.pin r = s.env.pin r) ∧
      e.latch = some a ∧ e.mem = s.env.mem ∧ e.busy = some ⟨a.toNat, v⟩ ∧ e.suspect = none := by
  obtain ⟨hc, -, hcoh, hq⟩ := h
  have hi' : s.inbox = acks (addressCost s a) ++ (acks (outputEnableCost s false) ++ (acks (modeCost s .output) ++
      (acks 8 ++ (acks 2 ++ (.reply false :: .reply false :: rest))))) := by
    rw [hi, writeCost, acks_add, acks_add, acks_add]; rfl
  have ht2 : SequencerTurn (acks 2 ++ (.reply false :: .reply false :: rest)) := SequencerTurn.reply _ _
  have ht8 : SequencerTurn (acks 8 ++ (acks 2 ++ (.reply false :: .reply false :: rest))) :=
    SequencerTurn.acks_append _ ht2
  obtain ⟨e1, hr1, hl1, hp1, hm1, hb1, -⟩ := reaches_setAddress_coherent
    (.setOutputEnabled false :: .setMode .output :: .captureValue v :: .driveBit 0 :: .driveBit 1 :: .driveBit 2 ::
      .driveBit 3 :: .driveBit 4 :: .driveBit 5 :: .driveBit 6 :: .driveBit 7 :: digitalWriteOp s.cfg .we .low ::
      (optionalDelay .ns s.cfg.tWeNs ++ (digitalWriteOp s.cfg .we .high :: (pollOps s.cfg ++ k)))) hc hi'
    (SequencerTurn.acks_append _ (SequencerTurn.acks_append _ ht8)) hq.latchLow hcoh.address
  obtain ⟨e2, hr2, ho2, hp2, hl2, hm2, hb2, -⟩ := reaches_setOutputEnabled_coherent (b := false)
    (s := { s with
      ca := a, cav := true, issued := s.issued || decide (addressCost s a ≠ 0)
      inbox := acks (outputEnableCost s false) ++ (acks (modeCost s .output) ++
        (acks 8 ++ (acks 2 ++ (.reply false :: .reply false :: rest))))
      trace := s.trace ++ addressEvents s a, env := e1 })
    (.setMode .output :: .captureValue v :: .driveBit 0 :: .driveBit 1 :: .driveBit 2 ::
      .driveBit 3 :: .driveBit 4 :: .driveBit 5 :: .driveBit 6 :: .driveBit 7 :: digitalWriteOp s.cfg .we .low ::
      (optionalDelay .ns s.cfg.tWeNs ++ (digitalWriteOp s.cfg .we .high :: (pollOps s.cfg ++ k)))) hc rfl
    (fun hv => by simpa [hp1] using hcoh.outputEnable hv)
  obtain ⟨e3, hr3, hd3, hp3, hl3, hm3, hb3, -⟩ := reaches_setMode_coherent (d := .output)
    (s := { s with
      ca := a, cav := true, oe := false, oev := true
      issued := (s.issued || decide (addressCost s a ≠ 0)) || decide (outputEnableCost s false ≠ 0)
      inbox := acks (modeCost s .output) ++ (acks 8 ++ (acks 2 ++ (.reply false :: .reply false :: rest)))
      trace := (s.trace ++ addressEvents s a) ++ outputEnableEvents s false, env := e2 })
    (.captureValue v :: .driveBit 0 :: .driveBit 1 :: .driveBit 2 ::
      .driveBit 3 :: .driveBit 4 :: .driveBit 5 :: .driveBit 6 :: .driveBit 7 :: digitalWriteOp s.cfg .we .low ::
      (optionalDelay .ns s.cfg.tWeNs ++ (digitalWriteOp s.cfg .we .high :: (pollOps s.cfg ++ k)))) hc rfl
    (fun hv i => by simpa [hp2, hp1] using hcoh.direction hv i)
  have hr4 := reaches_drives (v := v)
    (s := { s with
      ca := a, cav := true, dir := .output, dirv := true, oe := false, oev := true
      issued := ((s.issued || decide (addressCost s a ≠ 0)) || decide (outputEnableCost s false ≠ 0)) ||
        decide (modeCost s .output ≠ 0)
      inbox := acks 8 ++ (acks 2 ++ (.reply false :: .reply false :: rest))
      trace := ((s.trace ++ addressEvents s a) ++ outputEnableEvents s false) ++ modeEvents s .output, env := e3 })
    (digitalWriteOp s.cfg .we .low ::
      (optionalDelay .ns s.cfg.tWeNs ++ (digitalWriteOp s.cfg .we .high :: (pollOps s.cfg ++ k)))) hc rfl
  obtain ⟨-, hl4, hm4, hb4, -⟩ := Env.drives_rest e3 v (List.finRange 8)
  have hd4 : ∀ i : Fin 8, (e3.drives v (List.finRange 8)).pin (.d i) =
      ⟨some .output, some (if v[i] then .high else .low)⟩ := by
    intro i
    rw [Env.pin_drives_data, if_pos (List.mem_finRange i), hd3]
  have hp4 : ∀ r, (∀ i, r ≠ .d i) → (e3.drives v (List.finRange 8)).pin r = e2.pin r := by
    intro r h1
    rw [Env.pin_drives_other _ _ _ h1, hp3 r h1]
  obtain ⟨e5, hr5, hw5, hp5, hl5, hm5, hb5, hs5⟩ := reaches_writePulse (a := a) (v := v)
    (s := { s with
      ca := a, cav := true, dir := .output, dirv := true, oe := false, oev := true, em := v[7], wv := v >>> 8
      issued := true, inbox := acks 2 ++ (.reply false :: .reply false :: rest)
      trace := (((s.trace ++ addressEvents s a) ++ outputEnableEvents s false) ++ modeEvents s .output) ++
        (List.finRange 8).map fun i => dwEvent s.cfg (.d i) (if v[i] then .high else .low)
      env := e3.drives v (List.finRange 8) })
    (pollOps s.cfg ++ k) hc ha rfl (by simp [hl4, hl3, hl2, hl1])
    (by simp [hp4, ho2, hp1, hq.outputEnableDriven, outputEnableLevel])
    (by simp [hb4, hb3, hb2, hb1, hq.notBusy]) hd4
  refine ⟨(((e5.setMode (.d 7) (some .input)).drawn).setLevel .oe (some .low)).drawn, ?_, ?_, ?_, ?_, ?_⟩
  · refine Reaches.trans (Reaches.of_eq ?_) (hr1.trans (hr2.trans (hr3.trans (hr4.trans (hr5.trans ?_)))))
    · simp only [writeByteOps, List.append_assoc, List.cons_append, List.nil_append]
    · refine (reaches_request (k := .setOutputEnabled true :: .clearPollCount :: .pollRead :: k)
        (rest := .reply false :: rest) rfl).trans ?_
      rw [resume_setOutputEnabled_full _ _ (by simp)]
      refine (reaches_request (k := .outputEnableSet true :: .clearPollCount :: .pollRead :: k) (rest := rest) rfl).trans ?_
      rw [resume_outputEnableSet, resume_clearPollCount]
      refine Reaches.of_eq (congrArg _ ?_)
      have hplain := Env.writePin_plain s.cfg (e5.setMode (.d 7) (some .input)).drawn (r := .oe) .low (by simp) (by simp)
      simp [State.acknowledged, dwEvent, spmEvent, driveEvents, outputEnableLevel, Env.perform_setPinMode hc,
        Env.perform_digitalWrite hc, hplain]
  · intro i
    have := hp5 (.d i) (by simp)
    by_cases h7 : i = 7
    · subst h7; simp [this, hd4]
    · have h7' : ¬ (7 : Fin 8) = i := fun h => h7 h.symm
      simp [h7, h7', this, hd4]
  · simp [hp5, hp4, ho2, hp1, hq.outputEnableDriven]
  · intro r h1 h2
    have h7 := Ne.symm (h1 7)
    by_cases h3 : r = .we
    · subst h3
      have := hq.writeEnableHigh
      simp [hw5, hp4, hp2, hp1, ← this]
    · simp [h7, Ne.symm h2, hp5 r h3, hp4 r h1, hp2 r h2, hp1]
  · simp [hl5, hm5, hm4, hm3, hm2, hm1, hb5, hs5]

/-- WriteByte with every request acknowledged (R182 to R185), the write cycle completing after `misses` polling reads: the
byte is stored at the address and nowhere else, the data pins drive it, and output stays enabled (R187). -/
theorem reaches_writeByte {s : State} {a : Address} {v : Byte} (k : List MicroOp) {misses : Nat} {rest : List Input}
    (h : s.Operational) (ha : a.toNat < s.cfg.capacity)
    (hi : s.inbox = writeInputs (writeCost s a) misses ++ rest)
    (hlim : ∀ m, s.cfg.pollLimit = some m → misses < m) :
    ∃ e : Env,
      Reaches (resume (writeByteOps s.cfg a v ++ k) s)
        (resume k { s with
          ca := a, cav := true, dir := .output, dirv := true, oe := true, oev := true
          em := v[7], wv := v >>> 8, pcnt := misses + 1, issued := true, inbox := rest
          trace := s.trace ++ (addressEvents s a ++ outputEnableEvents s false ++ modeEvents s .output ++
            driveEvents s.cfg v ++ pollEvents s.cfg (List.replicate misses (!v[7]) ++ [v[7]]))
          env := e }) ∧
      (∀ i, e.pin (.d i) = ⟨some .output, some (if v[i] then .high else .low)⟩) ∧
      e.pin .oe = ⟨some .output, some .low⟩ ∧
      (∀ r, (∀ i, r ≠ .d i) → r ≠ .oe → e.pin r = s.env.pin r) ∧
      e.latch = some a ∧ e.mem = Memory.write s.env.mem a.toNat v ∧ e.busy = none ∧ e.suspect = none := by
  have hi' : s.inbox = acks (writeCost s a) ++ (acks misses ++ (.complete :: (acks 2 ++ rest))) := by
    simp only [hi, writeInputs, acks_add, List.append_assoc, List.cons_append, List.nil_append]
  obtain ⟨e, hr, hd, ho, hp, hl, hm, hb, hs⟩ := reaches_writeByte_polling (v := v) k h ha hi'
  have hc := h.config
  have hr2 := reaches_pollMisses (c := ⟨a.toNat, v⟩)
    (s := { s with
      ca := a, cav := true, dir := .output, dirv := true, oe := true, oev := true
      em := v[7], wv := v >>> 8, pcnt := 0, issued := true, inbox := acks misses ++ (.complete :: (acks 2 ++ rest))
      trace := s.trace ++ (addressEvents s a ++ outputEnableEvents s false ++ modeEvents s .output ++
        driveEvents s.cfg v ++ [spmEvent s.cfg (.d 7) .input, dwEvent s.cfg .oe .low])
      env := e }) k misses hc rfl ho (by simp [hd]) hb rfl (fun m hm => by simpa using hlim m hm)
  have hr4 := reaches_pollMatch (a := a)
    (s := { s with
      ca := a, cav := true, dir := .output, dirv := true, oe := true, oev := true
      em := v[7], wv := v >>> 8, pcnt := misses, issued := true, inbox := acks 2 ++ rest
      trace := (s.trace ++ (addressEvents s a ++ outputEnableEvents s false ++ modeEvents s .output ++
        driveEvents s.cfg v ++ [spmEvent s.cfg (.d 7) .input, dwEvent s.cfg .oe .low])) ++
        (List.replicate misses (!v[7])).map (drEvent s.cfg 7)
      env := (e.drawnTimes misses).completeCycle }) k hc ha rfl
    (by simp [Env.completeCycle, Env.drawnTimes, hb, hl])
    (by simp [Env.completeCycle, Env.drawnTimes, hb, ho])
    (by
      have := h.quiescent.writeEnableHigh
      simp [Env.completeCycle, Env.drawnTimes, hb, hp, this])
    (by simp [Env.completeCycle, Env.drawnTimes, hb, hd])
    (by simp [Env.completeCycle, Env.drawnTimes, hb])
    (by simp [Env.completeCycle, Env.drawnTimes, hb, Env.byteAt])
  refine ⟨(((e.drawnTimes misses).completeCycle.drawn).setMode (.d 7) (some .output)).drawn, ?_, ?_, ?_, ?_, ?_⟩
  · refine hr.trans (hr2.trans (Reaches.trans ?_ (hr4.trans (Reaches.of_eq (congrArg _ ?_)))))
    · rw [resume_pollRead, resume_pollRead]
      refine Reaches.single ((step_complete (rest := acks 2 ++ rest) rfl).trans ?_)
      simp
    · simp [pollEvents]
  · intro i
    by_cases h7 : i = 7
    · subst h7; simp [Env.completeCycle, Env.drawnTimes, hb, hd]
    · have h7' : ¬ (7 : Fin 8) = i := fun h => h7 h.symm
      simp [Env.completeCycle, Env.drawnTimes, hb, hd, h7, h7']
  · simp [Env.completeCycle, Env.drawnTimes, hb, ho]
  · intro r h1 h2
    have h7 := Ne.symm (h1 7)
    simp [Env.completeCycle, Env.drawnTimes, hb, h7, hp r h1 h2]
  · simp [Env.completeCycle, Env.drawnTimes, hb, hl, hm, hs]

/-- The device when WE is driven high: a write pulse if WE was low, nothing otherwise (R68). -/
def Env.writeEnableRaised (cfg : Params) (e : Env) : Env :=
  if (e.pin .we).level = some Level.low then e.writePulse cfg else e

/-- A write pulse moves no pin and not the address lines (R68, R71). -/
theorem Env.writePulse_pins (cfg : Params) (e : Env) :
    (e.writePulse cfg).pins = e.pins ∧ (e.writePulse cfg).latch = e.latch := by
  unfold Env.writePulse Env.disturbed
  split
  · exact ⟨rfl, rfl⟩
  · split
    · exact ⟨rfl, rfl⟩
    · split <;> exact ⟨rfl, rfl⟩

@[simp] theorem Env.pin_writePulse (cfg : Params) (e : Env) (r : Role) : (e.writePulse cfg).pin r = e.pin r := by
  rw [Env.pin, Env.pin, (e.writePulse_pins cfg).1]

@[simp] theorem Env.latch_writePulse (cfg : Params) (e : Env) : (e.writePulse cfg).latch = e.latch :=
  (e.writePulse_pins cfg).2

@[simp] theorem Env.pin_writeEnableRaised (cfg : Params) (e : Env) (r : Role) :
    (e.writeEnableRaised cfg).pin r = e.pin r := by
  unfold Env.writeEnableRaised; split <;> simp

@[simp] theorem Env.latch_writeEnableRaised (cfg : Params) (e : Env) : (e.writeEnableRaised cfg).latch = e.latch := by
  unfold Env.writeEnableRaised; split <;> simp

theorem Env.writePin_we_high (cfg : Params) (e : Env) :
    e.writePin cfg .we .high = (e.writeEnableRaised cfg).setLevel .we (some .high) := rfl

/-- Setup with every request acknowledged, from any pins (R250): WE idle high and driven, output disabled and OE driven,
the latch clock low and driven, the shift pins driven, the data pins inputs; the address on the address lines stays. -/
theorem reaches_setup {s : State} (k : List MicroOp) {rest : List Input} (hc : s.cfg.wf = true)
    (hi : s.inbox = acks 16 ++ rest) :
    ∃ e : Env,
      Reaches (resume (.setup :: k) s)
        (resume k { s with
          lc := .ready, cav := false, dir := .input, dirv := true, oe := false, oev := true
          issued := true, inbox := rest, trace := s.trace ++ setupEvents s.cfg, env := e }) ∧
      e.pin .we = ⟨some .output, some .high⟩ ∧ e.pin .oe = ⟨some .output, some .high⟩ ∧
      e.pin .latch = ⟨some .output, some .low⟩ ∧ e.pin .sd = { s.env.pin .sd with mode := some .output } ∧
      e.pin .sc = { s.env.pin .sc with mode := some .output } ∧
      (∀ i, e.pin (.d i) = { s.env.pin (.d i) with mode := some .input }) ∧
      e.shift = (s.env.writeEnableRaised s.cfg).shift ∧ e.latch = s.env.latch ∧
      e.mem = (s.env.writeEnableRaised s.cfg).mem ∧
      e.busy = (s.env.writeEnableRaised s.cfg).busy ∧ e.suspect = (s.env.writeEnableRaised s.cfg).suspect := by
  have hw := Env.perform_digitalWrite hc
  have hm := Env.perform_setPinMode hc
  have hoe : ∀ e : Env, e.writePin s.cfg .oe .high = e.setLevel .oe (some .high) := fun _ => rfl
  obtain ⟨n1, n2, n3, n4, n5⟩ := Env.setModes_rest
    ((((((((((((((((s.env.writeEnableRaised s.cfg).setLevel .we (some .high)).drawn).setMode .we (some .output)).drawn).setLevel .oe
      (some .high)).drawn).setMode .oe (some .output)).drawn).setLevel .latch (some .low)).drawn).setMode .latch
      (some .output)).drawn).setMode .sd (some .output)).drawn).setMode .sc (some .output)).drawn
    ((List.finRange 8).map Role.d) .input
  refine ⟨Env.setModes
    ((((((((((((((((s.env.writeEnableRaised s.cfg).setLevel .we (some .high)).drawn).setMode .we (some .output)).drawn).setLevel .oe
      (some .high)).drawn).setMode .oe (some .output)).drawn).setLevel .latch (some .low)).drawn).setMode .latch
      (some .output)).drawn).setMode .sd (some .output)).drawn).setMode .sc (some .output)).drawn
    ((List.finRange 8).map Role.d) .input, ?_, ?_, ?_, ?_, ?_, ?_, ?_, ?_⟩
  · have hs : resume (.setup :: k) s =
        resume (setupOps s.cfg ++ k) { s with cav := false, dirv := false, oev := false } := rfl
    rw [hs]
    simp only [setupOps, List.cons_append, List.nil_append]
    refine Reaches.trans (reaches_request (rest := acks 15 ++ rest) hi) ?_
    refine Reaches.trans (reaches_request (rest := acks 14 ++ rest) rfl) ?_
    rw [resume_setOutputEnabled_full _ _ (by simp)]
    refine Reaches.trans (reaches_request (k := .outputEnableSet false :: _) (rest := acks 13 ++ rest) rfl) ?_
    rw [resume_outputEnableSet]
    refine Reaches.trans (reaches_request (rest := acks 12 ++ rest) rfl) ?_
    refine Reaches.trans (reaches_request (rest := acks 11 ++ rest) rfl) ?_
    refine Reaches.trans (reaches_request (rest := acks 10 ++ rest) rfl) ?_
    refine Reaches.trans (reaches_request (rest := acks 9 ++ rest) rfl) ?_
    refine Reaches.trans (reaches_request (rest := acks 8 ++ rest) rfl) ?_
    rw [resume_setMode_full _ _ (by simp)]
    refine Reaches.trans (reaches_setPinModes (s := _) ((List.finRange 8).map Role.d) .input
      (.directionSet .input :: .lifecycle .ready :: k) (rest := rest) hc rfl) ?_
    rw [resume_directionSet, resume_lifecycle]
    refine Reaches.of_eq (congrArg _ ?_)
    simp [State.acknowledged, setupEvents, dwEvent, spmEvent, hw, hm, hoe, Env.writePin_we_high, Env.writePin_low,
      outputEnableLevel]
  · simp [Env.pin_setModes]
  · simp [Env.pin_setModes]
  · simp [Env.pin_setModes]
  · simp [Env.pin_setModes]
  · simp [Env.pin_setModes]
  · intro i
    simp [Env.pin_setModes]
  · simp [n1, n2, n3, n4, n5]

/-- The polling loop when every read that `POLL_LIMIT` allows misses (R184 P4, R186): D7 is restored, then WriteTimeout. -/
theorem reaches_pollTimeout {s : State} {c : WriteCycle} (k : List MicroOp) {n : Nat} {rest : List Input}
    (hc : s.cfg.wf = true) (hi : s.inbox = acks (n + 2) ++ rest) (ho : s.env.pin .oe = ⟨some .output, some .low⟩)
    (hd : (s.env.pin (.d 7)).mode = some .input) (hb : s.env.busy = some c) (hem : s.em = c.data[7])
    (hp : s.pcnt = 0) (hlim : s.cfg.pollLimit = some (n + 1)) :
    Reaches (resume (.pollRead :: k) s)
      (raise .writeTimeout { s with
        pcnt := n + 1, issued := true, inbox := rest
        trace := s.trace ++ ((List.replicate (n + 1) (!s.em)).map (drEvent s.cfg 7) ++ [spmEvent s.cfg (.d 7) .output])
        env := ((s.env.drawnTimes (n + 1)).setMode (.d 7) (some .output)).drawn }) := by
  have hi' : s.inbox = acks n ++ (acks 2 ++ rest) := by rw [hi, acks_add]
  refine (reaches_pollMisses k n hc hi' ho hd hb hem (fun m hm => ?_)).trans ?_
  · rw [hlim] at hm
    have := Option.some.inj hm
    omega
  have hbit : (s.env.drawnTimes n).answer s.cfg (.digitalRead (pinOf s.cfg (.d 7))) = .bit (!s.em) := by
    rw [Env.answer_digitalRead hc, Env.dataBit_busy (e := s.env.drawnTimes n) ho hd hb, hem]
  rw [resume_pollRead]
  refine (Reaches.single (step_pollRead_ack (rest := .reply false :: rest) rfl rfl hbit)).trans ?_
  rw [if_neg (by simp), if_pos (by simp [hlim, hp])]
  refine (reaches_restoreBit7 (rest := rest) rfl).trans ?_
  rw [resume_raiseTimeout]
  refine Reaches.of_eq ?_
  simp only [Env.drawnTimes] at hbit
  simp [raise, State.acknowledged, hbit, drEvent, spmEvent, Env.perform_digitalRead, Env.perform_setPinMode hc,
    Env.drawn, Env.drawnTimes, hp, List.replicate_succ', Nat.add_assoc]

end Sys2Proof.Machine
end

