-- ==== Sys2Proof/Laws/Bulk.lean ====
section
/-! SUPPORT. The bulk loops of 45_bulk.md: one iteration from a state that a command can run on, and that such a state is
left behind. -/

namespace Sys2Proof.Machine

/-- Whether a micro-step ends the silent part of a procedure, whatever the state is. -/
def MicroOp.stops : MicroOp → Bool
  | .request _ | .sample _ | .pollRead | .restoreBit7 | .delay _ _ | .respond _ | .respondByte | .takePayload _
  | .setup | .driveBit _ | .raiseTimeout => true
  | .lifecycle _ | .setAddress _ | .latched _ | .setMode _ | .directionSet _ | .setOutputEnabled _ | .outputEnableSet _
  | .clearAccumulator | .captureValue _ | .shiftValue | .clearPollCount | .clearIndex | .nextIndex | .loop _ _
  | .clearRow | .storeRow | .emitLine => false

/-- Whether a micro-step is the head of a bulk loop. -/
def MicroOp.isLoop : MicroOp → Bool
  | .loop _ _ => true
  | .request _ | .sample _ | .pollRead | .restoreBit7 | .delay _ _ | .respond _ | .respondByte | .takePayload _
  | .setup | .driveBit _ | .raiseTimeout | .lifecycle _ | .setAddress _ | .latched _ | .setMode _ | .directionSet _
  | .setOutputEnabled _ | .outputEnableSet _ | .clearAccumulator | .captureValue _ | .shiftValue | .clearPollCount
  | .clearIndex | .nextIndex | .clearRow | .storeRow | .emitLine => false

/-- A procedure that reaches a micro-step that stops before it reaches a bulk loop does not end at a bulk loop. -/
theorem enterLoop_settle (pre : List MicroOp) (op : MicroOp) (k : List MicroOp) (s : State)
    (hpre : ∀ x ∈ pre, x.isLoop = false) (hop : op.stops = true) :
    enterLoop (settle (pre ++ op :: k) s) = settle (pre ++ op :: k) s := by
  induction pre generalizing s with
  | nil => cases op <;> simp [MicroOp.stops] at hop <;> rfl
  | cons x pre ih =>
    have hpre' : ∀ y ∈ pre, y.isLoop = false := fun y hy => hpre y (List.mem_cons_of_mem _ hy)
    have hx := hpre x (List.mem_cons_self ..)
    cases x with
    | loop _ _ => simp [MicroOp.isLoop] at hx
    | setAddress a =>
      simp only [List.cons_append, settle]
      split
      · exact ih s hpre'
      · rfl
    | setMode d =>
      simp only [List.cons_append, settle]
      split
      · exact ih s hpre'
      · rfl
    | setOutputEnabled e =>
      simp only [List.cons_append, settle]
      split
      · exact ih s hpre'
      · rfl
    | _ => first | rfl | exact ih _ hpre'

/-- One more iteration of a bulk loop of writes. -/
theorem resume_loop_write {kind : BulkKind} {n : Nat} (k : List MicroOp) (s : State) {a : Address} {v : Byte}
    (h : s.bi.toNat < n) (hk : iterationOps kind s = writeByteOps s.cfg a v) :
    resume (.loop kind n :: k) s = resume (writeByteOps s.cfg a v ++ .nextIndex :: .loop kind n :: k) s := by
  rw [resume_loop_next _ _ h, hk, resume]
  refine (enterLoop_settle [.setAddress a, .setOutputEnabled false, .setMode .output, .captureValue v] (.driveBit 0) _ s
    ?_ rfl).symm
  intro x hx
  simp only [List.mem_cons, List.not_mem_nil, or_false] at hx
  rcases hx with rfl | rfl | rfl | rfl <;> rfl

/-- One more row of a dump. -/
theorem resume_loop_dump {n : Nat} (k : List MicroOp) (s : State) (h : s.bi.toNat < n) :
    resume (.loop .dump n :: k) s = resume (dumpRowOps s.bi ++ .nextIndex :: .loop .dump n :: k) s := by
  rw [resume_loop_next _ _ h, resume]
  refine (enterLoop_settle [.clearRow, .setAddress (rowAddress s.bi 0), .setMode .input, .setOutputEnabled true,
    .clearAccumulator] (.sample 7) _ s ?_ rfl).symm
  intro x hx
  simp only [List.mem_cons, List.not_mem_nil, or_false] at hx
  rcases hx with rfl | rfl | rfl | rfl | rfl <;> rfl

/-- The end of a bulk loop whose command then answers. -/
theorem resume_loop_respond {kind : BulkKind} {n : Nat} (s : State) (st : Status) (h : ¬ s.bi.toNat < n) :
    resume (.loop kind n :: [.respond st]) s = resume [.respond st] s := by
  rw [resume_loop_done _ _ h]; rfl

/-- After a ReadByte or a WriteByte the caches describe the pins again, so the next command can run. -/
theorem State.Operational.after {s t : State} {d : PinMode} {a : Address} (h : s.Operational) (hcfg : t.cfg = s.cfg)
    (hlc : t.lc = s.lc) (hca : t.ca = a) (hdir : t.dir = d) (hoe : t.oe = true)
    (hd : ∀ i, (t.env.pin (.d i)).mode = some d) (ho : t.env.pin .oe = ⟨some .output, some .low⟩)
    (hp : ∀ r, (∀ i, r ≠ .d i) → r ≠ .oe → t.env.pin r = s.env.pin r)
    (hl : t.env.latch = some a) (hb : t.env.busy = none) : t.Operational := by
  obtain ⟨h1, h2, -, h4⟩ := h
  refine ⟨by rw [hcfg]; exact h1, by rw [hlc]; exact h2, ⟨?_, ?_, ?_⟩, ⟨?_, ?_, ?_, hb⟩⟩
  · intro _; rw [hl, hca]
  · intro _ i; rw [hd, hdir]
  · intro _; rw [ho, hoe]; rfl
  · rw [hp _ (by simp) (by simp)]; exact h4.latchLow
  · rw [hp _ (by simp) (by simp)]; exact h4.writeEnableHigh
  · rw [ho]

end Sys2Proof.Machine
end

