-- ==== Sys2Proof/Laws/Device.lean ====
section
/-! SUPPORT. What each operation of the environment can do to the device: which byte may change, and that `MEM` keeps its
canonical form inside the device. -/

namespace Sys2Proof.Machine

variable {cfg : Params} {e : Env} {x : Nat}

/-- What may be different after a write pulse or what may have been one (R68, R71, R191): the byte at the address lines,
and the byte of a cycle in progress. -/
def Env.MayChange (cfg : Params) (e : Env) (x : Nat) : Prop :=
  x = e.addressLines cfg ∨ ∃ c, e.busy = some c ∧ x = c.addr

theorem Env.byteAt_disturbed (h : (e.disturbed cfg).byteAt x ≠ e.byteAt x) : e.MayChange cfg x := by
  unfold Env.disturbed at h
  by_contra hx
  split at h
  · rename_i c hb
    exact h ((Env.byteAt_writeByteAt_ne _ _ fun h => hx (.inl h)).trans
      (Env.byteAt_writeByteAt_ne _ _ fun h => hx (.inr ⟨c, hb, h⟩)))
  · exact h (Env.byteAt_writeByteAt_ne e _ fun h => hx (.inl h))

@[simp] theorem Env.pins_disturbed : (e.disturbed cfg).pins = e.pins := by unfold Env.disturbed; split <;> rfl
@[simp] theorem Env.pin_disturbed (r : Role) : (e.disturbed cfg).pin r = e.pin r := by simp [Env.pin]
@[simp] theorem Env.shift_disturbed : (e.disturbed cfg).shift = e.shift := by unfold Env.disturbed; split <;> rfl
@[simp] theorem Env.latch_disturbed : (e.disturbed cfg).latch = e.latch := by unfold Env.disturbed; split <;> rfl
@[simp] theorem Env.draws_disturbed : (e.disturbed cfg).draws = e.draws := by unfold Env.disturbed; split <;> rfl
@[simp] theorem Env.suspect_disturbed : (e.disturbed cfg).suspect = e.suspect := by unfold Env.disturbed; split <;> rfl

/-- A write that was cut off leaves the byte at the address lines a free value (R191, R305). -/
theorem Env.byteAt_disturbed_lines (cfg : Params) (e : Env) :
    ∃ k, (e.disturbed cfg).byteAt (e.addressLines cfg) = Config.freeByte e.draws k := by
  unfold Env.disturbed
  split
  · exact ⟨1, Env.byteAt_writeByteAt_same _ _ _⟩
  · exact ⟨0, Env.byteAt_writeByteAt_same _ _ _⟩

/-- And it leaves the write cycle running, with any byte, or not (R191, R305). -/
theorem Env.busy_disturbed_eq (cfg : Params) (e : Env) :
    ∃ k, (e.disturbed cfg).busy =
      if Config.freeBit e.draws 0 then some ⟨e.writtenAddress cfg, Config.freeByte e.draws k⟩ else none := by
  unfold Env.disturbed Env.writtenAddress
  split <;> exact ⟨_, rfl⟩

/-- A write that was cut off leaves a write cycle only at the address lines or where one was in progress (R305). -/
theorem Env.busy_disturbed {c : WriteCycle} (h : (e.disturbed cfg).busy = some c) : e.MayChange cfg c.addr := by
  unfold Env.disturbed at h
  split at h
  · rename_i c' hb
    by_cases hf : Config.freeBit e.draws 0 = true <;> simp [hf] at h
    exact .inr ⟨c', hb, by rw [← h]⟩
  · by_cases hf : Config.freeBit e.draws 0 = true <;> simp [hf] at h
    exact .inl (by rw [← h])

theorem Env.byteAt_writePulse (h : (e.writePulse cfg).byteAt x ≠ e.byteAt x) : e.MayChange cfg x := by
  unfold Env.writePulse at h
  split at h
  · rename_i c hb
    by_contra hx
    refine h ((Env.byteAt_writeByteAt_ne _ _ fun h => hx (.inl h)).trans (Env.byteAt_writeByteAt_ne _ _ fun h => hx ?_))
    exact .inr ⟨c, hb, h⟩
  · split at h
    · exact absurd rfl h
    · split at h
      · exact Env.byteAt_disturbed h
      · by_contra hx
        exact h (Env.byteAt_writeByteAt_ne e _ fun h => hx (.inl h))

theorem Env.byteAt_interruptedWrite (h : (e.interruptedWrite cfg).byteAt x ≠ e.byteAt x) : e.MayChange cfg x := by
  unfold Env.interruptedWrite at h
  split at h
  · exact Env.byteAt_writePulse h
  · exact Env.byteAt_disturbed h

theorem Env.byteAt_of_mem {e' : Env} (h : e'.mem = e.mem) (x : Nat) : e'.byteAt x = e.byteAt x := by
  rw [Env.byteAt, Env.byteAt, h]

/-- The role that `roleOf` answers is the one wired to the pin (R27). -/
theorem roleOf_eq_some {p : Pin} {r : Role} (h : roleOf cfg p = some r) : p = pinOf cfg r := by
  have := List.find?_some h
  exact (beq_iff_eq.1 this).symm

/-- An acknowledged request changes a byte only if it is a DIGITAL_WRITE of WE (R68, R71). -/
theorem Env.byteAt_perform {r : Request} (h : (e.perform cfg r).byteAt x ≠ e.byteAt x) :
    e.MayChange cfg x ∧ ∃ l, r = .digitalWrite (pinOf cfg .we) l := by
  cases r with
  | setPinMode p m => refine absurd (Env.byteAt_of_mem ?_ x) h; simp only [Env.perform]; split <;> rfl
  | digitalRead p => exact absurd rfl h
  | shiftOut dp cp o b => refine absurd (Env.byteAt_of_mem ?_ x) h; simp only [Env.perform, Env.shiftOut]; split <;> rfl
  | digitalWrite p l =>
    simp only [Env.perform] at h
    split at h
    · rename_i r hr
      cases roleOf_eq_some hr
      cases r with
      | we =>
        cases l with
        | low => exact absurd rfl h
        | high =>
          simp only [Env.writePin] at h
          split at h
          · exact ⟨Env.byteAt_writePulse h, _, rfl⟩
          · exact absurd rfl h
      | latch => cases l <;> exact absurd rfl h
      | _ => exact absurd rfl h
    · exact absurd rfl h

/-- So does a request that answered `error` (R53, R191). -/
theorem Env.byteAt_fail {r : Request} (h : (e.fail cfg r).byteAt x ≠ e.byteAt x) :
    e.MayChange cfg x ∧ ∃ l, r = .digitalWrite (pinOf cfg .we) l := by
  cases r with
  | setPinMode p m => refine absurd (Env.byteAt_of_mem ?_ x) h; simp only [Env.fail]; split <;> rfl
  | digitalRead p => exact absurd rfl h
  | shiftOut dp cp o b => exact absurd rfl h
  | digitalWrite p l =>
    simp only [Env.fail] at h
    split at h
    · rename_i r hr
      cases roleOf_eq_some hr
      cases r with
      | we =>
        cases l with
        | _ =>
          simp only [Env.failPin] at h
          split at h
          · exact ⟨Env.byteAt_interruptedWrite h, _, rfl⟩
          · exact absurd rfl h
      | latch => cases l <;> exact absurd rfl h
      | _ => exact absurd rfl h
    · exact absurd rfl h

/-- What a request that answered `error` may have changed where it may have been no write pulse: no byte (R53). -/
theorem Env.byteAt_fail_not_pulse {r : Request} (hp : e.pulses cfg r = false) : (e.fail cfg r).byteAt x = e.byteAt x := by
  cases r with
  | setPinMode p m => refine Env.byteAt_of_mem ?_ x; simp only [Env.fail]; split <;> rfl
  | digitalRead p => rfl
  | shiftOut dp cp o b => rfl
  | digitalWrite p l =>
    simp only [Env.fail]
    split
    · rename_i r hr
      cases r with
      | we =>
        simp only [Env.pulses, hr, beq_self_eq_true, Bool.true_and] at hp
        simp only [Env.failPin, hp]
        rfl
      | latch => cases l <;> rfl
      | _ => rfl
    · rfl

/-- Nor the write cycle. -/
theorem Env.busy_fail_not_pulse {r : Request} (hp : e.pulses cfg r = false) : (e.fail cfg r).busy = e.busy := by
  cases r with
  | setPinMode p m => simp only [Env.fail]; split <;> rfl
  | digitalRead p => rfl
  | shiftOut dp cp o b => rfl
  | digitalWrite p l =>
    simp only [Env.fail]
    split
    · rename_i r hr
      cases r with
      | we =>
        simp only [Env.pulses, hr, beq_self_eq_true, Bool.true_and] at hp
        simp only [Env.failPin, hp]
        rfl
      | latch => cases l <;> rfl
      | _ => rfl
    · rfl

@[simp] theorem Env.pulses_disturbed (r : Request) : (e.disturbed cfg).pulses cfg r = e.pulses cfg r := by
  cases r <;> simp [Env.pulses, Env.mayPulse]

/-- Which byte a request that failed inside a procedure may have changed (R53, R191, R225). -/
theorem State.byteAt_envAfterFailure {s : State} {r : Request} (h : (s.envAfterFailure r).byteAt x ≠ s.env.byteAt x) :
    s.env.MayChange s.cfg x ∧ (s.pastWriteLow = true ∨ ∃ l, r = .digitalWrite (pinOf s.cfg .we) l) := by
  unfold State.envAfterFailure at h
  split at h
  · rename_i hp
    simp only [Bool.and_eq_true, Bool.not_eq_true'] at hp
    rw [Env.byteAt_fail_not_pulse (by rw [Env.pulses_disturbed]; exact hp.2)] at h
    exact ⟨Env.byteAt_disturbed h, .inl hp.1⟩
  · exact (Env.byteAt_fail h).imp id .inr

/-- What the device holds is inside the device: `MEM` in its canonical form, and every address of `MEM`, of the write cycle
and of a write that timed out below CAPACITY (R60, R63). -/
structure Env.InDevice (cfg : Params) (e : Env) : Prop where
  memory : Memory.wf e.mem
  memoryInRange : ∀ c ∈ e.mem, c.1 < cfg.capacity
  cycleInRange : ∀ c, e.busy = some c → c.addr < cfg.capacity
  suspectInRange : ∀ a, e.suspect = some a → a < cfg.capacity

theorem Env.InDevice.congr {e' : Env} (h : e.InDevice cfg) (h1 : e'.mem = e.mem) (h2 : e'.busy = e.busy)
    (h3 : e'.suspect = e.suspect) : e'.InDevice cfg :=
  ⟨by rw [h1]; exact h.1, by rw [h1]; exact h.2, by rw [h2]; exact h.3, by rw [h3]; exact h.4⟩

theorem Env.InDevice.write (h : e.InDevice cfg) {a : Nat} (ha : a < cfg.capacity) (v : Byte) :
    (e.writeByteAt a v).InDevice cfg :=
  ⟨Memory.wf_write _ _ h.1, fun c hc => (Memory.of_mem_write hc).elim (fun h => by rw [h]; exact ha) (h.2 c), h.3, h.4⟩

/-- A write cycle that may have started, as an option over a free bit. -/
theorem Env.InDevice.withCycle (h : e.InDevice cfg) {a : Nat} (ha : a < cfg.capacity) (b : Bool) (v : Byte) :
    Env.InDevice cfg { e with busy := if b then some ⟨a, v⟩ else none } :=
  ⟨h.1, h.2, fun c hc => by cases b <;> simp at hc; rw [← hc]; exact ha, h.4⟩

theorem Env.InDevice.disturbed (hc : cfg.wf = true) (h : e.InDevice cfg) : (e.disturbed cfg).InDevice cfg := by
  unfold Env.disturbed
  split
  · rename_i c hb
    exact ((h.write (h.3 c hb) _).write (addressLines_lt hc e) _).withCycle (h.3 c hb) _ _
  · exact (h.write (addressLines_lt hc e) _).withCycle (addressLines_lt hc e) _ _

theorem Env.InDevice.writePulse (hc : cfg.wf = true) (h : e.InDevice cfg) : (e.writePulse cfg).InDevice cfg := by
  unfold Env.writePulse
  split
  · rename_i c hb
    exact ((h.write (h.3 c hb) _).write (addressLines_lt hc e) _).withCycle (deviceAddress_lt hc _) _ _
  · split
    · exact ⟨h.1, h.2, fun c hc' => by rw [← Option.some.inj hc']; exact addressLines_lt hc _, by simp⟩
    · split
      · exact h.disturbed hc
      · exact h.write (addressLines_lt hc _) _

theorem Env.InDevice.interruptedWrite (hc : cfg.wf = true) (h : e.InDevice cfg) :
    (e.interruptedWrite cfg).InDevice cfg := by
  unfold Env.interruptedWrite
  split
  · exact h.writePulse hc
  · exact h.disturbed hc

theorem Env.InDevice.perform (hc : cfg.wf = true) (h : e.InDevice cfg) (r : Request) :
    (e.perform cfg r).InDevice cfg := by
  cases r with
  | setPinMode p m => simp only [Env.perform]; split <;> exact h.congr rfl rfl rfl
  | digitalRead p => exact h.congr rfl rfl rfl
  | shiftOut dp cp o b => simp only [Env.perform, Env.shiftOut]; split <;> exact h.congr rfl rfl rfl
  | digitalWrite p l =>
    simp only [Env.perform]
    split
    · rename_i r _
      cases r with
      | we =>
        cases l with
        | low => exact h.congr rfl rfl rfl
        | high =>
          simp only [Env.writePin]
          split
          · exact (h.writePulse hc).congr rfl rfl rfl
          · exact h.congr rfl rfl rfl
      | latch => cases l <;> exact h.congr rfl rfl rfl
      | _ => exact h.congr rfl rfl rfl
    · exact h.congr rfl rfl rfl

theorem Env.InDevice.fail (hc : cfg.wf = true) (h : e.InDevice cfg) (r : Request) : (e.fail cfg r).InDevice cfg := by
  cases r with
  | setPinMode p m => simp only [Env.fail]; split <;> exact h.congr rfl rfl rfl
  | digitalRead p => exact h.congr rfl rfl rfl
  | shiftOut dp cp o b => exact h.congr rfl rfl rfl
  | digitalWrite p l =>
    simp only [Env.fail]
    split
    · rename_i r _
      cases r with
      | we =>
        cases l with
        | _ =>
          simp only [Env.failPin]
          split
          · exact (h.interruptedWrite hc).congr rfl rfl rfl
          · exact h.congr rfl rfl rfl
      | latch => cases l <;> exact h.congr rfl rfl rfl
      | _ => exact h.congr rfl rfl rfl
    · exact h.congr rfl rfl rfl

theorem State.envAfterFailure_inDevice {s : State} (hc : s.cfg.wf = true) (h : s.env.InDevice s.cfg) (r : Request) :
    (s.envAfterFailure r).InDevice s.cfg := by
  unfold State.envAfterFailure
  split
  · exact (h.disturbed hc).fail hc r
  · exact h.fail hc r

/-- The address that a write is going on at is inside the device. -/
theorem Env.InDevice.writtenAddress_lt (hc : cfg.wf = true) (h : e.InDevice cfg) : e.writtenAddress cfg < cfg.capacity := by
  unfold Env.writtenAddress
  split
  · exact h.3 _ ‹_›
  · exact addressLines_lt hc e

theorem State.abandoned_inDevice {s : State} (hc : s.cfg.wf = true) (h : s.env.InDevice s.cfg) :
    s.abandoned.InDevice s.cfg := by
  unfold State.abandoned
  split
  · exact s.envAfterFailure_inDevice hc h _
  · split
    · exact (h.disturbed hc).congr rfl rfl rfl
    · exact h

theorem Env.InDevice.completeCycle (h : e.InDevice cfg) : e.completeCycle.InDevice cfg := by
  unfold Env.completeCycle
  split
  · rename_i c hb
    exact (h.write (h.3 c hb) _).withCycle (h.3 c hb) false c.data
  · exact h

theorem Env.InDevice.deviceFault (h : e.InDevice cfg) : e.deviceFault.InDevice cfg := by
  unfold Env.deviceFault
  split
  · rename_i a hs
    have hd : ((e.writeByteAt a (Config.freeByte e.draws 0)).drawn).InDevice cfg :=
      (h.write (h.4 a hs) _).congr rfl rfl rfl
    exact hd.withCycle (h.4 a hs) _ _
  · exact h

end Sys2Proof.Machine
end

