-- ==== Sys2Proof/Laws/Encoding.lean ====
section
/-! SUPPORT. The layout of the encoded words (30_encoding.md R91, R92, R102) as numbers and field by field: what a proof
about `encode` and `decode` cites. -/

namespace Sys2Proof

theorem toNat_concat {m n : Nat} (a : BitVec m) (b : BitVec n) : (a ++ b).toNat = a.toNat * 2 ^ n + b.toNat := by
  rw [BitVec.toNat_append, Nat.shiftLeft_eq, Nat.mul_comm, ← Nat.two_pow_add_eq_or_of_lt b.isLt]

/-- A field of a word as a number (R9). -/
theorem toNat_field (w : Word) (lo len : Nat) : (field w lo len).toNat = w.toNat / 2 ^ lo % 2 ^ len := by
  simp [field, Nat.shiftRight_eq_div_pow]

theorem toNat_encodeCount (op : BitVec 4) (n : Count) : (encodeCount op n).toNat = op.toNat * 2 ^ 28 + n.toNat := by
  refine (toNat_concat (op ++ 0#4) n).trans ?_
  rw [toNat_concat]
  simp only [BitVec.toNat_ofNat]
  omega

theorem toNat_encodeAddress (op : BitVec 4) (a : Address) :
    (encodeAddress op a).toNat = op.toNat * 2 ^ 28 + a.toNat * 2 ^ 8 := by
  refine (toNat_concat (op ++ 0#4 ++ a) 0#8).trans ?_
  rw [toNat_concat, toNat_concat]
  simp only [BitVec.toNat_ofNat]
  omega

theorem toNat_encodeFlag (op : BitVec 4) (b : BitVec 1) : (encodeFlag op b).toNat = op.toNat * 2 ^ 28 + b.toNat := by
  refine (toNat_concat (op ++ 0#4 ++ 0#23) b).trans ?_
  rw [toNat_concat, toNat_concat]
  simp only [BitVec.toNat_ofNat]
  omega

theorem toNat_encodePin (top : BitVec 4) (p : Pin) (b : BitVec 1) :
    (encodePin top p b).toNat = top.toNat * 2 ^ 28 + p.toNat * 2 ^ 20 + b.toNat := by
  refine (toNat_concat (top ++ p ++ 0#19) b).trans ?_
  rw [toNat_concat, toNat_concat]
  simp only [BitVec.toNat_ofNat]
  omega

theorem toNat_encode_write (a : Address) (v : Byte) :
    (encode (.write a v)).toNat = 6 * 2 ^ 28 + a.toNat * 2 ^ 8 + v.toNat := by
  refine (toNat_concat (0x6#4 ++ 0#4 ++ a) v).trans ?_
  rw [toNat_concat, toNat_concat]
  simp only [BitVec.toNat_ofNat]
  omega

theorem toNat_encode_payload (b : Byte) : (encode (.payload b)).toNat = b.toNat := by
  refine (toNat_concat 0#24 b).trans ?_
  simp

theorem toNat_encode_shiftOut (dp cp : Pin) (o : BitOrder) (b : Byte) :
    (encode (.shiftOut dp cp o b)).toNat =
      4 * 2 ^ 28 + dp.toNat * 2 ^ 20 + cp.toNat * 2 ^ 12 + o.bit.toNat * 2 ^ 8 + b.toNat := by
  refine (toNat_concat (0x4#4 ++ dp ++ cp ++ 0#3 ++ o.bit) b).trans ?_
  rw [toNat_concat, toNat_concat, toNat_concat, toNat_concat]
  simp only [BitVec.toNat_ofNat]
  omega

/-- A reserved opcode's word. -/
theorem toNat_opcode_rest (op : BitVec 4) (r : BitVec 28) : ((op ++ r : Word)).toNat = op.toNat * 2 ^ 28 + r.toNat :=
  toNat_concat op r

/-- A field is a given value if the number says so. -/
theorem field_eq {w : Word} {lo len : Nat} {v : BitVec len} (h : w.toNat / 2 ^ lo % 2 ^ len = v.toNat) :
    field w lo len = v :=
  BitVec.eq_of_toNat_eq ((toNat_field w lo len).trans h)

/-- Format C and format N (R92). -/
theorem fields_encodeCount (op : BitVec 4) (n : Count) :
    field (encodeCount op n) 28 4 = op ∧ field (encodeCount op n) 24 4 = 0#4 ∧ field (encodeCount op n) 0 24 = n := by
  have := op.isLt
  have := n.isLt
  refine ⟨?_, ?_, ?_⟩ <;> apply field_eq <;> rw [toNat_encodeCount] <;> simp <;> omega

/-- Format A (R92). -/
theorem fields_encodeAddress (op : BitVec 4) (a : Address) :
    field (encodeAddress op a) 28 4 = op ∧ field (encodeAddress op a) 24 4 = 0#4 ∧
      field (encodeAddress op a) 0 8 = 0#8 ∧ field (encodeAddress op a) 8 16 = a := by
  have := op.isLt
  have := a.isLt
  refine ⟨?_, ?_, ?_, ?_⟩ <;> apply field_eq <;> rw [toNat_encodeAddress] <;> simp <;> omega

/-- Format B (R92). -/
theorem fields_encodeFlag (op : BitVec 4) (b : BitVec 1) :
    field (encodeFlag op b) 28 4 = op ∧ field (encodeFlag op b) 24 4 = 0#4 ∧ field (encodeFlag op b) 1 23 = 0#23 ∧
      field (encodeFlag op b) 0 1 = b := by
  have := op.isLt
  have := b.isLt
  refine ⟨?_, ?_, ?_, ?_⟩ <;> apply field_eq <;> rw [toNat_encodeFlag] <;> simp <;> omega

/-- Format AV (R92). -/
theorem fields_encode_write (a : Address) (v : Byte) :
    field (encode (.write a v)) 28 4 = 6#4 ∧ field (encode (.write a v)) 24 4 = 0#4 ∧
      field (encode (.write a v)) 8 16 = a ∧ field (encode (.write a v)) 0 8 = v := by
  have := a.isLt
  have := v.isLt
  refine ⟨?_, ?_, ?_, ?_⟩ <;> apply field_eq <;> rw [toNat_encode_write] <;> simp <;> omega

/-- Format P (R92). -/
theorem fields_encode_payload (b : Byte) :
    field (encode (.payload b)) 8 24 = 0#24 ∧ field (encode (.payload b)) 0 8 = b := by
  have := b.isLt
  refine ⟨?_, ?_⟩ <;> apply field_eq <;> rw [toNat_encode_payload] <;> simp <;> omega

/-- The one-pin requests (R102). -/
theorem fields_encodePin (top : BitVec 4) (p : Pin) (b : BitVec 1) :
    field (encodePin top p b) 28 4 = top ∧ field (encodePin top p b) 20 8 = p ∧
      field (encodePin top p b) 1 19 = 0#19 ∧ field (encodePin top p b) 0 1 = b := by
  have := top.isLt
  have := p.isLt
  have := b.isLt
  refine ⟨?_, ?_, ?_, ?_⟩ <;> apply field_eq <;> rw [toNat_encodePin] <;> simp <;> omega

/-- SHIFT_OUT (R102). -/
theorem fields_encode_shiftOut (dp cp : Pin) (o : BitOrder) (b : Byte) :
    field (encode (.shiftOut dp cp o b)) 28 4 = 4#4 ∧ field (encode (.shiftOut dp cp o b)) 20 8 = dp ∧
      field (encode (.shiftOut dp cp o b)) 12 8 = cp ∧ field (encode (.shiftOut dp cp o b)) 9 3 = 0#3 ∧
      field (encode (.shiftOut dp cp o b)) 8 1 = o.bit ∧ field (encode (.shiftOut dp cp o b)) 0 8 = b := by
  have := dp.isLt
  have := cp.isLt
  have := b.isLt
  have := o.bit.isLt
  refine ⟨?_, ?_, ?_, ?_, ?_, ?_⟩ <;> apply field_eq <;> rw [toNat_encode_shiftOut] <;> simp <;> omega

end Sys2Proof
end

