-- ==== Sys2Proof/Laws/PerInstr.lean ====
section
/-! SUPPORT. Per instruction: the word of an instruction has, in every place that its row of spec/opcode_table.json fixes,
the value that the row fixes. -/

namespace Sys2Proof.Laws.FixedBits

/-- The `fixed` column of spec/opcode_table.json: highest bit, lowest bit, value. -/
def fixed : Instr → List (Nat × Nat × Nat)
  | .setup => [(31, 0, 0x10000000)]
  | .setAddr _ => [(7, 0, 0), (31, 24, 0x20)]
  | .setMode _ => [(31, 1, 0x18000000)]
  | .setOe _ => [(31, 1, 0x20000000)]
  | .read _ => [(7, 0, 0), (31, 24, 0x50)]
  | .write _ _ => [(31, 24, 0x60)]
  | .delayNs _ => [(31, 24, 0x70)]
  | .delayUs _ => [(31, 24, 0x80)]
  | .delayMs _ => [(31, 24, 0x90)]
  | .writeBlock _ => [(31, 24, 0xA0)]
  | .clear _ => [(31, 24, 0xB0)]
  | .dump _ => [(31, 24, 0xC0)]
  | .close => [(31, 0, 0xD0000000)]
  | .reserved0 _ => [(31, 28, 0x0)]
  | .reservedE _ => [(31, 28, 0xE)]
  | .reservedF _ => [(31, 28, 0xF)]
  | .payload _ => [(31, 8, 0)]
  | .setPinMode _ _ => [(19, 1, 0), (31, 28, 1)]
  | .digitalWrite _ _ => [(19, 1, 0), (31, 28, 2)]
  | .digitalRead _ => [(19, 0, 0), (31, 28, 3)]
  | .shiftOut _ _ _ _ => [(11, 8, 1), (31, 28, 4)]

/-- A well-formed instruction's word has the fixed bits of its row. -/
def Statement (i : Instr) : Prop :=
  i.wellFormed = true → ∀ f ∈ fixed i, (encode i).toNat / 2 ^ f.2.1 % 2 ^ (f.1 + 1 - f.2.1) = f.2.2

theorem setup : Statement .setup := by
  intro _; decide

theorem setAddr (a : Address) : Statement (.setAddr a) := by
  intro _
  have h := toNat_encodeAddress 0x2#4 a
  have := a.isLt
  simp only [encode, fixed, List.forall_mem_cons, h]
  simp
  omega

theorem setMode (d : PinMode) : Statement (.setMode d) := by
  cases d <;> intro _ <;> decide

theorem setOe (e : Bool) : Statement (.setOe e) := by
  cases e <;> intro _ <;> decide

theorem read (a : Address) : Statement (.read a) := by
  intro _
  have h := toNat_encodeAddress 0x5#4 a
  have := a.isLt
  simp only [encode, fixed, List.forall_mem_cons, h]
  simp
  omega

theorem write (a : Address) (v : Byte) : Statement (.write a v) := by
  intro _
  have h := toNat_encode_write a v
  have := a.isLt
  have := v.isLt
  simp only [fixed, List.forall_mem_cons, h]
  simp
  omega

theorem count_fixed (op : BitVec 4) (n : Count) :
    (encodeCount op n).toNat / 2 ^ 24 % 2 ^ (31 + 1 - 24) = op.toNat * 16 := by
  have h := toNat_encodeCount op n
  have := n.isLt
  have := op.isLt
  omega

theorem delayNs (n : Count) : Statement (.delayNs n) := by
  intro _
  simpa [encode, fixed] using count_fixed 0x7#4 n

theorem delayUs (n : Count) : Statement (.delayUs n) := by
  intro _
  simpa [encode, fixed] using count_fixed 0x8#4 n

theorem delayMs (n : Count) : Statement (.delayMs n) := by
  intro _
  simpa [encode, fixed] using count_fixed 0x9#4 n

theorem writeBlock (n : Count) : Statement (.writeBlock n) := by
  intro _
  simpa [encode, fixed] using count_fixed 0xA#4 n

theorem clear (n : Count) : Statement (.clear n) := by
  intro _
  simpa [encode, fixed] using count_fixed 0xB#4 n

theorem dump (n : Count) : Statement (.dump n) := by
  intro _
  simpa [encode, fixed] using count_fixed 0xC#4 n

theorem close : Statement .close := by
  intro _; decide

theorem rest_fixed (op : BitVec 4) (r : BitVec 28) :
    ((op ++ r : Word)).toNat / 2 ^ 28 % 2 ^ (31 + 1 - 28) = op.toNat := by
  have h := toNat_opcode_rest op r
  have := r.isLt
  have := op.isLt
  omega

theorem reserved0 (r : BitVec 28) : Statement (.reserved0 r) := by
  intro _
  exact List.forall_mem_singleton.2 (rest_fixed 0x0#4 r)

theorem reservedE (r : BitVec 28) : Statement (.reservedE r) := by
  intro _
  exact List.forall_mem_singleton.2 (rest_fixed 0xE#4 r)

theorem reservedF (r : BitVec 28) : Statement (.reservedF r) := by
  intro _
  exact List.forall_mem_singleton.2 (rest_fixed 0xF#4 r)

theorem payload (b : Byte) : Statement (.payload b) := by
  intro _
  have h := toNat_encode_payload b
  have := b.isLt
  simp only [fixed, List.forall_mem_singleton, h]
  omega

theorem pin_fixed (top : BitVec 4) (p : Pin) (b : BitVec 1) :
    (encodePin top p b).toNat / 2 ^ 1 % 2 ^ (19 + 1 - 1) = 0 ∧
      (encodePin top p b).toNat / 2 ^ 28 % 2 ^ (31 + 1 - 28) = top.toNat ∧
      (encodePin top p b).toNat % 2 ^ 20 = b.toNat := by
  have h := toNat_encodePin top p b
  have := p.isLt
  have := top.isLt
  have := b.isLt
  omega

theorem setPinMode (p : Pin) (m : PinMode) : Statement (.setPinMode p m) := by
  intro _
  have h := pin_fixed 0x1#4 p m.bit
  exact List.forall_mem_cons.2 ⟨h.1, List.forall_mem_singleton.2 h.2.1⟩

theorem digitalWrite (p : Pin) (l : Level) : Statement (.digitalWrite p l) := by
  intro _
  have h := pin_fixed 0x2#4 p l.bit
  exact List.forall_mem_cons.2 ⟨h.1, List.forall_mem_singleton.2 h.2.1⟩

theorem digitalRead (p : Pin) : Statement (.digitalRead p) := by
  intro _
  have h := pin_fixed 0x3#4 p 0#1
  exact List.forall_mem_cons.2 ⟨(congrArg (· % 2 ^ 20) (Nat.div_one _)).trans h.2.2, List.forall_mem_singleton.2 h.2.1⟩

theorem shiftOut (dp cp : Pin) (o : BitOrder) (b : Byte) : Statement (.shiftOut dp cp o b) := by
  intro hw
  have ho : o = .msbFirst := by simpa [Instr.wellFormed] using hw
  subst ho
  have h := toNat_encode_shiftOut dp cp .msbFirst b
  have := dp.isLt
  have := cp.isLt
  have := b.isLt
  simp only [BitOrder.bit] at h
  simp only [fixed, List.forall_mem_cons, h]
  simp
  omega

end Sys2Proof.Laws.FixedBits
end

