-- ==== Sys2Proof/Laws/Step.lean ====
section
/-! SUPPORT. What each shared operation of the command cycle can do, said once: the lemmas that a proof about every state
and every step cites instead of unfolding the operations. -/

namespace Sys2Proof.Machine

/-- `t` is `s` after some of the silent micro-steps of `ops`: no request, no word taken, no input consumed; the trace gains
text lines only; `LC` and the address cache are written only by a micro-step that `ops` holds; the environment is touched
only by the raising of a WriteTimeout. -/
structure Quiet (ops : List MicroOp) (s t : State) : Prop where
  cfg : t.cfg = s.cfg
  issued : t.issued = s.issued
  cp : t.cp = s.cp
  current : t.current = s.current
  port : t.port = s.port
  inbox : t.inbox = s.inbox
  payload : t.payload = s.payload
  pcnt : t.pcnt = s.pcnt ∨ t.pcnt = 0
  lines : ∃ ls : List (List Char), t.trace = s.trace ++ ls.map Event.text
  lc : t.lc = s.lc ∨ MicroOp.lifecycle t.lc ∈ ops
  ca : t.ca = s.ca ∨ MicroOp.latched t.ca ∈ ops
  cav : t.cav = true → (s.cav = true ∧ t.ca = s.ca) ∨ MicroOp.latched t.ca ∈ ops
  env : t.env = s.env ∨
    (t.env = { s.env with suspect := some (s.env.writtenAddress s.cfg) } ∧ t.ms = [.respond .writeTimeout])

theorem Quiet.mono {ops ops' : List MicroOp} {s t : State} (h : Quiet ops s t)
    (hl : ∀ l, MicroOp.lifecycle l ∈ ops → MicroOp.lifecycle l ∈ ops')
    (ha : ∀ a, MicroOp.latched a ∈ ops → MicroOp.latched a ∈ ops') : Quiet ops' s t where
  cfg := h.cfg
  issued := h.issued
  cp := h.cp
  current := h.current
  port := h.port
  inbox := h.inbox
  payload := h.payload
  pcnt := h.pcnt
  lines := h.lines
  lc := h.lc.imp id (hl _)
  ca := h.ca.imp id (ha _)
  cav := fun hc => (h.cav hc).imp id (ha _)
  env := h.env

/-- `s` with another `MS` only. -/
theorem Quiet.onlyMs (ops : List MicroOp) (s : State) (m : List MicroOp) : Quiet ops s { s with ms := m } where
  cfg := rfl
  issued := rfl
  cp := rfl
  current := rfl
  port := rfl
  inbox := rfl
  payload := rfl
  pcnt := .inl rfl
  lines := ⟨[], by simp⟩
  lc := .inl rfl
  ca := .inl rfl
  cav := fun h => .inl ⟨h, rfl⟩
  env := .inl rfl

/-- Two stretches of silent micro-steps, the first of which has left the environment alone. -/
theorem Quiet.trans {ops : List MicroOp} {s t u : State} (h1 : Quiet ops s t) (he : t.env = s.env)
    (h2 : Quiet ops t u) : Quiet ops s u where
  cfg := h2.cfg.trans h1.cfg
  issued := h2.issued.trans h1.issued
  cp := h2.cp.trans h1.cp
  current := h2.current.trans h1.current
  port := h2.port.trans h1.port
  inbox := h2.inbox.trans h1.inbox
  payload := h2.payload.trans h1.payload
  pcnt := by
    rcases h2.pcnt with h | h
    · rw [h]; exact h1.pcnt
    · exact .inr h
  lines := by
    obtain ⟨l1, h1⟩ := h1.lines
    obtain ⟨l2, h2⟩ := h2.lines
    exact ⟨l1 ++ l2, by rw [h2, h1]; simp⟩
  lc := by
    rcases h2.lc with h | h
    · rw [h]; exact h1.lc
    · exact .inr h
  ca := by
    rcases h2.ca with h | h
    · rw [h]; exact h1.ca
    · exact .inr h
  cav := by
    intro hc
    rcases h2.cav hc with ⟨h, h'⟩ | h
    · rw [h']; exact h1.cav h
    · exact .inr h
  env := by
    rcases h2.env with h | ⟨h, h'⟩
    · exact .inl (h.trans he)
    · exact .inr ⟨by rw [h, he, h1.cfg], h'⟩

/-- Everything that carrying silent micro-steps out can do (R32). -/
theorem settle_quiet (ops : List MicroOp) (s : State) : Quiet ops s (settle ops s) := by
  induction ops generalizing s with
  | nil => exact .onlyMs [] s []
  | cons op k ih =>
    have hk : ∀ t, Quiet (op :: k) t (settle k t) := fun t =>
      (ih t).mono (fun _ h => List.mem_cons_of_mem _ h) (fun _ h => List.mem_cons_of_mem _ h)
    have same : ∀ t : State, t.env = s.env → Quiet (op :: k) s t → Quiet (op :: k) s (settle k t) :=
      fun t he h => h.trans he (hk t)
    cases op with
    | request _ | sample _ | pollRead | restoreBit7 | delay _ _ | respond _ | respondByte | takePayload _ | loop _ _ =>
      exact .onlyMs _ s _
    | driveBit i => exact .onlyMs _ s _
    | setup => exact ⟨rfl, rfl, rfl, rfl, rfl, rfl, rfl, .inl rfl, ⟨[], by simp [settle]⟩, .inl rfl, .inl rfl,
        fun h => by simp [settle] at h, .inl rfl⟩
    | lifecycle l =>
      exact same { s with lc := l } rfl ⟨rfl, rfl, rfl, rfl, rfl, rfl, rfl, .inl rfl, ⟨[], by simp⟩, .inr (by simp), .inl rfl,
        fun h => .inl ⟨h, rfl⟩, .inl rfl⟩
    | latched a =>
      exact same { s with ca := a, cav := true } rfl ⟨rfl, rfl, rfl, rfl, rfl, rfl, rfl, .inl rfl, ⟨[], by simp⟩, .inl rfl,
        .inr (by simp), fun _ => .inr (by simp), .inl rfl⟩
    | setAddress a =>
      simp only [settle]
      split
      · exact hk s
      · exact .onlyMs _ s _
    | setMode d =>
      simp only [settle]
      split
      · exact hk s
      · exact .onlyMs _ s _
    | setOutputEnabled e =>
      simp only [settle]
      split
      · exact hk s
      · exact .onlyMs _ s _
    | raiseTimeout =>
      exact ⟨rfl, rfl, rfl, rfl, rfl, rfl, rfl, .inl rfl, ⟨[], by simp [settle, raise]⟩, .inl rfl, .inl rfl,
        fun h => .inl ⟨h, rfl⟩, .inr ⟨rfl, rfl⟩⟩
    | clearPollCount =>
      exact same { s with pcnt := 0 } rfl ⟨rfl, rfl, rfl, rfl, rfl, rfl, rfl, .inr rfl, ⟨[], by simp⟩, .inl rfl, .inl rfl,
        fun h => .inl ⟨h, rfl⟩, .inl rfl⟩
    | emitLine =>
      exact same { s with trace := s.trace ++ [.text (dumpLine s.cfg (16 * s.bi.toNat) s.row)] } rfl
        ⟨rfl, rfl, rfl, rfl, rfl, rfl, rfl, .inl rfl, ⟨[dumpLine s.cfg (16 * s.bi.toNat) s.row], rfl⟩, .inl rfl, .inl rfl,
          fun h => .inl ⟨h, rfl⟩, .inl rfl⟩
    | directionSet d =>
      exact same { s with dir := d, dirv := true } rfl ⟨rfl, rfl, rfl, rfl, rfl, rfl, rfl, .inl rfl, ⟨[], by simp⟩, .inl rfl,
        .inl rfl, fun h => .inl ⟨h, rfl⟩, .inl rfl⟩
    | outputEnableSet e =>
      exact same { s with oe := e, oev := true } rfl ⟨rfl, rfl, rfl, rfl, rfl, rfl, rfl, .inl rfl, ⟨[], by simp⟩, .inl rfl,
        .inl rfl, fun h => .inl ⟨h, rfl⟩, .inl rfl⟩
    | clearAccumulator =>
      exact same { s with ra := 0 } rfl ⟨rfl, rfl, rfl, rfl, rfl, rfl, rfl, .inl rfl, ⟨[], by simp⟩, .inl rfl, .inl rfl,
        fun h => .inl ⟨h, rfl⟩, .inl rfl⟩
    | captureValue v =>
      exact same { s with em := v[7], wv := v } rfl ⟨rfl, rfl, rfl, rfl, rfl, rfl, rfl, .inl rfl, ⟨[], by simp⟩, .inl rfl,
        .inl rfl, fun h => .inl ⟨h, rfl⟩, .inl rfl⟩
    | shiftValue =>
      exact same { s with wv := s.wv >>> 1 } rfl ⟨rfl, rfl, rfl, rfl, rfl, rfl, rfl, .inl rfl, ⟨[], by simp⟩, .inl rfl,
        .inl rfl, fun h => .inl ⟨h, rfl⟩, .inl rfl⟩
    | clearIndex =>
      exact same { s with bi := 0 } rfl ⟨rfl, rfl, rfl, rfl, rfl, rfl, rfl, .inl rfl, ⟨[], by simp⟩, .inl rfl, .inl rfl,
        fun h => .inl ⟨h, rfl⟩, .inl rfl⟩
    | nextIndex =>
      exact same { s with bi := s.bi + 1 } rfl ⟨rfl, rfl, rfl, rfl, rfl, rfl, rfl, .inl rfl, ⟨[], by simp⟩, .inl rfl,
        .inl rfl, fun h => .inl ⟨h, rfl⟩, .inl rfl⟩
    | clearRow =>
      exact same { s with row := [] } rfl ⟨rfl, rfl, rfl, rfl, rfl, rfl, rfl, .inl rfl, ⟨[], by simp⟩, .inl rfl, .inl rfl,
        fun h => .inl ⟨h, rfl⟩, .inl rfl⟩
    | storeRow =>
      exact same { s with row := s.row ++ [s.ra] } rfl ⟨rfl, rfl, rfl, rfl, rfl, rfl, rfl, .inl rfl, ⟨[], by simp⟩, .inl rfl,
        .inl rfl, fun h => .inl ⟨h, rfl⟩, .inl rfl⟩

/-- What `MS` is after silent micro-steps: at a bulk loop only if the loop was there before. -/
theorem settle_loop (ops : List MicroOp) (s : State) {kind : BulkKind} {n : Nat} {k : List MicroOp}
    (h : (settle ops s).ms = .loop kind n :: k) : (.loop kind n :: k) <:+ ops := by
  induction ops generalizing s with
  | nil => cases h
  | cons op ops ih =>
    have hc : ∀ t, (settle ops t).ms = .loop kind n :: k → (.loop kind n :: k) <:+ (op :: ops) := fun t ht =>
      (ih t ht).trans (List.suffix_cons _ _)
    cases op with
    | setAddress a =>
      simp only [settle] at h
      split at h
      · exact hc _ h
      · cases h
    | setMode d =>
      simp only [settle] at h
      split at h
      · exact hc _ h
      · cases h
    | setOutputEnabled e =>
      simp only [settle] at h
      split at h
      · exact hc _ h
      · cases h
    | loop kind' n' => exact List.suffix_of_suffix_length_le (by rw [← h]; exact List.suffix_refl _) (List.suffix_refl _) (by rw [← h]; rfl)
    | _ => first | exact hc _ h | cases h

/-- An iteration of a bulk loop holds no `LC <- l` and no `CA <- a` of its own. -/
theorem iterationOps_plain (kind : BulkKind) (s : State) :
    (∀ l, MicroOp.lifecycle l ∉ iterationOps kind s) ∧ ∀ a, MicroOp.latched a ∉ iterationOps kind s := by
  cases kind <;>
    simp [iterationOps, writeByteOps, pollOps, dumpRowOps, readByteOps, optionalDelay, setPinModeOp, digitalWriteOp]

/-- Everything that going on with a procedure can do. -/
theorem resume_quiet (ops : List MicroOp) (s : State) : Quiet ops s (resume ops s) := by
  have h := settle_quiet ops s
  unfold resume enterLoop
  split
  · rename_i kind n k hm
    have hsuf := settle_loop ops s hm
    have he : (settle ops s).env = s.env := by
      rcases h.env with h | ⟨-, h⟩
      · exact h
      · rw [hm] at h; cases h
    have hk : ∀ x ∈ k, x ∈ ops := fun x hx => hsuf.mem (List.mem_cons_of_mem _ hx)
    split
    · refine h.trans he ((settle_quiet _ _).mono ?_ ?_)
      · intro l hl
        rcases List.mem_append.1 hl with hl | hl
        · exact absurd hl ((iterationOps_plain _ _).1 l)
        · simp only [List.mem_cons, reduceCtorEq, false_or] at hl
          exact hk _ hl
      · intro a hl
        rcases List.mem_append.1 hl with hl | hl
        · exact absurd hl ((iterationOps_plain _ _).2 a)
        · simp only [List.mem_cons, reduceCtorEq, false_or] at hl
          exact hk _ hl
    · exact h.trans he ((settle_quiet _ _).mono (fun _ => hk _) (fun _ => hk _))
  · exact h

/-- Silent micro-steps that end at a request have left the environment as it was. -/
theorem resume_env {ops : List MicroOp} {s : State} (h : (resume ops s).ms ≠ [.respond .writeTimeout]) :
    (resume ops s).env = s.env :=
  (resume_quiet ops s).env.elim id fun h' => absurd h'.2 h

/-- `t` is `s` after a word was looked at, with what that may lead to before the first request: no request, no input
consumed, the device and the pins as they were, the address cache not set, `LC` only closed and only by CLOSE. -/
structure Accepted (s t : State) : Prop where
  cfg : t.cfg = s.cfg
  cp : t.cp = s.cp
  port : t.port = s.port
  inbox : t.inbox = s.inbox
  env : t.env = s.env
  lines : ∃ ls : List (List Char), t.trace = s.trace ++ ls.map Event.text
  lc : t.lc = s.lc ∨ (t.lc = .closed ∧ t.current = .command .close)
  ca : t.ca = s.ca
  cav : t.cav = true → s.cav = true

theorem Accepted.of_quiet {ops : List MicroOp} {s t : State} (h : Quiet ops s t)
    (hl : ∀ l, MicroOp.lifecycle l ∈ ops → l = .closed ∧ s.current = .command .close)
    (ha : ∀ a, MicroOp.latched a ∉ ops) (hm : MicroOp.raiseTimeout ∉ ops → t.ms ≠ [.respond .writeTimeout])
    (hr : MicroOp.raiseTimeout ∉ ops) : Accepted s t where
  cfg := h.cfg
  cp := h.cp
  port := h.port
  inbox := h.inbox
  env := h.env.elim id fun h' => absurd h'.2 (hm hr)
  lines := h.lines
  lc := h.lc.imp id fun h' => ⟨(hl _ h').1, h.current.trans (hl _ h').2⟩
  ca := h.ca.elim id fun h' => absurd h' (ha _)
  cav := fun hc => (h.cav hc).elim And.left fun h' => absurd h' (ha _)

/-- Silent micro-steps end at a WriteTimeout's response only if they raise one or were at one. -/
theorem settle_not_timeout (ops : List MicroOp) (s : State) (h1 : MicroOp.raiseTimeout ∉ ops)
    (h2 : MicroOp.respond .writeTimeout ∉ ops) : (settle ops s).ms ≠ [.respond .writeTimeout] := by
  induction ops generalizing s with
  | nil => simp [settle]
  | cons op k ih =>
    simp only [List.mem_cons, not_or] at h1 h2
    have hk : ∀ t, (settle k t).ms ≠ [.respond .writeTimeout] := fun t => ih t h1.2 h2.2
    cases op with
    | raiseTimeout => exact absurd rfl h1.1
    | respond st =>
      intro h
      have : st = .writeTimeout := by simpa [settle] using congrArg List.head? h
      exact h2.1 (by rw [this])
    | setAddress a => simp only [settle]; split <;> [exact hk _; simp [loadOps, shiftOutOp]]
    | setMode d => simp only [settle]; split <;> [exact hk _; simp [setModeOps, setPinModeOp]]
    | setOutputEnabled e => simp only [settle]; split <;> [exact hk _; simp [setOutputEnabledOps, digitalWriteOp]]
    | setup => simp [settle, setupOps, digitalWriteOp]
    | _ => first | exact hk _ | simp [settle, digitalWriteOp]

theorem iterationOps_timeout (kind : BulkKind) (s : State) :
    MicroOp.raiseTimeout ∉ iterationOps kind s ∧ MicroOp.respond .writeTimeout ∉ iterationOps kind s := by
  cases kind <;>
    simp [iterationOps, writeByteOps, pollOps, dumpRowOps, readByteOps, optionalDelay, setPinModeOp, digitalWriteOp]

theorem resume_not_timeout (ops : List MicroOp) (s : State) (h1 : MicroOp.raiseTimeout ∉ ops)
    (h2 : MicroOp.respond .writeTimeout ∉ ops) : (resume ops s).ms ≠ [.respond .writeTimeout] := by
  unfold resume enterLoop
  split
  · rename_i kind n k hm
    have hk : ∀ x ∈ k, x ∈ ops := fun x hx => (settle_loop ops s hm).mem (List.mem_cons_of_mem _ hx)
    have h1' : MicroOp.raiseTimeout ∉ k := fun h => h1 (hk _ h)
    have h2' : MicroOp.respond .writeTimeout ∉ k := fun h => h2 (hk _ h)
    split
    · have hi := iterationOps_timeout kind (settle ops s)
      exact settle_not_timeout _ _ (by simp [hi.1, h1']) (by simp [hi.2, h2'])
    · exact settle_not_timeout _ _ h1' h2'
  · exact settle_not_timeout _ _ h1 h2

/-- The procedure of a command goes on from the acceptance. -/
theorem resume_accepted (ops : List MicroOp) (s : State)
    (hl : ∀ l, MicroOp.lifecycle l ∈ ops → l = .closed ∧ s.current = .command .close)
    (ha : ∀ a, MicroOp.latched a ∉ ops) (h1 : MicroOp.raiseTimeout ∉ ops) (h2 : MicroOp.respond .writeTimeout ∉ ops) :
    Accepted s (resume ops s) :=
  .of_quiet (resume_quiet ops s) hl ha (fun h => resume_not_timeout ops s h h2) h1

theorem Accepted.refl (s : State) : Accepted s s := ⟨rfl, rfl, rfl, rfl, rfl, ⟨[], by simp⟩, .inl rfl, rfl, id⟩

/-- A step that leaves the fields of `Accepted` alone may stand before it. -/
theorem Accepted.after {s s' t : State} (h : Accepted s' t) (h1 : s'.cfg = s.cfg) (h2 : s'.cp = s.cp)
    (h3 : s'.port = s.port) (h4 : s'.inbox = s.inbox) (h5 : s'.env = s.env) (h6 : s'.trace = s.trace)
    (h7 : s'.lc = s.lc) (h8 : s'.ca = s.ca) (h9 : s'.cav = s.cav) : Accepted s t where
  cfg := h.cfg.trans h1
  cp := h.cp.trans h2
  port := h.port.trans h3
  inbox := h.inbox.trans h4
  env := h.env.trans h5
  lines := by rw [← h6]; exact h.lines
  lc := by rw [← h7]; exact h.lc
  ca := h.ca.trans h8
  cav := fun hc => h9 ▸ h.cav hc

/-- A refusal (R276) writes `MS` only. -/
theorem refuse_accepted (s : State) (st : Status) : Accepted s (s.refuse st) :=
  (Accepted.refl (s.refuse st)).after rfl rfl rfl rfl rfl rfl rfl rfl rfl

/-- A reserved word (R96) clears `ISSUED` and answers. -/
theorem refuseReserved_accepted (s : State) (a : Activity) : Accepted s (s.refuseReserved a) :=
  (Accepted.refl (s.refuseReserved a)).after rfl rfl rfl rfl rfl rfl rfl rfl rfl

/-- Everything the gate can do (R253, R254, R278). -/
theorem gate_accepted {i : Instr} {s : State} {run : State → State} (h : Accepted s (run s)) :
    Accepted s (gate i s run) := by
  unfold gate
  split
  · exact refuse_accepted _ _
  · split
    · exact refuse_accepted _ _
    · split
      · exact refuse_accepted _ _
      · exact h

/-- Everything the acceptance of a one-word command can do (R254). -/
theorem accept_accepted {i : Instr} {s t : State} {ops : List MicroOp} (h : accept i s (resume ops) = .next t)
    (hl : ∀ l, MicroOp.lifecycle l ∈ ops → l = .closed ∧ i = .close)
    (ha : ∀ a, MicroOp.latched a ∉ ops) (h1 : MicroOp.raiseTimeout ∉ ops) (h2 : MicroOp.respond .writeTimeout ∉ ops) :
    Accepted s t := by
  unfold accept at h
  cases h
  have hr := resume_accepted ops { s with issued := false, current := .command i }
    (fun l hm => ⟨(hl l hm).1, by rw [(hl l hm).2]⟩) ha h1 h2
  exact (gate_accepted hr).after rfl rfl rfl rfl rfl rfl rfl rfl rfl

/-- Everything the start of a WRITE_BLOCK after its last word can do (R220, R254). -/
theorem beginWriteBlock_accepted (s : State) : Accepted s (beginWriteBlock s) := by
  unfold beginWriteBlock
  simp only []
  split
  · exact (refuse_accepted { s with issued := false } _).after rfl rfl rfl rfl rfl rfl rfl rfl rfl
  · have : Accepted { s with issued := false } (writeBlock { s with issued := false }) := by
      unfold writeBlock
      split
      · exact (Accepted.refl (raise .capacityExceeded { s with issued := false })).after rfl rfl rfl rfl rfl rfl rfl rfl rfl
      · exact resume_accepted _ _ (by simp [bulkOps]) (by simp [bulkOps]) (by simp [bulkOps]) (by simp [bulkOps])
    exact (gate_accepted this).after rfl rfl rfl rfl rfl rfl rfl rfl rfl

/-- Everything the acceptance of a word with opcode 0xA can do (R95, R254). -/
theorem acceptWriteBlock_accepted (a : Activity) (n : Nat) (s : State) : Accepted s (acceptWriteBlock a n s) := by
  unfold acceptWriteBlock
  split
  · exact (beginWriteBlock_accepted _).after rfl rfl rfl rfl rfl rfl rfl rfl rfl
  · exact (Accepted.refl { s with current := a, payload := [], ms := [.takePayload n] }).after
      rfl rfl rfl rfl rfl rfl rfl rfl rfl

/-- Everything the acceptance of a word that spells no command can do (R96, R254). -/
theorem acceptReserved_accepted (w : Word) (s : State) : Accepted s (acceptReserved w s) := by
  unfold acceptReserved
  split
  · exact acceptWriteBlock_accepted _ _ _
  · exact refuseReserved_accepted _ _

/-- Everything a payload word can do (R95, R96). -/
theorem takePayloadWord_accepted (w : Word) (s : State) : Accepted s (takePayloadWord w s) := by
  unfold takePayloadWord
  split
  · rename_i n k _
    split
    · exact (beginWriteBlock_accepted _).after rfl rfl rfl rfl rfl rfl rfl rfl rfl
    · exact (Accepted.refl { s with payload := s.payload ++ [w], ms := [.takePayload (n - 1)] }).after
        rfl rfl rfl rfl rfl rfl rfl rfl rfl
  · exact refuseReserved_accepted _ _

/-- A word decoded in the command stream is a row of the command stream (R91). -/
theorem decodeCommand_stream {w : Word} {i : Instr} (h : decode .command w = .ok i) : i.stream = .command := by
  simp only [decode, decodeCommand] at h
  split at h
  · unfold decodeOperand requireZero at h
    split at h <;> (try split at h) <;> cases h <;> rfl
  · cases h

/-- Everything the acceptance of a command can do, for every command of the table. -/
theorem exec_command_accepted {i : Instr} (hi : i.stream = .command) {s t : State} (h : exec i s = .next t) :
    Accepted s t := by
  cases i with
  | setup => exact accept_accepted h (by simp) (by simp) (by simp) (by simp)
  | close => exact accept_accepted h (by simp) (by simp) (by simp) (by simp)
  | setAddr a => exact accept_accepted h (by simp) (by simp) (by simp) (by simp)
  | setMode d => exact accept_accepted h (by simp) (by simp) (by simp) (by simp)
  | setOe e => exact accept_accepted h (by simp) (by simp) (by simp) (by simp)
  | read a => refine accept_accepted (i := .read a) (ops := readByteOps a ++ [MicroOp.respondByte]) h ?_ ?_ ?_ ?_ <;> simp [readByteOps]
  | write a v =>
    refine accept_accepted (i := .write a v) (ops := writeByteOps s.cfg a v ++ [MicroOp.respond .ok]) h ?_ ?_ ?_ ?_ <;>
      simp [writeByteOps, pollOps, optionalDelay, setPinModeOp, digitalWriteOp]
  | delayNs n => exact accept_accepted h (by simp) (by simp) (by simp) (by simp)
  | delayUs n => exact accept_accepted h (by simp) (by simp) (by simp) (by simp)
  | delayMs n => exact accept_accepted h (by simp) (by simp) (by simp) (by simp)
  | clear c => exact accept_accepted h (by simp [bulkOps]) (by simp [bulkOps]) (by simp [bulkOps]) (by simp [bulkOps])
  | dump l => exact accept_accepted h (by simp [bulkOps]) (by simp [bulkOps]) (by simp [bulkOps]) (by simp [bulkOps])
  | writeBlock n =>
    change Host.Outcome.next _ = _ at h
    cases h
    exact acceptWriteBlock_accepted _ _ _
  | reserved0 r =>
    change Host.Outcome.next _ = _ at h
    cases h
    exact refuseReserved_accepted _ _
  | reservedE r =>
    change Host.Outcome.next _ = _ at h
    cases h
    exact refuseReserved_accepted _ _
  | reservedF r =>
    change Host.Outcome.next _ = _ at h
    cases h
    exact refuseReserved_accepted _ _
  | payload b => cases hi
  | setPinMode p m => cases hi
  | digitalWrite p l => cases hi
  | digitalRead p => cases hi
  | shiftOut dp cp o b => cases hi

/-- Everything an acknowledged request can do to the sequencer: the silent micro-steps of the rest of its procedure, after
`RA` or `PCNT` took what they take. -/
theorem afterResponse_quiet (resp : Response) (s : State) :
    ∃ s' ops, Quiet ops s' (afterResponse resp s) ∧ (∀ x ∈ ops, x ∈ s.ms ∨ x = .restoreBit7 ∨ x = .raiseTimeout) ∧
      ((∃ ra, s' = { s with ra := ra }) ∨ ∃ n, s' = { s with pcnt := n }) := by
  have sub : ∀ {op : MicroOp} {k : List MicroOp}, s.ms = op :: k → ∀ x ∈ k, x ∈ s.ms := fun h x hx => by
    rw [h]; exact List.mem_cons_of_mem _ hx
  unfold afterResponse
  split
  · rename_i i k hm
    exact ⟨_, k, resume_quiet k _, fun x hx => .inl (sub hm x hx), .inl ⟨_, rfl⟩⟩
  · rename_i k hm
    split
    · exact ⟨_, _, resume_quiet (.restoreBit7 :: k) _, fun x hx => (List.mem_cons.1 hx).elim
        (fun h => .inr (.inl h)) fun h => .inl (sub hm x h), .inr ⟨_, rfl⟩⟩
    · split
      · refine ⟨_, _, resume_quiet (.restoreBit7 :: .raiseTimeout :: k) _, fun x hx => ?_, .inr ⟨_, rfl⟩⟩
        rcases List.mem_cons.1 hx with h | h
        · exact .inr (.inl h)
        · rcases List.mem_cons.1 h with h | h
          · exact .inr (.inr h)
          · exact .inl (sub hm x h)
      · exact ⟨_, [], .onlyMs [] { s with pcnt := s.pcnt + 1 } s.ms, by simp, .inr ⟨_, rfl⟩⟩
  · rename_i k hm
    exact ⟨_, k, resume_quiet k _, fun x hx => .inl (sub hm x hx), .inr ⟨s.pcnt, rfl⟩⟩
  · rename_i k hm
    exact ⟨_, k, resume_quiet k _, fun x hx => .inl (sub hm x hx), .inr ⟨s.pcnt, rfl⟩⟩
  · exact ⟨_, [], .onlyMs [] s s.ms, by simp, .inr ⟨s.pcnt, rfl⟩⟩

/-- Everything a transport request can do: it waits, it answers `error`, or it is acknowledged (R50, R51, R273). -/
theorem transport_cases {r : Request} {s t : State} (h : transport r s = .next t) :
    (∃ rest, s.inbox = .reply true :: rest ∧ t = raise .transportFailure (s.requestFailed r rest)) ∨
    (∃ rest, s.inbox = .reply false :: rest ∧ t = afterResponse (s.env.answer s.cfg r) (s.acknowledged r rest)) ∨
    ((∀ f rest, s.inbox ≠ .reply f :: rest) ∧ t = { s with issued := true }) := by
  unfold transport at h
  split at h
  · cases h; exact .inl ⟨_, ‹_›, rfl⟩
  · cases h; exact .inr (.inl ⟨_, ‹_›, rfl⟩)
  · rename_i h1 h2
    cases h
    exact .inr (.inr ⟨fun f rest => by cases f <;> [exact h2 rest; exact h1 rest], rfl⟩)

/-- Everything a step of the sequencer can do from a settled position (R5, R32). -/
theorem sequencerAct_cases {s t : State} (h : sequencerAct s = .next t) :
    t = s ∨
    (∃ rest, ∃ w, s.ms = [] ∧ s.port = w :: rest ∧ Accepted (s.taken rest) t) ∨
    (∃ n k rest, ∃ w, s.ms = .takePayload n :: k ∧ s.port = w :: rest ∧ t = takePayloadWord w (s.taken rest)) ∨
    (∃ kind n k, s.ms = .delay kind n :: k ∧ t = resume k (s.recordDelay kind n)) ∨
    (∃ st v k, (s.ms = .respond st :: k ∨ s.ms = .respondByte :: k) ∧ t = s.deliver st v) ∨
    ∃ op k r, s.ms = op :: k ∧ op.nextRequest s.cfg = some r ∧ transport r s = .next t := by
  unfold sequencerAct at h
  split at h
  · rename_i hm
    unfold acceptCommand at h
    split at h
    · cases h; exact .inl rfl
    · rename_i w rest hp
      refine .inr (.inl ⟨rest, w, hm, hp, ?_⟩)
      split at h
      · rename_i i hd
        exact exec_command_accepted (decodeCommand_stream hd) h
      · cases h; exact acceptReserved_accepted _ _
  · rename_i n k hm
    unfold acceptPayload at h
    split at h
    · cases h; exact .inl rfl
    · rename_i w rest hp
      refine .inr (.inr (.inl ⟨n, k, rest, w, hm, hp, ?_⟩))
      split at h
      · rename_i i hd
        simp only [decode, decodePayload] at hd
        split at hd <;> cases hd
        rename_i hz
        change Host.Outcome.next _ = _ at h
        cases h
        congr 1
        change (0#24 ++ field w 0 8 : BitVec 32) = w
        apply BitVec.eq_of_toNat_eq
        have hz' := congrArg BitVec.toNat hz
        have hw := w.isLt
        simp only [field, BitVec.toNat_append, BitVec.extractLsb'_toNat, BitVec.toNat_ofNat] at hz' ⊢
        simp [Nat.shiftRight_eq_div_pow] at hz' ⊢
        omega
      · cases h; rfl
  · exact .inr (.inr (.inr (.inl ⟨_, _, _, ‹_›, by cases h; rfl⟩)))
  · exact .inr (.inr (.inr (.inr (.inl ⟨_, _, _, .inl ‹_›, by cases h; rfl⟩))))
  · exact .inr (.inr (.inr (.inr (.inl ⟨_, _, _, .inr ‹_›, by cases h; rfl⟩))))
  · rename_i op k _ _ _ _ hm
    split at h
    · rw [exec_request] at h
      exact .inr (.inr (.inr (.inr (.inr ⟨op, k, _, hm, ‹_›, h⟩))))
    · cases h; exact .inl rfl

/-- Everything a step of the machine can do: an input of the host, the environment or the reset input takes it, or else it
is the sequencer's, with the input that leaves it the turn consumed (R5, R6). -/
theorem step_cases {s t : State} (h : step s = .next t) :
    (∃ w rest, s.inbox = .hostWord w :: rest ∧ t = { s with inbox := rest, port := s.port ++ [w] }) ∨
    (∃ rest, s.inbox = .complete :: rest ∧ t = { s with inbox := rest, env := s.env.completeCycle }) ∨
    (∃ rest, s.inbox = .deviceFault :: rest ∧ t = { s with inbox := rest, env := s.env.deviceFault }) ∨
    (∃ pins shift latch rest, s.inbox = .external pins shift latch :: rest ∧
      t = { s with inbox := rest, env := s.env.changedOutside pins shift latch }) ∨
    (∃ rest, s.inbox = .reset :: rest ∧ t = s.resetInput rest) ∨
    ∃ l, (s.inbox = .pass :: l ∨ s.inbox = l ∧ SequencerTurn l) ∧ sequencerStep { s with inbox := l } = .next t := by
  unfold step at h
  split at h
  · cases h; exact .inl ⟨_, _, ‹_›, rfl⟩
  · cases h; exact .inr (.inl ⟨_, ‹_›, rfl⟩)
  · cases h; exact .inr (.inr (.inl ⟨_, ‹_›, rfl⟩))
  · cases h; exact .inr (.inr (.inr (.inl ⟨_, _, _, _, ‹_›, rfl⟩)))
  · cases h; exact .inr (.inr (.inr (.inr (.inl ⟨_, ‹_›, rfl⟩))))
  · exact .inr (.inr (.inr (.inr (.inr ⟨_, .inl ‹_›, h⟩))))
  · rename_i f rest hi
    exact .inr (.inr (.inr (.inr (.inr ⟨s.inbox, .inr ⟨rfl, by rw [hi]; exact SequencerTurn.reply f rest⟩, h⟩))))
  · rename_i hi
    exact .inr (.inr (.inr (.inr (.inr ⟨s.inbox, .inr ⟨rfl, by rw [hi]; exact SequencerTurn.nil⟩, h⟩))))

/-- The pending silent micro-steps do not look at the inputs (R32). -/
theorem settle_inbox (ops : List MicroOp) (s : State) (l : List Input) :
    settle ops { s with inbox := l } = { settle ops s with inbox := l } := by
  induction ops generalizing s with
  | nil => rfl
  | cons op k ih =>
    cases op with
    | lifecycle x => exact ih { s with lc := x }
    | latched a => exact ih { s with ca := a, cav := true }
    | directionSet d => exact ih { s with dir := d, dirv := true }
    | outputEnableSet e => exact ih { s with oe := e, oev := true }
    | clearAccumulator => exact ih { s with ra := 0 }
    | captureValue v => exact ih { s with em := v[7], wv := v }
    | shiftValue => exact ih { s with wv := s.wv >>> 1 }
    | clearPollCount => exact ih { s with pcnt := 0 }
    | clearIndex => exact ih { s with bi := 0 }
    | nextIndex => exact ih { s with bi := s.bi + 1 }
    | clearRow => exact ih { s with row := [] }
    | storeRow => exact ih { s with row := s.row ++ [s.ra] }
    | emitLine => exact ih { s with trace := s.trace ++ [.text (dumpLine s.cfg (16 * s.bi.toNat) s.row)] }
    | setAddress a => simp only [settle, ih s]; split <;> rfl
    | setMode d => simp only [settle, ih s]; split <;> rfl
    | setOutputEnabled e => simp only [settle, ih s]; split <;> rfl
    | _ => rfl

theorem resume_inbox (ops : List MicroOp) (s : State) (l : List Input) :
    resume ops { s with inbox := l } = { resume ops s with inbox := l } := by
  rw [resume, settle_inbox, resume]
  generalize settle ops s = u
  unfold enterLoop
  cases hm : u.ms with
  | nil => simp [hm]
  | cons op k =>
    cases op with
    | loop kind n =>
      have hi : iterationOps kind { u with inbox := l } = iterationOps kind u := by cases kind <;> rfl
      simp only [hi, settle_inbox]
      split <;> rfl
    | _ => rfl

/-! Where `CA <- a` stands (R143). -/

/-- A SetAddress is requests and delays, which silent micro-steps stop at, and then `CA <- a` (R140). -/
theorem loadOps_eq (cfg : Params) (a : Address) :
    ∃ ops, loadOps cfg a = ops ++ [.latched a] ∧ ∀ x ∈ ops, (∃ r, x = .request r) ∨ ∃ d n, x = .delay d n := by
  refine ⟨_, rfl, ?_⟩
  intro x hx
  simp only [shiftOutOp, digitalWriteOp, optionalDelay, List.mem_append, List.mem_cons, List.not_mem_nil, or_false] at hx
  rcases hx with (((rfl | rfl | rfl) | hx) | rfl) | hx
  · exact .inl ⟨_, rfl⟩
  · exact .inl ⟨_, rfl⟩
  · exact .inl ⟨_, rfl⟩
  · split at hx <;> simp at hx; exact .inr ⟨_, _, hx⟩
  · exact .inl ⟨_, rfl⟩
  · split at hx <;> simp at hx; exact .inr ⟨_, _, hx⟩

/-- The last micro-steps of a SetAddress: requests and delays, and then `CA <- a`. -/
theorem suffix_loadOps {cfg : Params} {a : Address} {ops : List MicroOp} (hs : ops <:+ loadOps cfg a) (hn : ops ≠ []) :
    ∃ init, ops = init ++ [.latched a] ∧ ∀ x ∈ init, (∃ r, x = .request r) ∨ ∃ d n, x = .delay d n := by
  obtain ⟨l, he, hl⟩ := loadOps_eq cfg a
  obtain ⟨init, x, rfl⟩ : ∃ init x, ops = init ++ [x] := ⟨_, _, (List.dropLast_append_getLast hn).symm⟩
  rw [he] at hs
  obtain ⟨pre, hp⟩ := hs
  rw [← List.append_assoc] at hp
  obtain ⟨h1, h2⟩ := List.append_inj' hp rfl
  rw [List.singleton_inj.1 h2]
  exact ⟨init, rfl, fun y hy => hl y (h1 ▸ List.mem_append_right _ hy)⟩

/-- A procedure without `CA <- a` has it nowhere wrong. -/
theorem LatchedLast.of_free {cfg : Params} {ms : List MicroOp} (h : ∀ a, MicroOp.latched a ∉ ms) : LatchedLast cfg ms :=
  fun a ha => absurd ha (h a)

/-- The last micro-steps of a SetAddress, with what comes after them. -/
theorem LatchedLast.of_load {cfg : Params} {a : Address} {ops k : List MicroOp} (hs : ops <:+ loadOps cfg a)
    (hl : 2 ≤ ops.length) (hk : ∀ b, MicroOp.latched b ∉ k) : LatchedLast cfg (ops ++ k) := by
  intro b hb
  obtain ⟨init, he, hi⟩ := suffix_loadOps hs (by rintro rfl; simp at hl)
  rcases List.mem_append.1 hb with hb | hb
  · rw [he, List.mem_append] at hb
    rcases hb with hb | hb
    · rcases hi _ hb with ⟨r, h⟩ | ⟨d, n, h⟩ <;> cases h
    · obtain rfl : b = a := by simpa using hb
      exact ⟨ops, k, rfl, hs, hl, hk⟩
  · exact absurd hb (hk b)

/-- What is left of a procedure that has at most one SetAddress started: no `CA <- a`, or a whole SetAddress and no other. -/
def LatchedFresh (cfg : Params) (ms : List MicroOp) : Prop :=
  (∀ a, MicroOp.latched a ∉ ms) ∨ ∃ a k, ms = loadOps cfg a ++ k ∧ ∀ b, MicroOp.latched b ∉ k

theorem LatchedFresh.last {cfg : Params} {ms : List MicroOp} (h : LatchedFresh cfg ms) : LatchedLast cfg ms := by
  rcases h with h | ⟨a, k, rfl, hk⟩
  · exact .of_free h
  · exact .of_load (List.suffix_refl _) (by simp [loadOps]) hk

/-- Silent micro-steps start at most one SetAddress (R140). -/
theorem settle_latchedFresh (ops : List MicroOp) (s : State) (h : ∀ a, MicroOp.latched a ∉ ops) :
    LatchedFresh s.cfg (settle ops s).ms := by
  induction ops generalizing s with
  | nil => exact .inl (by simp [settle])
  | cons op k ih =>
    have hk : ∀ a, MicroOp.latched a ∉ k := fun a ha => h a (List.mem_cons_of_mem _ ha)
    have free : ∀ ops', (∀ a, MicroOp.latched a ∉ ops') → LatchedFresh s.cfg (ops' ++ k) := fun ops' h' =>
      .inl fun a ha => (List.mem_append.1 ha).elim (h' a) (hk a)
    cases op with
    | latched a => exact absurd (List.mem_cons_self ..) (h a)
    | setup => exact free (setupOps s.cfg) (by simp [setupOps, digitalWriteOp, setPinModeOp])
    | setAddress a =>
      simp only [settle]
      split
      · exact ih s hk
      · exact .inr ⟨a, k, rfl, hk⟩
    | setMode d =>
      simp only [settle]
      split
      · exact ih s hk
      · exact free (setModeOps s.cfg d) (by simp [setModeOps, setPinModeOp])
    | setOutputEnabled e =>
      simp only [settle]
      split
      · exact ih s hk
      · exact free (setOutputEnabledOps s.cfg e) (by simp [setOutputEnabledOps, digitalWriteOp])
    | driveBit i => exact free [_, .shiftValue] (by simp [digitalWriteOp])
    | raiseTimeout => exact .inl (by simp [settle, raise])
    | request _ | sample _ | pollRead | restoreBit7 | delay _ _ | respond _ | respondByte | takePayload _ | loop _ _ =>
      exact .inl h
    | _ => exact ih _ hk

/-- Going on with a procedure starts at most one SetAddress (R140). -/
theorem resume_latchedFresh (ops : List MicroOp) (s : State) (h : ∀ a, MicroOp.latched a ∉ ops) :
    LatchedFresh s.cfg (resume ops s).ms := by
  have hs := settle_latchedFresh ops s h
  unfold resume enterLoop
  split
  · rename_i kind n k hm
    have hk : ∀ a, MicroOp.latched a ∉ k := fun a ha => h a ((settle_loop ops s hm).mem (List.mem_cons_of_mem _ ha))
    have hc := (settle_quiet ops s).cfg
    split
    · rw [← hc]
      refine settle_latchedFresh _ _ fun a ha => ?_
      rcases List.mem_append.1 ha with ha | ha
      · exact (iterationOps_plain _ _).2 a ha
      · exact hk a (by simpa using ha)
    · rw [← hc]
      exact settle_latchedFresh _ _ hk
  · exact hs

/-- Going on with a procedure leaves `CA <- a` at the end of a SetAddress, if any. -/
theorem resume_latchedLast (ops : List MicroOp) (s : State) (h : ∀ a, MicroOp.latched a ∉ ops) :
    LatchedLast s.cfg (resume ops s).ms :=
  (resume_latchedFresh ops s h).last

/-- A SetAddress in progress is at a request or a delay: nothing silent is left to do. -/
theorem LatchedLast.settled {s : State} {a : Address} (h : LatchedLast s.cfg s.ms) (ha : MicroOp.latched a ∈ s.ms) :
    s.settled = s := by
  obtain ⟨ops, k, he, h1, h2, -⟩ := h a ha
  obtain ⟨init, hi, hx⟩ := suffix_loadOps h1 (by rintro rfl; simp at h2)
  cases init with
  | nil => rw [hi] at h2; simp at h2
  | cons x init =>
    rw [hi] at he
    simp only [List.cons_append] at he
    have stop : ∀ k', s.ms = x :: k' → resume (x :: k') s = s := fun k' hk' => by
      rcases hx x (by simp) with ⟨r, rfl⟩ | ⟨d, n, rfl⟩ <;> (unfold resume enterLoop; simp only [settle]; rw [← hk'])
    rw [State.settled, he]
    exact stop _ he

/-- `CAV` becomes 1 in a procedure with `CA <- a` in its place only where `CA <- a` comes next (R143). -/
theorem resume_sets_cav {op : MicroOp} {k : List MicroOp} {s : State} (h : LatchedLast s.cfg (op :: k))
    (h0 : s.cav = false) (h1 : (resume k s).cav = true) : ∃ k', k = .latched (resume k s).ca :: k' := by
  have hq := (resume_quiet k s).cav h1
  rw [h0] at hq
  have ha : MicroOp.latched (resume k s).ca ∈ k := by simpa using hq
  obtain ⟨ops, k', he, hs, hl, hk⟩ := h _ (List.mem_cons_of_mem _ ha)
  obtain ⟨init, hi, hx⟩ := suffix_loadOps hs (by rintro rfl; simp at hl)
  match init, hi, hx with
  | [], hi, _ => rw [hi] at hl; simp at hl
  | [x], hi, _ => rw [hi] at he; simp only [List.cons_append, List.nil_append, List.cons.injEq] at he; exact ⟨k', he.2⟩
  | x :: y :: init, hi, hx =>
    rw [hi] at he
    simp only [List.cons_append, List.cons.injEq] at he
    have : (resume k s).cav = s.cav := by
      rw [he.2]
      rcases hx y (by simp) with ⟨r, rfl⟩ | ⟨d, n, rfl⟩ <;> rfl
    rw [this, h0] at h1
    cases h1

/-- After its first micro-step, a procedure with `CA <- a` in its place keeps it there, or has just carried it out. -/
theorem resume_latchedLast_tail {op : MicroOp} {k : List MicroOp} {s : State} (h : LatchedLast s.cfg (op :: k)) :
    LatchedLast s.cfg (resume k s).ms := by
  by_cases hf : ∀ a, MicroOp.latched a ∉ k
  · exact resume_latchedLast k s hf
  · obtain ⟨a, ha⟩ : ∃ a, MicroOp.latched a ∈ k := by simpa using hf
    obtain ⟨ops, k', he, hs, hl, hk⟩ := h a (List.mem_cons_of_mem _ ha)
    obtain ⟨init, hi, hx⟩ := suffix_loadOps hs (by rintro rfl; simp at hl)
    cases init with
    | nil => rw [hi] at hl; simp at hl
    | cons x init =>
      rw [hi] at he
      simp only [List.cons_append, List.append_assoc, List.cons.injEq, List.nil_append] at he
      rw [he.2]
      cases init with
      | nil => exact resume_latchedLast k' { s with ca := a, cav := true } hk
      | cons y init =>
        have hm : ∀ u, resume ((y :: init) ++ .latched a :: k') s = u → u.ms = (y :: init) ++ .latched a :: k' := by
          rintro u rfl
          rcases hx y (by simp) with ⟨r, rfl⟩ | ⟨d, n, rfl⟩ <;> rfl
        rw [hm _ rfl]
        have : y :: init ++ MicroOp.latched a :: k' = (y :: init ++ [.latched a]) ++ k' := by simp
        rw [this]
        rw [hi] at hs
        exact .of_load ((List.suffix_cons x _).trans hs) (by simp) hk

/-- The step that carries `CA <- a` out: what stood before it was the last request or the settle delay of the SetAddress. -/
theorem LatchedLast.next {cfg : Params} {op : MicroOp} {k : List MicroOp} {a : Address}
    (h : LatchedLast cfg (op :: .latched a :: k)) :
    (cfg.tSettleUs = 0 ∧ op = digitalWriteOp cfg .latch .low) ∨ (0 < cfg.tSettleUs ∧ op = .delay .us cfg.tSettleUs) := by
  obtain ⟨ops, k', he, hs, hl, hk⟩ := h a (by simp)
  obtain ⟨init, hi, hx⟩ := suffix_loadOps hs (by rintro rfl; simp at hl)
  have hops : ops = [op, .latched a] := by
    subst hi
    match init, hl with
    | [x], _ => simp only [List.cons_append, List.nil_append, List.cons.injEq] at he; rw [he.1]; rfl
    | x :: y :: init, _ =>
      simp only [List.cons_append, List.cons.injEq] at he
      rcases hx y (by simp) with ⟨r, h⟩ | ⟨d, n, h⟩ <;> rw [h] at he <;> cases he.2.1
  rw [hops] at hs
  obtain ⟨pre, hp⟩ := hs
  by_cases ht : 0 < cfg.tSettleUs
  · refine .inr ⟨ht, ?_⟩
    have : loadOps cfg a = (loadOps cfg a).take ((loadOps cfg a).length - 2) ++ [.delay .us cfg.tSettleUs, .latched a] := by
      by_cases hq : 0 < cfg.tLatchUs <;> simp [loadOps, optionalDelay, ht, hq]
    rw [this] at hp
    have := (List.append_inj' hp rfl).2
    simpa using this
  · refine .inl ⟨by omega, ?_⟩
    have : loadOps cfg a = (loadOps cfg a).take ((loadOps cfg a).length - 2) ++ [digitalWriteOp cfg .latch .low, .latched a] := by
      by_cases hq : 0 < cfg.tLatchUs <;> simp [loadOps, optionalDelay, ht, hq]
    rw [this] at hp
    have := (List.append_inj' hp rfl).2
    simpa using this
end Sys2Proof.Machine
end

