-- ==== Sys2Proof/Laws/Trace.lean ====
section
/-! SUPPORT. Pulse widths read off a trace (R123). -/

namespace Sys2Proof.Machine

/-- The requests of a list of events do not count against the ones after it. -/
theorem eventsBefore_append (k : Nat) (xs ys : List Event) :
    eventsBefore ((xs.filter Event.isRequest).length + k) (xs ++ ys) = xs ++ eventsBefore k ys := by
  induction xs with
  | nil => simp
  | cons x xs ih =>
    by_cases h : x.isRequest = true
    · simp [eventsBefore, h, Nat.add_right_comm _ 1 k, ih]
    · simp [eventsBefore, h, ih]

theorem eventsAfter_append (k : Nat) (xs ys : List Event) :
    eventsAfter ((xs.filter Event.isRequest).length + k) (xs ++ ys) = eventsAfter k ys := by
  induction xs with
  | nil => simp
  | cons x xs ih =>
    by_cases h : x.isRequest = true
    · simp [eventsAfter, h, Nat.add_right_comm _ 1 k, ih]
    · simp [eventsAfter, h, ih]

/-- The pulse width between a request and the next one is the sum of the delays between the two (R123). -/
theorem pulseWidth_between (cfg : Params) (xs ds ys : List Event) {r r' : Event} (hr : r.isRequest = true)
    (hr' : r'.isRequest = true) (hd : ds.filter Event.isRequest = []) :
    pulseWidth cfg (xs.filter Event.isRequest).length ((xs.filter Event.isRequest).length + 1)
      (xs ++ r :: (ds ++ r' :: ys)) = (ds.map (Event.nanoseconds cfg)).sum := by
  have hb : eventsBefore 1 (r :: (ds ++ r' :: ys)) = r :: ds := by
    have := eventsBefore_append 0 ds (r' :: ys)
    simp only [hd, List.length_nil, Nat.add_zero] at this
    simp [eventsBefore, hr, this, hr']
  have ha : eventsAfter ((xs.filter Event.isRequest).length + 0) (xs ++ r :: ds) = ds := by
    rw [eventsAfter_append]; simp [eventsAfter, hr]
  rw [pulseWidth, eventsBefore_append, hb]
  exact congrArg (fun l => (l.map (Event.nanoseconds cfg)).sum) ha

end Sys2Proof.Machine
end

