-- ==== Sys2Proof/Tests/Slice0.lean ====
section
/-! SUPPORT. The model's own tests. Expected values come from spec/: the rules named in each comment and the tables of
95_test_vectors.md. Then the witnesses: for every statement with hypotheses, concrete states and operands that meet them
together. -/

namespace Sys2Proof.Tests

open Sys2Proof.Machine

/-! ## Well-formedness -/

/-- R50, R102: the one check of `wellFormed`. -/
theorem test_lsbFirst_is_refused : (Instr.shiftOut 2 3 .lsbFirst 0x07).wellFormed = false := by decide

theorem test_msbFirst_is_accepted : (Instr.shiftOut 2 3 .msbFirst 0x07).wellFormed = true := by decide

/-! ## Decoding: one word for each row, written out bit by bit from R92, R93, R95 and R102 -/

/-- OP 0001, RSV 0000, 24 zero bits. -/
theorem test_decode_setup : decode .command 0b0001_0000_000000000000000000000000#32 = .ok .setup := by decide

/-- OP 0010, ADDR 0x7FF, 8 zero bits (L2.3). -/
theorem test_decode_setAddr : decode .command 0b0010_0000_0000011111111111_00000000#32 = .ok (.setAddr 0x7FF) := by decide

/-- OP 0011, FLAG 1. -/
theorem test_decode_setMode : decode .command 0b0011_0000_00000000000000000000000_1#32 = .ok (.setMode .output) := by decide

/-- OP 0100, FLAG 1. -/
theorem test_decode_setOe : decode .command 0b0100_0000_00000000000000000000000_1#32 = .ok (.setOe true) := by decide

/-- OP 0101, ADDR 0x005. -/
theorem test_decode_read : decode .command 0b0101_0000_0000000000000101_00000000#32 = .ok (.read 5) := by decide

/-- OP 0110, ADDR 0x005, VALUE 0xA5. -/
theorem test_decode_write : decode .command 0b0110_0000_0000000000000101_10100101#32 = .ok (.write 5 0xA5) := by decide

/-- OP 0111, COUNT 450. -/
theorem test_decode_delayNs : decode .command 0b0111_0000_000000000000000111000010#32 = .ok (.delayNs 450) := by decide

/-- OP 1000, COUNT 10. -/
theorem test_decode_delayUs : decode .command 0b1000_0000_000000000000000000001010#32 = .ok (.delayUs 10) := by decide

/-- OP 1001, COUNT 5. -/
theorem test_decode_delayMs : decode .command 0b1001_0000_000000000000000000000101#32 = .ok (.delayMs 5) := by decide

/-- OP 1010, COUNT 3. -/
theorem test_decode_writeBlock : decode .command 0b1010_0000_000000000000000000000011#32 = .ok (.writeBlock 3) := by decide

/-- OP 1011, COUNT all ones (`ERASE_ALL`, R99). -/
theorem test_decode_clear : decode .command 0b1011_0000_111111111111111111111111#32 = .ok (.clear 0xFFFFFF) := by decide

/-- OP 1100, COUNT 200. -/
theorem test_decode_dump : decode .command 0b1100_0000_000000000000000011001000#32 = .ok (.dump 200) := by decide

/-- OP 1101. -/
theorem test_decode_close : decode .command 0b1101_0000_000000000000000000000000#32 = .ok .close := by decide

/-- OP 0000 is reserved whatever follows. -/
theorem test_decode_reserved0 : decode .command 0b0000_0000_000000000000000000000001#32 = .ok (.reserved0 1) := by decide

theorem test_decode_reservedE : decode .command 0b1110_0000_000000000000000000000000#32 = .ok (.reservedE 0) := by decide

theorem test_decode_reservedF : decode .command 0b1111_1111_111111111111111111111111#32 = .ok (.reservedF 0xFFFFFFF) := by
  decide

/-- 24 zero bits, BYTE 0x22. -/
theorem test_decode_payload : decode .payload 0b000000000000000000000000_00100010#32 = .ok (.payload 0x22) := by decide

/-- TOP 0001, PIN 13, ARG 1: `SPM(WE, Out)` of section 0. -/
theorem test_decode_setPinMode :
    decode .request 0b0001_00001101_00000000_000_0_00000001#32 = .ok (.setPinMode 13 .output) := by decide

/-- TOP 0010, PIN 4, ARG 1: `DW(LATCH, H)`. -/
theorem test_decode_digitalWrite :
    decode .request 0b0010_00000100_00000000_000_0_00000001#32 = .ok (.digitalWrite 4 .high) := by decide

/-- TOP 0011, PIN 12: `DR(D7)`. -/
theorem test_decode_digitalRead :
    decode .request 0b0011_00001100_00000000_000_0_00000000#32 = .ok (.digitalRead 12) := by decide

/-- TOP 0100, PIN 2, CLK 3, ORD 1, ARG 0x07: `SO(0x07)`. -/
theorem test_decode_shiftOut :
    decode .request 0b0100_00000010_00000011_000_1_00000111#32 = .ok (.shiftOut 2 3 .msbFirst 0x07) := by decide

/-! The rejections by name (R96, R102; L2.1). -/

theorem test_reject_setAddr_reserved_bits : decode .command 0x2FFFFF00#32 = .error .reservedField := by decide
theorem test_reject_reservedField : decode .command 0x11000000#32 = .error .reservedField := by decide

theorem test_reject_mustBeZero : decode .command 0x50000501#32 = .error .mustBeZero := by decide

theorem test_reject_payloadHighBits : decode .payload 0x00000122#32 = .error .payloadHighBits := by decide

theorem test_reject_requestOpcode : decode .request 0x50000000#32 = .error .requestOpcode := by decide

theorem test_reject_requestField : decode .request 0x30500001#32 = .error .requestField := by decide

theorem test_reject_bitOrder : decode .request 0x40203007#32 = .error .bitOrder := by decide

/-- R98: an operand that does not fit is rejected; case and spaces do not matter. -/
theorem test_assemble_write :
    assembleText "  write 0x005, 0xa5 ; the example of R183".toList = some [0x600005A5#32] ∧
      assembleText "WRITE 0x10000, 0".toList = none := by decide

/-! ## The state `S0` of 95_test_vectors.md section 0 -/

def pins0 : Vector PinState 13 :=
  #v[⟨some .output, none⟩, ⟨some .output, none⟩, ⟨some .output, some .low⟩,
    ⟨some .input, none⟩, ⟨some .input, none⟩, ⟨some .input, none⟩, ⟨some .input, none⟩,
    ⟨some .input, none⟩, ⟨some .input, none⟩, ⟨some .input, none⟩, ⟨some .input, none⟩,
    ⟨some .output, some .high⟩, ⟨some .output, some .high⟩]

/-- `S0` in a given configuration. -/
def readyIn (cfg : Params) : State :=
  { State.afterReset cfg { Env.powerUp with pins := pins0 } [] with lc := .ready, ms := [], current := .idle }

/-- `S0`. -/
def ready : State := readyIn Params.reference

/-- The smallest device, with bounded polling. -/
def smallCfg : Params := { Params.reference with capacity := 16, pollLimit := some 2 }

def small : State := readyIn smallCfg

/-- The state of an outcome. -/
def nextState (o : Host.Outcome State Fault Refusal) : Option State :=
  match o with
  | .next t => some t
  | .fault _ | .refused _ => none

/-- The word of the request that the next step issues. -/
def pendingWord (t : State) : Option Word :=
  t.pendingRequest.map Request.word

/-- The same machine at a request of its procedure, the transport acknowledging it. -/
def atRequest (s : State) (ops : List MicroOp) : State :=
  { s with ms := ops, inbox := [.reply false] }

/-! ## One step at a time -/

/-- R250: Setup starts with `DW(WE, H)` and with no cache trusted. -/
theorem test_setup_starts :
    (nextState (exec .setup ready)).map (fun t => (pendingWord t, t.cav, t.dirv, t.oev)) =
      some (some 0x20D00001#32, false, false, false) := by decide

/-- L2.1, R96: 0x13 is the response status. -/
theorem test_setAddr_out_of_range :
    (nextState (exec (.setAddr 0xFFFF) ready)).map State.ms = some [.respond .refusedAddressOutOfRange] := by decide

/-- L1.2: `SO(0x01)` first. -/
theorem test_setAddr_high_byte_first :
    (nextState (exec (.setAddr 0x123) ready)).map pendingWord = some (some 0x40203101#32) := by decide

/-- L1.2: the same address again issues nothing. -/
theorem test_setAddr_fast_path :
    (nextState (exec (.setAddr 0x123) { ready with ca := 0x123, cav := true })).map (fun t => (t.ms, t.issued)) =
      some ([.respond .ok], false) := by decide

/-- R160: D0 first. -/
theorem test_setMode_starts_at_D0 :
    (nextState (exec (.setMode .output) ready)).map pendingWord = some (some 0x10500001#32) := by decide

/-- R162: the pin is active-low. -/
theorem test_setOe_active_low :
    (nextState (exec (.setOe true) ready)).map pendingWord = some (some 0x20E00000#32) := by decide

/-- R180: the address comes first. -/
theorem test_read_starts_with_address :
    (nextState (exec (.read 0x7FF) ready)).map pendingWord = some (some 0x40203107#32) := by decide

/-- L2.1: READ 0x800. -/
theorem test_read_out_of_range :
    (nextState (exec (.read 0x800) ready)).map State.ms = some [.respond .refusedAddressOutOfRange] := by decide

/-- L2.6, second row: from the address and direction of the WRITE before, `DW(OE, H)` is the first request. -/
theorem test_write_starts_with_output_disable :
    (nextState (exec (.write 5 0) { ready with ca := 5, cav := true, dir := .output, oe := true })).map pendingWord =
      some (some 0x20E00001#32) := by decide

/-- L1.10: `EM` is the most significant bit before `WV` is shifted. -/
theorem test_write_captures_msb :
    (nextState (exec (.write 5 0xA5) { ready with ca := 5, cav := true, dir := .output })).map
      (fun t => (t.em, t.wv, pendingWord t)) = some (true, 0xA5#8, some 0x20500001#32) := by decide

/-- L2.2: 450 ns at 10 MHz are 4 ticks. -/
theorem test_delayNs_ticks : delayTicks Params.reference .ns 450 = some 4 := by decide

/-- L2.2: 500 ns at 3 MHz are 1 tick. -/
theorem test_delayNs_floor : delayTicks { Params.reference with tickHz := 3000000 } .ns 500 = some 1 := by decide

/-- L2.2. -/
theorem test_delayUs_ticks : delayTicks Params.reference .us 16777215 = some 167772150 := by decide

/-- R126. -/
theorem test_delayMs_event :
    (nextState (step { ready with ms := [.delay .ms 5, .respond .ok] })).map State.trace = some [.delay .ms 5 none] := by
  decide

/-- R95: the payload comes first. -/
theorem test_writeBlock_waits :
    (nextState (exec (.writeBlock 3) ready)).map State.ms = some [.takePayload 3] := by decide

/-- L2.7: no bytes, no request. -/
theorem test_writeBlock_of_nothing :
    (nextState (exec (.writeBlock 0) ready)).map State.ms = some [.respond .ok] := by decide

/-- R95. -/
theorem test_payload_is_kept :
    (nextState (exec (.payload 0x22) { ready with ms := [.takePayload 2], payload := [0x11#32] })).map
      (fun t => (t.payload, t.ms)) = some ([0x11#32, 0x22#32], [.takePayload 1]) := by decide

/-- L2.7: CLEAR starts at address 0. -/
theorem test_clear_starts :
    (nextState (exec (.clear 16) ready)).map pendingWord = some (some 0x40203100#32) := by decide

/-- L2.7. -/
theorem test_clear_of_nothing :
    (nextState (exec (.clear 0) ready)).map State.ms = some [.respond .ok] := by decide

/-- L2.7: `DUMP 0` is clamped to one line. -/
theorem test_dump_starts :
    (nextState (exec (.dump 0) ready)).map pendingWord = some (some 0x40203100#32) := by decide

/-- L2.7. -/
theorem test_dump_line : dumpLine { Params.reference with capacity := 65536 } 0 (List.replicate 16 0xAB#8) =
    "0000:  AB AB AB AB AB AB AB AB  AB AB AB AB AB AB AB AB\n".toList := by decide

/-- L2.8. -/
theorem test_close :
    (nextState (exec .close ready)).map (fun t => (t.lc, t.ms)) = some (.closed, [.respond .ok]) := by decide

/-- L2.1: the encoding is checked before the lifecycle. -/
theorem test_reserved0_when_closed :
    (nextState (exec (.reserved0 0) { ready with lc := .closed })).map State.ms =
      some [.respond .refusedReservedEncoding] := by decide

theorem test_reservedE : (nextState (exec (.reservedE 0) ready)).map State.ms =
    some [.respond .refusedReservedEncoding] := by decide

theorem test_reservedF : (nextState (exec (.reservedF 7) ready)).map State.ms =
    some [.respond .refusedReservedEncoding] := by decide

/-- R64. -/
theorem test_setPinMode_sets_one_mode :
    (nextState (exec (.setPinMode 5 .output) (atRequest ready [.request (.setPinMode 5 .output)]))).map
      (fun t => ((t.env.pin (.d 0)).mode, (t.env.pin (.d 1)).mode)) = some (some .output, some .input) := by decide

/-- R66: the rising latch clock copies the shift chain. -/
theorem test_digitalWrite_latches :
    (nextState (exec (.digitalWrite 4 .high) (atRequest { ready with
        env := { ready.env with shift := ⟨some 0x01, some 0x23⟩ } } [.request (.digitalWrite 4 .high)]))).map
      (fun t => (t.env.latch, (t.env.pin .latch).level)) = some (some 0x123#16, some .high) := by decide

/-- `S0` with a byte at address 5 and that address latched, output enabled. -/
def reading : State :=
  { ready with env := { ready.env with
      pins := ready.env.pins.set 12 ⟨some .output, some .low⟩
      latch := some 5
      mem := [(5, 0xA5)] } }

/-- R67: the latched byte's bit. -/
theorem test_digitalRead_of_the_latched_byte :
    (nextState (exec (.digitalRead 10) (atRequest reading [.sample 5, .respondByte]))).map
      (fun t => (t.ra, t.ms)) = some (0x01#8, [.respondByte]) := by decide

/-- R69: bit 7 comes inverted while the write cycle lasts, so the polling goes on. -/
theorem test_digitalRead_while_busy :
    (nextState (exec (.digitalRead 12) (atRequest
        { reading with env := { reading.env with busy := some ⟨5, 0x80⟩ }, em := true } [.pollRead, .respond .ok]))).map
      (fun t => (t.pcnt, t.ms)) = some (1, [.pollRead, .respond .ok]) := by decide

/-- R65. -/
theorem test_shiftOut_moves_a_byte :
    (nextState (exec (.shiftOut 2 3 .msbFirst 0x23) (atRequest
        { ready with env := { ready.env with shift := ⟨none, some 0x01⟩ } } [.request (.shiftOut 2 3 .msbFirst 0x23)]))).map
      (fun t => t.env.shift.value) = some (some 0x0123#16) := by decide

/-- R186: the read that reaches `POLL_LIMIT` without a match ends the polling. -/
theorem test_poll_limit :
    (nextState (exec (.digitalRead 12) (atRequest
        { small with env := { reading.env with busy := some ⟨5, 0x80⟩ }, em := true, pcnt := 1 }
        [.pollRead, .respond .ok]))).map State.ms = some [.restoreBit7, .raiseTimeout, .respond .ok] := by decide

/-- R70. -/
theorem test_cycle_completes :
    (nextState (step { reading with
        env := { reading.env with busy := some ⟨6, 0x80⟩ }, inbox := [.complete] })).map
      (fun t => (t.env.mem, t.env.busy)) = some ([(5, 0xA5#8), (6, 0x80#8)], none) := by decide

/-- L2.8: a failed automatic Setup leaves the block UNCONFIGURED and its caches invalid (R302). -/
theorem test_failed_automatic_setup :
    (nextState (step { State.reset with inbox := [.reply true] })).map
      (fun t => (t.lc, t.cav, t.dirv, t.oev, t.ms)) =
      some (.unconfigured, false, false, false, [.respond .transportFailure]) := by decide

/-- The kernel can run a fetched word from reset: the first step after it (log 10). -/
theorem test_withFetchWord_runs :
    (nextState (step (State.reset.withFetchWord 32 0x600005A5))).map (fun t => (t.current, pendingWord t)) =
      some (.command (.write 5 0xA5), some 0x40203100#32) := by decide

/-! ## Witnesses: states and operands that meet the hypotheses of each statement together -/

/-- `s` with inputs to come. -/
def given (s : State) (inbox : List Input) : State :=
  { s with inbox := inbox }

/-- `S0` after a SET_ADDR of the last address. -/
def latched : State :=
  { ready with ca := 0x7FF, cav := true, env := { ready.env with latch := some 0x7FF, shift := ⟨some 0x07, some 0xFF⟩ } }

/-- The smallest device after a WRITE: every cache at its other value. -/
def afterWrite : State :=
  { small with
    ca := 15, cav := true, dir := .output, oe := true
    env := { small.env with
      latch := some 15
      pins := #v[⟨some .output, none⟩, ⟨some .output, none⟩, ⟨some .output, some .low⟩,
        ⟨some .output, some .high⟩, ⟨some .output, some .low⟩, ⟨some .output, some .low⟩, ⟨some .output, some .low⟩,
        ⟨some .output, some .low⟩, ⟨some .output, some .low⟩, ⟨some .output, some .low⟩, ⟨some .output, some .high⟩,
        ⟨some .output, some .high⟩, ⟨some .output, some .low⟩] } }

theorem ready_operational : ready.Operational :=
  ⟨by decide, rfl, ⟨by decide, by decide, by decide⟩, ⟨by decide, by decide, by decide, rfl⟩⟩

theorem small_operational : small.Operational :=
  ⟨by decide, rfl, ⟨by decide, by decide, by decide⟩, ⟨by decide, by decide, by decide, rfl⟩⟩

theorem afterWrite_operational : afterWrite.Operational :=
  ⟨by decide, rfl, ⟨by decide, by decide, by decide⟩, ⟨by decide, by decide, by decide, rfl⟩⟩

/-- More inputs to come do not matter. -/
theorem given_operational {s : State} (h : s.Operational) (l : List Input) : (given s l).Operational :=
  ⟨h.config, h.ready, ⟨h.coherent.address, h.coherent.direction, h.coherent.outputEnable⟩,
    ⟨h.quiescent.latchLow, h.quiescent.writeEnableHigh, h.quiescent.outputEnableDriven, h.quiescent.notBusy⟩⟩

/-- More words at the port do not matter. -/
theorem port_operational {s : State} (h : s.Operational) (p : List Word) (l : List Input) :
    State.Operational { s with port := p, inbox := l } :=
  ⟨h.config, h.ready, ⟨h.coherent.address, h.coherent.direction, h.coherent.outputEnable⟩,
    ⟨h.quiescent.latchLow, h.quiescent.writeEnableHigh, h.quiescent.outputEnableDriven, h.quiescent.notBusy⟩⟩

/-- The invariant holds of `S0`. -/
theorem ready_inv : ready.Inv := by
  refine ⟨by decide, ?_, by decide, by decide, by decide, by decide, by simp [ready, readyIn],
    by simp [ready, readyIn], by simp [ready, readyIn], by simp [LatchedLast, ready, readyIn], fun _ => ⟨rfl, rfl, rfl, rfl⟩⟩
  exact List.Pairwise.nil

theorem witness_DecodeOfEncode :
    (Instr.shiftOut 255 0 .msbFirst 255).wellFormed = true ∧ (Instr.write 0xFFFF 0xFF).wellFormed = true := by decide

theorem witness_EncodeOfDecode :
    decode .command 0xF0000000#32 = .ok (.reservedF 0) ∧ decode .payload 0xFF#32 = .ok (.payload 0xFF) ∧
      decode .request 0x10500000#32 = .ok (.setPinMode 5 .input) := by decide

theorem witness_ResponseStatusCodes :
    step { ready with ms := [.respond .writeTimeout], issued := true } =
      .next { ready with ms := [], trace := [.response 0x03000100#32] } ∧
    Event.response 0x03000100#32 ∈ State.trace { ready with ms := [], trace := [.response 0x03000100#32] } :=
  ⟨rfl, by simp⟩

theorem witness_PseudoInstructions : 16 * 4095 + 15 < 2 ^ 16 ∧ smallCfg.wf = true ∧ Params.reference.wf = true := by decide

theorem witness_StepRunsTheDecodedInstruction_command :
    (State.ms { ready with port := [0x10000000#32] } = [] ∧ decode .command 0x10000000#32 = .ok .setup) ∧
      SequencerTurn ready.inbox := ⟨by decide, .nil⟩

theorem witness_StepRunsTheDecodedInstruction_payload :
    (State.ms { ready with ms := [.takePayload 1], port := [0x22#32] } = .takePayload 1 :: [] ∧
      decode .payload 0x22#32 = .ok (.payload 0x22)) ∧ SequencerTurn ready.inbox := ⟨by decide, .nil⟩

theorem witness_StepRunsTheDecodedInstruction_request :
    (atRequest ready [.pollRead]).ms = .pollRead :: [] ∧
      MicroOp.nextRequest ready.cfg .pollRead = some (.digitalRead 12) ∧
      SequencerTurn (atRequest ready [.pollRead]).inbox := ⟨by decide, by decide, .reply _ _⟩

theorem witness_StepOfDelayResponseAndWaiting :
    State.ms { ready with ms := [.delay .ns 0, .respond .ok] } = .delay .ns 0 :: [.respond .ok] ∧
      State.ms { ready with ms := [.respondByte] } = .respondByte :: [] ∧ ready.ms = [] ∧ ready.port = [] ∧
      MicroOp.nextRequest ready.cfg (.sample 0) = some (.digitalRead 5) ∧ SequencerTurn ready.inbox :=
  ⟨by decide, by decide, by decide, by decide, by decide, .nil⟩

theorem witness_OneRequestPerStep :
    ((nextState (step (given (atRequest ready [.sample 0, .respondByte]) [.pass, .reply true]))).map
      fun t => (t.requests, t.inbox)) = some ([.digitalRead 5], []) := by decide

theorem witness_LifecycleGate :
    (Instr.read 0x900).stream = .command ∧ (Instr.read 0x900).isReserved = false ∧ (∀ n, Instr.read 0x900 ≠ .writeBlock n) ∧
      State.reset.lc = .unconfigured ∧ ready.lc = .ready ∧ State.lc { ready with lc := .closed } = .closed :=
  ⟨rfl, rfl, by simp, rfl, rfl, rfl⟩

theorem witness_AddressOutOfRange :
    ready.lc = .ready ∧ ready.cfg.capacity ≤ (0x800#16).toNat ∧ SequencerTurn ready.inbox := ⟨rfl, by decide, .nil⟩

theorem witness_ReservedCommandsAnswer :
    (ready.ms = [] ∧ decode .command 0x10000001#32 = .error .mustBeZero ∧ field 0x10000001#32 28 4 ≠ 0xA#4) ∧
      SequencerTurn ready.inbox := ⟨by decide, .nil⟩

/-- Every clause: a bad payload word, and two good ones before Setup and after CLOSE (L2.1). -/
theorem witness_WriteBlockRefusals :
    (field 0xA0000002#32 28 4 = 0xA#4 ∧ (field 0xA0000002#32 0 24).toNat = [0x11#32, 0x122#32].length ∧
      field 0xA0000002#32 24 4 = 0#4 ∧ (∃ x ∈ [0x11#32, 0x122#32], field x 8 24 ≠ 0#24) ∧
      (∀ x ∈ [0x11#32, 0x22#32], field x 8 24 = 0#24) ∧ field 0xA1000000#32 24 4 ≠ 0#4 ∧
      State.lc { ready with lc := .closed } = .closed ∧ State.lc { ready with lc := .unconfigured } = .unconfigured) ∧
      SequencerTurn ready.inbox :=
  ⟨⟨rfl, rfl, rfl, ⟨0x122#32, by simp, by simp [field]⟩, by simp [field], by simp [field], rfl, rfl⟩, .nil⟩

/-- 17 bytes for a device of 16. -/
theorem witness_CapacityExceeded :
    (small.lc = .ready ∧ small.ms = [] ∧ small.cfg.capacity < (List.replicate 17 0x5A#8).length ∧
      (List.replicate 17 0x5A#8).length < 2 ^ 24) ∧ SequencerTurn small.inbox := ⟨by decide, .nil⟩

theorem witness_Delays :
    (State.reset.lc = .unconfigured ∨ State.reset.lc = .ready) ∧ (ready.lc = .unconfigured ∨ ready.lc = .ready) ∧
      99 * Params.reference.tickHz < 10 ^ 9 ∧ Params.reference.tickHz = 10 ^ 7 ∧
      SequencerTurn State.reset.inbox ∧ SequencerTurn ready.inbox :=
  ⟨.inl rfl, .inr rfl, by decide, by decide, .nil, .nil⟩

theorem witness_TargetTicks : 0 < Params.reference.tickHz := by decide

theorem witness_SetAddr :
    ready.cfg.wf = true ∧ ready.lc = .ready ∧ (0x7FF#16).toNat < ready.cfg.capacity ∧
      (given ready (acks 4)).inbox = acks (addressCost ready 0x7FF) ++ [] ∧
      latched.inbox = acks (addressCost latched 0x7FF) ++ [] ∧ SequencerTurn [] :=
  ⟨by decide, rfl, by decide, by decide, by decide, .nil⟩

theorem witness_AddressLinesCarryTheAddress :
    latched.cfg.wf = true ∧ latched.lc = .ready ∧ (0#16).toNat < latched.cfg.capacity ∧
      ¬ (latched.cav = true ∧ latched.ca = 0) ∧ (latched.env.pin .latch).level = some .low ∧
      (given latched (acks 4)).inbox = acks 4 ++ [] ∧ SequencerTurn [] :=
  ⟨by decide, rfl, by decide, by decide, by decide, by decide, .nil⟩

theorem witness_SetAddrFails :
    ready.cfg.wf = true ∧ ready.lc = .ready ∧ (0x7FF#16).toNat < ready.cfg.capacity ∧ 0 < addressCost ready 0x7FF ∧
      3 < addressCost ready 0x7FF ∧ (given ready (acks 3 ++ [.reply true])).inbox = acks 3 ++ .reply true :: [] ∧
      SequencerTurn [] :=
  ⟨by decide, rfl, by decide, by decide, by decide, by decide, .nil⟩

theorem witness_BusSetters :
    ready.cfg.wf = true ∧ ready.lc = .ready ∧ (given ready (acks 8)).inbox = acks (modeCost ready .output) ++ [] ∧
      ready.inbox = acks (modeCost ready .input) ++ [] ∧ 7 < modeCost ready .output ∧
      (given ready (acks 1)).inbox = acks (outputEnableCost ready true) ++ [] ∧
      ready.inbox = acks (outputEnableCost ready false) ++ [] ∧ outputEnableCost ready true ≠ 0 ∧
      (given ready (acks 7 ++ [.reply true])).inbox = acks 7 ++ .reply true :: [] ∧ SequencerTurn [] :=
  ⟨by decide, rfl, by decide, by decide, by decide, by decide, by decide, by decide, by decide, .nil⟩

/-- A TransportFailure at a sample, a WriteTimeout at the restore of D7, a CapacityExceeded at the last payload word. -/
theorem witness_TakingAnError :
    (given (atRequest ready [.sample 3]) [.reply true]).ms = .sample 3 :: [] ∧
      MicroOp.nextRequest ready.cfg (.sample 3) = some (.digitalRead 8) ∧
      (atRequest small [.restoreBit7, .raiseTimeout, .respond .ok]).ms =
        .restoreBit7 :: .raiseTimeout :: [.respond .ok] ∧
      (atRequest small []).inbox = .reply false :: [] ∧
      State.ms { small with
        ms := [.takePayload 1], current := .command (.writeBlock 17), payload := List.replicate 16 0x5A#32
        port := [0#24 ++ 0x5A#8] } = .takePayload 1 :: [] ∧
      small.lc = .ready ∧ (∀ x ∈ List.replicate 16 0x5A#32, field x 8 24 = 0#24) ∧
      small.cfg.capacity < (List.replicate 16 0x5A#32).length + 1 ∧ SequencerTurn small.inbox ∧
      State.ms { small with ms := [.respond ErrorKind.transportFailure.status] } =
        .respond ErrorKind.transportFailure.status :: [] :=
  ⟨rfl, rfl, rfl, rfl, rfl, rfl, fun x hx => by rw [List.eq_of_mem_replicate hx]; rfl, by decide, .nil, rfl⟩

theorem witness_ReadReturnsTheByte :
    (given afterWrite (acks (readCost afterWrite 15))).Operational ∧ (15#16).toNat < afterWrite.cfg.capacity ∧
      (given afterWrite (acks (readCost afterWrite 15))).inbox = acks (readCost afterWrite 15) ++ [] ∧ SequencerTurn [] :=
  ⟨given_operational afterWrite_operational _, by decide, by decide, .nil⟩

/-- The last number of misses that `POLL_LIMIT = 2` allows; and with no limit. -/
theorem witness_WriteStoresTheByte :
    (given small (writeInputs (writeCost small 15) 1)).Operational ∧ (15#16).toNat < small.cfg.capacity ∧
      (∀ n, small.cfg.pollLimit = some n → 1 < n) ∧ (∀ n, ready.cfg.pollLimit = some n → 3 < n) ∧
      (given small (writeInputs (writeCost small 15) 1)).inbox = writeInputs (writeCost small 15) 1 ++ [] ∧
      SequencerTurn [] :=
  ⟨given_operational small_operational _, by decide, by simp [small, smallCfg, readyIn, State.afterReset],
    by simp [ready, readyIn, State.afterReset, Params.reference], by decide, .nil⟩

theorem witness_WriteTimesOut :
    (given small (acks (writeCost small 0 + 2 + 1))).Operational ∧ (0#16).toNat < small.cfg.capacity ∧
      small.cfg.pollLimit = some 2 ∧
      (given small (acks (writeCost small 0 + 2 + 1))).inbox = acks (writeCost small 0 + 2 + 1) ++ [] ∧ SequencerTurn [] :=
  ⟨given_operational small_operational _, by decide, rfl, by decide, .nil⟩

theorem witness_UnboundedPolling :
    (given ready (acks (writeCost ready 0x7FF + 5))).Operational ∧ (0x7FF#16).toNat < ready.cfg.capacity ∧
      ready.cfg.pollLimit = none ∧
      (given ready (acks (writeCost ready 0x7FF + 5))).inbox = acks (writeCost ready 0x7FF + 5) :=
  ⟨given_operational ready_operational _, by decide, rfl, rfl⟩

theorem witness_BulkOfNothing : ready.lc = .ready ∧ SequencerTurn ready.inbox := ⟨rfl, .nil⟩

/-- A whole small device. -/
theorem witness_WriteBlockStoresTheBlock :
    let data := List.replicate 16 0x5A#8
    let misses := List.replicate 16 1
    let s : State := { small with port := data.map (fun b => 0#24 ++ b), inbox := bulkWriteInputs small misses }
    s.Operational ∧ data.length = (16#24 : Count).toNat ∧ 1 ≤ data.length ∧ data.length ≤ s.cfg.capacity ∧
      misses.length = data.length ∧ (∀ m ∈ misses, ∀ l, s.cfg.pollLimit = some l → m < l) ∧
      s.port = data.map (fun b => 0#24 ++ b) ++ [] ∧ s.inbox = bulkWriteInputs s misses ++ [] ∧ SequencerTurn [] := by
  refine ⟨port_operational small_operational _ _, rfl, by decide, by decide, rfl, ?_, (List.append_nil _).symm,
    (List.append_nil _).symm, .nil⟩
  intro m hm l hl
  rw [List.eq_of_mem_replicate hm, ← Option.some.inj (show some 2 = some l from hl)]
  decide

theorem witness_PayloadWordIsTaken :
    State.ms { ready with ms := [.takePayload (0 + 1)] } = .takePayload (0 + 1) :: [] ∧ (∀ n k, ready.ms ≠ .takePayload n :: k) ∧
      SequencerTurn ready.inbox := ⟨rfl, by simp [ready, readyIn], .nil⟩

/-- A count above the device's size. -/
theorem witness_ClearErases :
    let misses := List.replicate 16 0
    let s := given small (bulkWriteInputs small misses)
    s.Operational ∧ 1 ≤ (0xFFFFFF#24).toNat ∧ misses.length = min (0xFFFFFF#24).toNat s.cfg.capacity ∧
      (∀ m ∈ misses, ∀ l, s.cfg.pollLimit = some l → m < l) ∧ s.inbox = bulkWriteInputs s misses ++ [] ∧
      SequencerTurn [] := by
  refine ⟨given_operational small_operational _, by decide, rfl, ?_, (List.append_nil _).symm, .nil⟩
  intro m hm l hl
  rw [List.eq_of_mem_replicate hm, ← Option.some.inj (show some 2 = some l from hl)]
  decide

/-- `DUMP 0` on the smallest device: one line. -/
theorem witness_DumpReportsTheBytes :
    let s := given small (acks (dumpCost small 1))
    s.Operational ∧ 1 = max 1 (min (0#24).toNat (s.cfg.capacity / 16)) ∧ s.inbox = acks (dumpCost s 1) ++ [] ∧
      SequencerTurn [] :=
  ⟨given_operational small_operational _, by decide, (List.append_nil _).symm, .nil⟩

theorem witness_DumpLineLayout : smallCfg.wf = true ∧ smallCfg.capacity ≤ 4096 ∧
    (Params.wf { Params.reference with capacity := 4096 }) = true := by decide

theorem witness_Setup :
    let s := given State.reset (acks 16)
    s.cfg.wf = true ∧ s.lc ≠ .closed ∧ s.inbox = acks 16 ++ [] ∧ SequencerTurn [] ∧
      (given State.reset (acks 15 ++ [.reply true])).inbox = acks 15 ++ .reply true :: [] :=
  ⟨by decide, by decide, by decide, .nil, by decide⟩

theorem witness_CloseReleases : State.reset.lc ≠ .closed ∧ ready.lc ≠ .closed ∧ SequencerTurn ready.inbox :=
  ⟨by decide, by decide, .nil⟩

theorem witness_AutomaticSetup : smallCfg.wf = true ∧ 15 < 16 ∧ SequencerTurn (acks 3) :=
  ⟨by decide, by decide, .reply _ _⟩

/-- The last step of a WRITE on `S0`: everything but the response is done. -/
def answeringWrite : State :=
  { afterWrite with current := .command (.write 15 0x80), ms := [.respond .ok], issued := true }

/-- A WRITE in its polling, its write cycle running. -/
def polling : State :=
  { afterWrite with
    current := .command (.write 15 0x80), ms := [.pollRead, .respond .ok], issued := true
    env := { afterWrite.env with busy := some ⟨15, 0x80⟩ } }

/-- R191, R225: a polling read that fails leaves the write cycle running with any byte or over, at its own address. -/
theorem test_failed_poll_draws_the_cycle :
    (nextState (step (given polling [.reply true]))).map (fun t => t.env.busy) =
      some (if Config.freeBit 0 0 then some ⟨15, Config.freeByte 0 2⟩ else none) := rfl

/-- 95_test_vectors.md P4: a WRITE that fails at `DW(D3, L)` has issued no write pulse, "so `MEM[0x010]` is unchanged". -/
theorem test_failed_data_line_leaves_the_byte :
    (nextState (step { ready with
      current := .command (.write 0x010 0x42), inbox := [.reply true]
      ms := [digitalWriteOp ready.cfg (.d 3) .low, digitalWriteOp ready.cfg .we .low, digitalWriteOp ready.cfg .we .high,
        .pollRead, .restoreBit7, .respond .ok] })).map (fun t => (t.env.mem, t.env.busy, (t.env.pin (.d 3)).level)) =
      some (ready.env.mem, none, none) := by decide

/-- R305: so does reset during the polling. -/
theorem test_reset_while_polling_draws_the_cycle :
    (nextState (step (given polling [.reset]))).map (fun t => t.env.busy) =
      some (if Config.freeBit 0 0 then some ⟨15, Config.freeByte 0 2⟩ else none) := rfl

/-- R29: `ISSUED` is reported and not kept. -/
theorem test_issued_is_not_kept :
    (nextState (step answeringWrite)).map (fun t => (t.issued, t.trace)) = some (false, [.response 0x00000100#32]) := by
  decide

theorem witness_Reset :
    (given latched [.reset, .pass]).inbox = .reset :: [.pass] ∧ (given latched [.reset]).ms = [] ∧
      State.pastWriteLow { ready with ms := [.request (.shiftOut 2 3 .msbFirst 0)] } = false ∧
      polling.pastWriteLow = true ∧ answeringWrite.pastWriteLow = true ∧
      (∀ l, polling.ms.head?.bind (MicroOp.nextRequest polling.cfg) ≠ some (.digitalWrite (pinOf polling.cfg .we) l)) ∧
      answeringWrite.ms.head?.bind (MicroOp.nextRequest answeringWrite.cfg) = none :=
  ⟨rfl, rfl, by decide, by decide, by decide, fun l => by cases l <;> decide, by decide⟩

/-- For each request a state at it, the transport acknowledging it. -/
theorem witness_Requests :
    (atRequest ready [.request (.setPinMode (pinOf ready.cfg (.d 7)) .output)]).ms =
        .request (.setPinMode (pinOf ready.cfg (.d 7)) .output) :: [] ∧
      (atRequest ready [.restoreBit7]).ms = .restoreBit7 :: [] ∧
      (atRequest ready [.request (.digitalWrite (pinOf ready.cfg .we) .high)]).ms =
        .request (.digitalWrite (pinOf ready.cfg .we) .high) :: [] ∧
      (atRequest latched [.request (.shiftOut (pinOf ready.cfg .sd) (pinOf ready.cfg .sc) .msbFirst 0xFF)]).ms =
        .request (.shiftOut (pinOf ready.cfg .sd) (pinOf ready.cfg .sc) .msbFirst 0xFF) :: [] ∧
      latched.env.shift.value = some 0x7FF ∧ ready.cfg.wf = true ∧ roleOf ready.cfg 15 = none ∧
      (atRequest ready [.request (.setPinMode 15 .output)]).ms = .request (.setPinMode 15 .output) :: [] ∧
      (atRequest ready [.request (.digitalRead 2)]).ms = .request (.digitalRead 2) :: [] ∧
      ¬ ((3 : Pin) = pinOf ready.cfg .sd ∧ (2 : Pin) = pinOf ready.cfg .sc) ∧
      (atRequest ready [.request (.shiftOut 3 2 .msbFirst 0)]).ms = .request (.shiftOut 3 2 .msbFirst 0) :: [] ∧
      (atRequest ready []).inbox = .reply false :: [] := by decide

/-- A sample under R67 and a polling read under R69. -/
theorem witness_DigitalReadRequest :
    (atRequest reading [.sample 7]).ms = .sample 7 :: [] ∧ (atRequest reading [.pollRead]).ms = .pollRead :: [] ∧
      reading.env.pin .oe = ⟨some .output, some .low⟩ ∧ (reading.env.pin (.d 7)).mode = some .input ∧
      (reading.env.pin .we).level = some .high ∧ reading.env.busy = none ∧ reading.env.latch = some 5 ∧
      Env.busy { reading.env with busy := some ⟨5, 0x80⟩ } = some ⟨5, 0x80⟩ := by decide

/-- The environment just before a write pulse. -/
def beforePulse : Env :=
  { afterWrite.env with
    pins := (afterWrite.env.pins.set 11 ⟨some .output, some .low⟩).set 12 ⟨some .output, some .high⟩ }

theorem witness_LatchAndWriteEnableEdges :
    (latched.env.pin .latch).level = some .low ∧ (Env.powerUp.pin .latch).level = none ∧ ready.env.shift.value = none ∧
      (beforePulse.pin .we).level = some .low ∧ (beforePulse.pin .oe).mode = some .output ∧
      (beforePulse.pin .oe).level = some .high ∧ beforePulse.busy = none ∧ beforePulse.latch = some 15 ∧
      (∀ i, (beforePulse.pin (.d i)).mode = some .output) ∧ smallCfg.wf = true := by decide

/-- The other write pulses: OE low and Unknown, OE high in an input, and a cycle in progress. -/
theorem witness_LatchAndWriteEnableEdges_other :
    (∀ l ∈ [some Level.low, none], let e := beforePulse.setLevel .oe l;
      (e.pin .we).level = some .low ∧ e.busy = none ∧ (e.pin .oe).level ≠ some .high) ∧
    (let e := beforePulse.setMode .oe (some .input);
      (e.pin .we).level = some .low ∧ e.busy = none ∧ (e.pin .oe).level = some .high ∧ (e.pin .oe).mode ≠ some .output) ∧
    (Env.pin { beforePulse with busy := some ⟨5, 0x80⟩ } .we).level = some .low := by decide

/-- Both sides of each clause: LATCH high with `SR` known, and LATCH low; WE high, low and Unknown; past the `DW(WE, L)` of a
write, and not. -/
theorem witness_ErroredRequests :
    (latched.env.pin .latch).level ≠ some .high ∧ latched.env.shift.value ≠ none ∧
      ((Env.setLevel latched.env .latch (some .high)).pin .latch).level = some .high ∧
      (ready.env.pin .we).level = some .high ∧ (beforePulse.pin .we).level ≠ some .high ∧
      (Env.powerUp.pin .we).level ≠ some .high ∧ beforePulse.busy = none ∧ ready.cfg.wf = true ∧
      polling.pastWriteLow = true ∧ ready.pastWriteLow = false ∧ polling.cfg.wf = true ∧
      polling.env.busy = some ⟨15, 0x80⟩ ∧ polling.pendingRequest = some (.digitalRead 12) ∧
      (let s : State := { polling with ms := digitalWriteOp polling.cfg .we .high :: polling.ms, env := beforePulse };
        s.pastWriteLow = true ∧ s.pendingRequest = some (.digitalWrite (pinOf s.cfg .we) .high) ∧
          (s.env.pin .we).level ≠ some .high) := by decide

theorem witness_WriteCycleCompletes :
    let e : Env := { reading.env with busy := some ⟨5, 0x80⟩ }
    let s : State := { reading with env := e, inbox := [.complete] }
    s.inbox = .complete :: [] ∧ s.env.busy = some ⟨5, 0x80⟩ ∧ e.completeCycle.addressLines s.cfg = 5 ∧
      e.completeCycle.latch ≠ none ∧ e.completeCycle.pin .oe = ⟨some .output, some .low⟩ ∧
      (e.completeCycle.pin .we).level = some .high ∧ (e.completeCycle.pin (.d 7)).mode = some .input := by decide

/-- The device's step after a WriteTimeout at address 15, and where none has happened. -/
theorem witness_WriteCycleCompletes_timeout :
    let s : State := { polling with ms := [.raiseTimeout, .respond .ok] }
    s.settled.env.suspect = some 15 ∧ ready.env.suspect = none ∧ (given ready [.deviceFault]).inbox = .deviceFault :: [] := by
  decide

theorem witness_StepKeepsInvariant : ready.Inv ∧ ∃ t, step (given ready [.hostWord 0x10000000#32]) = .next t :=
  ⟨ready_inv, _, rfl⟩

theorem witness_ConfigurationNeverChanges : ∃ t, step (given ready [.reset]) = .next t := ⟨_, rfl⟩

/-- CLOSE changes `LC` in one step. -/
theorem witness_LifecycleChanges :
    ready.Inv ∧ (nextState (step { ready with port := [0xD0000000#32] })).map (fun t => decide (t.lc ≠ ready.lc)) = some true :=
  ⟨ready_inv, by decide⟩

/-- The last request of a SetAddress; and its settle delay, where there is one. -/
theorem witness_AddressCacheIsSetLast :
    ready.cav = false ∧
      (nextState (step (atRequest ready [.request (.digitalWrite 4 .low), .latched 5, .respond .ok]))).map State.cav =
        some true ∧
      (nextState (step (atRequest ready [.delay .us 5, .latched 5, .respond .ok]))).map State.cav = some true := by decide

/-- The invariant allows `CA <- a` there. -/
theorem witness_LatchedLast :
    LatchedLast Params.reference [.request (.digitalWrite 4 .low), .latched 5, .respond .ok] ∧
      LatchedLast { Params.reference with tSettleUs := 5 } [.delay .us 5, .latched 5, .respond .ok] := by
  constructor <;> intro a ha <;> obtain rfl : a = 5 := by simpa using ha
  · exact ⟨[.request (.digitalWrite 4 .low), .latched 5], [.respond .ok], rfl, by decide, by decide, by simp⟩
  · exact ⟨[.delay .us 5, .latched 5], [.respond .ok], rfl, by decide, by decide, by simp⟩

theorem witness_OnlyAddressedBytesChange :
    (nextState (step { reading with env := { reading.env with busy := some ⟨5, 0x80⟩ }, inbox := [.complete] })).map
      (fun t => decide (t.env.byteAt 5 ≠ reading.env.byteAt 5)) = some true := by decide

/-- A polling read that fails. -/
theorem witness_OnlyAddressedBytesChange_failure :
    (given polling [.reply true]).settled.pastWriteLow = true ∧ (given polling [.reply true]).inbox = .reply true :: [] := by
  decide

/-- Two environments that answer the pending read alike. -/
theorem witness_SequencerSeesOnlyResponses :
    State.pendingRequest (atRequest reading [.sample 5]) = some (.digitalRead 10) ∧
      reading.env.answer reading.cfg (.digitalRead 10) =
        Env.answer reading.cfg { reading.env with mem := [(5, 0x20)] } (.digitalRead 10) := by decide

/-- SET_ADDR from `S0`; the WRITE is that of `witness_WriteStoresTheByte`. -/
theorem witness_PulseWidths :
    ready.cfg.wf = true ∧ ready.lc = .ready ∧ (0x7FF#16).toNat < ready.cfg.capacity ∧
      ¬ (ready.cav = true ∧ ready.ca = 0x7FF) ∧ (given ready (acks 4)).inbox = acks 4 ++ [] ∧ SequencerTurn [] :=
  ⟨by decide, rfl, by decide, by decide, by decide, .nil⟩

theorem witness_WriteThenReadReturnsTheByte :
    let ws := [encode (.write 15 0xA5), encode (.read 15)]
    let s : State := { small with port := ws, inbox := writeInputs (writeCost small 15) 1 ++ acks 16 }
    s.Operational ∧ s.Idle ∧ (15#16).toNat < s.cfg.capacity ∧ (∀ n, s.cfg.pollLimit = some n → 1 < n) ∧
      s.port = encode (.write 15 0xA5) :: encode (.read 15) :: [] ∧
      s.inbox = writeInputs (writeCost s 15) 1 ++ acks 16 ++ [] ∧ SequencerTurn [] :=
  ⟨port_operational small_operational _ _, ⟨rfl, rfl⟩, by decide,
    by simp [small, smallCfg, readyIn, State.afterReset], rfl, (List.append_nil _).symm, .nil⟩

end Sys2Proof.Tests
end

section
/-! PROOF. Every step keeps the invariant. The clauses of `State.Inv` fall in three parts, and each operation of the model is
shown to keep each part: what the machine holds (`State.Kept`), what the procedure in progress may consist of (`Fitting`, one
micro-step at a time), and where `CA <- a` stands in it (`LatchedLast`, whose laws are in Laws/Step.lean). -/

namespace Sys2Proof.Machine

/-! What a procedure in progress may consist of. -/

/-- What the invariant asks of one micro-step of the procedure of `a` while `LC` is `lc`. -/
structure MicroOp.Fits (cfg : Params) (a : Activity) (lc : Lifecycle) (op : MicroOp) : Prop where
  inRange : op.inRange cfg
  bySetup : (∃ l, op = .lifecycle l) ∨ op = .setup → a = .command .setup ∨ a = .automaticSetup
  ifClosed : lc = .closed → (∃ st, op = .respond st) ∨ ∃ n, op = .takePayload n

/-- Every micro-step of a procedure fits. -/
def Fitting (cfg : Params) (a : Activity) (lc : Lifecycle) (ops : List MicroOp) : Prop :=
  ∀ op ∈ ops, op.Fits cfg a lc

section Fitting

variable {cfg : Params} {a : Activity} {lc : Lifecycle} {op : MicroOp} {ops k : List MicroOp}

@[simp] theorem fitting_nil : Fitting cfg a lc [] := by simp [Fitting]

@[simp] theorem fitting_cons : Fitting cfg a lc (op :: k) ↔ op.Fits cfg a lc ∧ Fitting cfg a lc k := by
  simp [Fitting]

@[simp] theorem fitting_append : Fitting cfg a lc (ops ++ k) ↔ Fitting cfg a lc ops ∧ Fitting cfg a lc k := by
  simp [Fitting, or_imp, forall_and]

@[simp] theorem MicroOp.fits_respond (st : Status) : (MicroOp.respond st).Fits cfg a lc :=
  ⟨trivial, by simp, fun _ => .inl ⟨st, rfl⟩⟩

@[simp] theorem MicroOp.fits_takePayload (n : Nat) : (MicroOp.takePayload n).Fits cfg a lc :=
  ⟨trivial, by simp, fun _ => .inr ⟨n, rfl⟩⟩

/-- A micro-step that a CLOSED block does not have shows that the block is not CLOSED. -/
theorem MicroOp.Fits.not_closed (h : op.Fits cfg a lc) (h1 : ∀ st, op ≠ .respond st) (h2 : ∀ n, op ≠ .takePayload n) :
    lc ≠ .closed := fun hc =>
  (h.ifClosed hc).elim (fun ⟨st, he⟩ => h1 st he) fun ⟨n, he⟩ => h2 n he

/-- `LC <- READY` (R250) makes nothing unfit. -/
theorem Fitting.ready (h : Fitting cfg a lc ops) : Fitting cfg a .ready ops := fun op hop =>
  ⟨(h op hop).inRange, (h op hop).bySetup, by simp⟩

end Fitting

section Procedures

variable {cfg : Params} {a : Activity} {lc : Lifecycle} (hlc : lc ≠ .closed)
include hlc

/-- While `LC` is not CLOSED, nothing is asked but the device addresses and whose Setup it is. -/
theorem MicroOp.fits_iff {op : MicroOp} : op.Fits cfg a lc ↔
    op.inRange cfg ∧ ((∃ l, op = .lifecycle l) ∨ op = .setup → a = .command .setup ∨ a = .automaticSetup) :=
  ⟨fun h => ⟨h.inRange, h.bySetup⟩, fun h => ⟨h.1, h.2, fun hc => absurd hc hlc⟩⟩

theorem optionalDelay_fitting (kind : DelayKind) (n : Nat) : Fitting cfg a lc (optionalDelay kind n) := by
  unfold optionalDelay
  split <;> simp [MicroOp.fits_iff hlc, MicroOp.inRange]

theorem setupOps_fitting (ha : a = .command .setup ∨ a = .automaticSetup) : Fitting cfg a lc (setupOps cfg) := by
  simp [setupOps, MicroOp.fits_iff hlc, MicroOp.inRange, digitalWriteOp, setPinModeOp, ha]

theorem loadOps_fitting {x : Address} (hx : x.toNat < cfg.capacity) : Fitting cfg a lc (loadOps cfg x) := by
  simp [loadOps, optionalDelay_fitting hlc, MicroOp.fits_iff hlc, MicroOp.inRange, digitalWriteOp, shiftOutOp, hx]

theorem setModeOps_fitting (d : PinMode) : Fitting cfg a lc (setModeOps cfg d) := by
  simp [setModeOps, MicroOp.fits_iff hlc, MicroOp.inRange, setPinModeOp]

theorem setOutputEnabledOps_fitting (e : Bool) : Fitting cfg a lc (setOutputEnabledOps cfg e) := by
  simp [setOutputEnabledOps, MicroOp.fits_iff hlc, MicroOp.inRange, digitalWriteOp]

theorem readByteOps_fitting {x : Address} (hx : x.toNat < cfg.capacity) : Fitting cfg a lc (readByteOps x) := by
  simp [readByteOps, MicroOp.fits_iff hlc, MicroOp.inRange, hx]

theorem writeByteOps_fitting {x : Address} (hx : x.toNat < cfg.capacity) (v : Byte) :
    Fitting cfg a lc (writeByteOps cfg x v) := by
  simp [writeByteOps, pollOps, optionalDelay_fitting hlc, MicroOp.fits_iff hlc, MicroOp.inRange, digitalWriteOp,
    setPinModeOp, hx]

theorem dumpRowOps_fitting {r : BulkIndex} (hr : ∀ j < 16, (rowAddress r j).toNat < cfg.capacity) :
    Fitting cfg a lc (dumpRowOps r) := by
  have hread : Fitting cfg a lc ((List.range 16).flatMap fun j => readByteOps (rowAddress r j) ++ [.storeRow]) := by
    intro op hop
    obtain ⟨j, hj, hop⟩ := List.mem_flatMap.1 hop
    have hrow : Fitting cfg a lc (readByteOps (rowAddress r j) ++ [.storeRow]) := by
      simp [readByteOps_fitting hlc (hr j (List.mem_range.1 hj)), MicroOp.fits_iff hlc, MicroOp.inRange]
    exact hrow op hop
  simp only [dumpRowOps, fitting_append, fitting_cons, hread]
  simp [MicroOp.fits_iff hlc, MicroOp.inRange]

theorem bulkOps_fitting {kind : BulkKind} {n : Nat} (h : (MicroOp.loop kind n).inRange cfg) :
    Fitting cfg a lc (bulkOps kind n) := by
  simp only [bulkOps, fitting_cons, MicroOp.fits_iff hlc, h]
  simp [MicroOp.inRange]

/-- An iteration of a bulk loop that stays in the device names device addresses only (R220, R222, R223). -/
theorem iterationOps_fitting {kind : BulkKind} {n : Nat} {s : State} (hc : s.cfg.wf = true)
    (hin : (MicroOp.loop kind n).inRange s.cfg) (hn : s.bi.toNat < n) : Fitting s.cfg a lc (iterationOps kind s) := by
  have hcap := (capacity_bounds hc).2
  have hbulk : n ≤ s.cfg.capacity → (bulkAddress s.bi).toNat < s.cfg.capacity := fun h => by
    rw [bulkAddress, BitVec.toNat_setWidth, Nat.mod_eq_of_lt (by omega)]
    omega
  cases kind with
  | block => exact writeByteOps_fitting hlc (hbulk hin) _
  | clear => exact writeByteOps_fitting hlc (hbulk hin) _
  | dump =>
    have hrow : 16 * n ≤ s.cfg.capacity := hin
    refine dumpRowOps_fitting hlc fun j hj => ?_
    rw [rowAddress, BitVec.toNat_ofNat, Nat.mod_eq_of_lt (by omega)]
    omega

end Procedures

/-- Silent micro-steps leave a procedure that fits (R32). -/
theorem settle_fitting (ops : List MicroOp) (s : State) (h : Fitting s.cfg s.current s.lc ops) :
    Fitting s.cfg s.current (settle ops s).lc (settle ops s).ms := by
  induction ops generalizing s with
  | nil => exact fitting_nil
  | cons op k ih =>
    obtain ⟨hop, hk⟩ := fitting_cons.1 h
    cases op with
    | lifecycle l =>
      obtain rfl : l = .ready := hop.inRange
      exact ih { s with lc := .ready } hk.ready
    | setup =>
      exact fitting_append.2 ⟨setupOps_fitting (hop.not_closed nofun nofun) (hop.bySetup (.inr rfl)), hk⟩
    | setAddress a =>
      simp only [settle]
      split
      · exact ih s hk
      · exact fitting_append.2 ⟨loadOps_fitting (hop.not_closed nofun nofun) hop.inRange, hk⟩
    | setMode d =>
      simp only [settle]
      split
      · exact ih s hk
      · exact fitting_append.2 ⟨setModeOps_fitting (hop.not_closed nofun nofun) d, hk⟩
    | setOutputEnabled e =>
      simp only [settle]
      split
      · exact ih s hk
      · exact fitting_append.2 ⟨setOutputEnabledOps_fitting (hop.not_closed nofun nofun) e, hk⟩
    | driveBit i =>
      have hlc := hop.not_closed nofun nofun
      simp [settle, digitalWriteOp, MicroOp.fits_iff hlc, MicroOp.inRange, hk]
    | raiseTimeout => simp [settle]
    | request _ | sample _ | pollRead | restoreBit7 | delay _ _ | respond _ | respondByte | takePayload _ | loop _ _ =>
      exact h
    | _ => exact ih _ hk

/-- Going on with a procedure leaves one that fits: a bulk loop stays in the device. -/
theorem resume_fitting {ops : List MicroOp} {s : State} (hc : s.cfg.wf = true)
    (h : Fitting s.cfg s.current s.lc ops) : Fitting s.cfg s.current (resume ops s).lc (resume ops s).ms := by
  have hs := settle_fitting ops s h
  have hq := settle_quiet ops s
  rw [← hq.cfg] at hc
  rw [← hq.cfg, ← hq.current] at hs ⊢
  unfold resume enterLoop
  split
  · rename_i kind n k hm
    rw [hm] at hs
    obtain ⟨hop, hk⟩ := fitting_cons.1 hs
    have hlc := hop.not_closed nofun nofun
    split
    · refine settle_fitting _ _ (fitting_append.2 ⟨iterationOps_fitting hlc hc hop.inRange ‹_›, fitting_cons.2 ⟨?_, hs⟩⟩)
      simp [MicroOp.fits_iff hlc, MicroOp.inRange]
    · exact settle_fitting _ _ hk
  · exact hs

/-! The parts of the invariant that are not about the procedure in progress. -/

/-- What the invariant says of the configuration, the device and the address cache. -/
structure State.Kept (s : State) : Prop where
  config : s.cfg.wf = true
  device : s.env.InDevice s.cfg
  cacheInRange : s.cav = true → s.ca.toNat < s.cfg.capacity

theorem State.inv_iff {s : State} : s.Inv ↔ s.Kept ∧ Fitting s.cfg s.current s.lc s.ms ∧ LatchedLast s.cfg s.ms ∧
    (s.current = .idle → s.ms = [] ∧ s.issued = false ∧ s.payload = [] ∧ s.row = []) := by
  constructor
  · intro h
    refine ⟨⟨h.config, ⟨h.memory, h.memoryInRange, h.cycleInRange, h.suspectInRange⟩, h.cacheInRange⟩, ?_,
      h.latchedLast, h.idleIsClear⟩
    refine fun op hop => ⟨h.procedureInRange op hop, fun hl => h.lifecycleBySetup ?_, fun hc => h.closedIsSilent hc op hop⟩
    rcases hl with ⟨l, rfl⟩ | rfl
    · exact .inl ⟨l, hop⟩
    · exact .inr hop
  · rintro ⟨hs, hf, hl, hi⟩
    refine ⟨hs.config, hs.device.memory, hs.device.memoryInRange, hs.device.cycleInRange, hs.device.suspectInRange,
      hs.cacheInRange, fun op hop => (hf op hop).inRange, ?_, fun hc op hop => (hf op hop).ifClosed hc, hl, hi⟩
    rintro (⟨l, hop⟩ | hop)
    · exact (hf _ hop).bySetup (.inl ⟨l, rfl⟩)
    · exact (hf _ hop).bySetup (.inr rfl)

section Inv

variable {s t : State} {op : MicroOp} {ops k : List MicroOp}

theorem State.Inv.kept (h : s.Inv) : s.Kept := (State.inv_iff.1 h).1

theorem State.Inv.fitting (h : s.Inv) : Fitting s.cfg s.current s.lc s.ms := (State.inv_iff.1 h).2.1

theorem State.Inv.not_idle (h : s.Inv) (hm : s.ms ≠ []) : s.current ≠ .idle := fun hc => hm (h.idleIsClear hc).1

theorem State.Kept.congr (h : s.Kept) (h1 : t.cfg = s.cfg) (h2 : t.env = s.env) (h3 : t.ca = s.ca) (h4 : t.cav = s.cav) :
    t.Kept :=
  ⟨h1 ▸ h.config, by rw [h1, h2]; exact h.device, by rw [h1, h3, h4]; exact h.cacheInRange⟩

/-- A step that leaves the sequencer's procedure, its caches and `LC` alone. -/
theorem State.Inv.update (h : s.Inv) (he : t.env.InDevice s.cfg) (h1 : t.cfg = s.cfg) (h2 : t.lc = s.lc) (h3 : t.ca = s.ca)
    (h4 : t.cav = s.cav) (h5 : t.ms = s.ms) (h6 : t.current = s.current)
    (hi : s.current = .idle → t.issued = false ∧ t.payload = [] ∧ t.row = []) : t.Inv := by
  refine State.inv_iff.2 ⟨⟨h1 ▸ h.config, h1 ▸ he, by rw [h1, h3, h4]; exact h.cacheInRange⟩, ?_, ?_, ?_⟩
  · rw [h1, h2, h5, h6]; exact h.fitting
  · rw [h1, h5]; exact h.latchedLast
  · rw [h5, h6]; exact fun hc => ⟨(h.idleIsClear hc).1, hi hc⟩

/-- A command that has only its response left (R272, R276) or waits for its payload (R254), whatever `LC` is. -/
theorem State.Kept.inv_waiting (h : s.Kept) (h1 : t.cfg = s.cfg) (h2 : t.env = s.env) (h3 : t.ca = s.ca)
    (h4 : t.cav = s.cav) (ha : t.current ≠ .idle)
    (hm : (∃ st, t.ms = [.respond st]) ∨ ∃ n, t.ms = [.takePayload n]) : t.Inv := by
  refine State.inv_iff.2 ⟨h.congr h1 h2 h3 h4, ?_, .of_free ?_, fun hc => absurd hc ha⟩ <;>
    rcases hm with ⟨st, hm⟩ | ⟨n, hm⟩ <;> simp [hm]

/-! Going on with a procedure. -/

theorem resume_kept (h : s.Kept) (hf : Fitting s.cfg s.current s.lc ops) : (resume ops s).Kept := by
  have hq := resume_quiet ops s
  refine ⟨hq.cfg ▸ h.config, ?_, fun hc => ?_⟩
  · rw [hq.cfg]
    rcases hq.env with he | ⟨he, -⟩ <;> rw [he]
    · exact h.device
    · refine ⟨h.device.memory, h.device.memoryInRange, h.device.cycleInRange, fun a ha => ?_⟩
      obtain rfl := Option.some.inj ha
      exact h.device.writtenAddress_lt h.config
  · rw [hq.cfg]
    rcases hq.cav hc with ⟨hcav, hca⟩ | hl
    · exact hca ▸ h.cacheInRange hcav
    · exact (hf _ hl).inRange

theorem resume_inv (h : s.Kept) (ha : s.current ≠ .idle) (hf : Fitting s.cfg s.current s.lc ops)
    (hl : LatchedLast s.cfg (resume ops s).ms) : (resume ops s).Inv := by
  have hq := resume_quiet ops s
  refine State.inv_iff.2 ⟨resume_kept h hf, ?_, ?_, ?_⟩
  · rw [hq.cfg, hq.current]; exact resume_fitting h.config hf
  · rw [hq.cfg]; exact hl
  · rw [hq.current]; exact fun hc => absurd hc ha

/-- A procedure that has no SetAddress in progress goes on. -/
theorem resume_inv_of_free (h : s.Kept) (ha : s.current ≠ .idle) (hf : Fitting s.cfg s.current s.lc ops)
    (hl : ∀ a, MicroOp.latched a ∉ ops) : (resume ops s).Inv :=
  resume_inv h ha hf (resume_latchedLast ops s hl)

/-- A procedure goes on after its first micro-step. -/
theorem resume_inv_tail (h : s.Kept) (ha : s.current ≠ .idle) (hf : Fitting s.cfg s.current s.lc (op :: k))
    (hl : LatchedLast s.cfg (op :: k)) : (resume k s).Inv :=
  resume_inv h ha (fitting_cons.1 hf).2 (resume_latchedLast_tail hl)

/-- A procedure that is at neither a request of fixed pins nor a delay is not inside a SetAddress (R140). -/
theorem LatchedLast.free {cfg : Params} (h : LatchedLast cfg (op :: k)) (h1 : ∀ r, op ≠ .request r)
    (h2 : ∀ d n, op ≠ .delay d n) (a : Address) : MicroOp.latched a ∉ op :: k := by
  intro ha
  obtain ⟨ops, k', he, hs, hl, -⟩ := h a ha
  obtain ⟨init, rfl, hx⟩ := suffix_loadOps hs (by rintro rfl; simp at hl)
  cases init with
  | nil => simp at hl
  | cons x init =>
    simp only [List.cons_append, List.cons.injEq] at he
    rcases hx op (by simp [he.1]) with ⟨r, hr⟩ | ⟨d, n, hd⟩
    · exact h1 r hr
    · exact h2 d n hd

/-- Carrying the pending silent micro-steps out keeps the invariant (R302). -/
theorem State.Inv.settled (h : s.Inv) : s.settled.Inv := by
  by_cases hm : s.ms = []
  · have : s.settled = s := by rw [State.settled, hm, resume_nil, ← hm]
    rwa [this]
  · by_cases hl : ∀ a, MicroOp.latched a ∉ s.ms
    · exact resume_inv_of_free h.kept (h.not_idle hm) h.fitting hl
    · obtain ⟨a, ha⟩ : ∃ a, MicroOp.latched a ∈ s.ms := by simpa using hl
      rwa [h.latchedLast.settled ha]

/-! The acceptance of a word (R254). -/

/-- The gates refuse, or the command's own pseudocode runs (R253, R278). -/
theorem gate_inv {i : Instr} {run : State → State} (h : s.Kept) (ha : s.current ≠ .idle)
    (hr : s.lc ≠ .closed → addressOutOfRange s.cfg i = false → (run s).Inv) : (gate i s run).Inv := by
  have refused : ∀ st, (s.refuse st).Inv := fun st => h.inv_waiting rfl rfl rfl rfl ha (.inl ⟨st, rfl⟩)
  unfold gate
  split
  · exact refused _
  · split
    · exact refused _
    · split
      · exact refused _
      · exact hr ‹_› (Bool.eq_false_iff.2 ‹_›)

theorem accept_inv {i : Instr} (h : s.Kept) (hs : accept i s (resume ops) = .next t)
    (hf : s.lc ≠ .closed → addressOutOfRange s.cfg i = false → Fitting s.cfg (.command i) s.lc ops)
    (hl : ∀ a, MicroOp.latched a ∉ ops) : t.Inv := by
  cases hs
  have hk : State.Kept { s with issued := false, current := .command i } := h.congr rfl rfl rfl rfl
  exact gate_inv hk (by simp) fun hlc ha => resume_inv_of_free hk (by simp) (hf hlc ha) hl

theorem refuseReserved_inv {a : Activity} (h : s.Kept) (ha : a ≠ .idle) : (s.refuseReserved a).Inv :=
  h.inv_waiting rfl rfl rfl rfl ha (.inl ⟨_, rfl⟩)

/-- WRITE_BLOCK after its gates: refused where the block is longer than the device (R220, R274). -/
theorem writeBlock_inv (h : s.Kept) (ha : s.current ≠ .idle) (hlc : s.lc ≠ .closed) : (writeBlock s).Inv := by
  unfold writeBlock
  split
  · exact h.inv_waiting rfl rfl rfl rfl ha (.inl ⟨_, rfl⟩)
  · rename_i hn
    refine resume_inv_of_free h ha ?_ (by simp [bulkOps])
    simp [bulkOps_fitting hlc (kind := .block) (Nat.not_lt.1 hn)]

theorem beginWriteBlock_inv (h : s.Kept) (ha : s.current ≠ .idle) : (beginWriteBlock s).Inv := by
  have hk : State.Kept { s with issued := false } := h.congr rfl rfl rfl rfl
  unfold beginWriteBlock
  simp only []
  split
  · exact hk.inv_waiting rfl rfl rfl rfl ha (.inl ⟨_, rfl⟩)
  · exact gate_inv hk ha fun hlc _ => writeBlock_inv hk ha hlc

theorem acceptWriteBlock_inv {a : Activity} (h : s.Kept) (ha : a ≠ .idle) (n : Nat) : (acceptWriteBlock a n s).Inv := by
  unfold acceptWriteBlock
  split
  · exact beginWriteBlock_inv (h.congr rfl rfl rfl rfl) ha
  · exact h.inv_waiting rfl rfl rfl rfl ha (.inr ⟨_, rfl⟩)

theorem acceptReserved_inv (h : s.Kept) (w : Word) : (acceptReserved w s).Inv := by
  unfold acceptReserved
  split
  · exact acceptWriteBlock_inv h (by simp) _
  · exact refuseReserved_inv h nofun

theorem takePayloadWord_inv (h : s.Kept) (ha : s.current ≠ .idle) (w : Word) : (takePayloadWord w s).Inv := by
  unfold takePayloadWord
  split
  · split
    · exact beginWriteBlock_inv (h.congr rfl rfl rfl rfl) ha
    · exact h.inv_waiting rfl rfl rfl rfl ha (.inr ⟨_, rfl⟩)
  · exact refuseReserved_inv h nofun

/-- DUMP's count is clamped to the rows of the device (R223). -/
theorem clampLines_le {cfg : Params} (hc : cfg.wf = true) (l : Count) : 16 * clampLines cfg l ≤ cfg.capacity := by
  have := (capacity_bounds hc).1
  simp only [clampLines]
  omega

/-- The acceptance of any command of the table leaves the invariant. -/
theorem exec_command_inv {i : Instr} (hi : i.stream = .command) (h : s.Kept) (hs : exec i s = .next t) : t.Inv := by
  cases i with
  | setup | setMode _ | setOe _ | delayNs _ | delayUs _ | delayMs _ =>
    exact accept_inv h hs (fun hlc _ => by simp [MicroOp.fits_iff hlc, MicroOp.inRange]) (by simp)
  | setAddr a =>
    refine accept_inv h hs (fun hlc ha => ?_) (by simp)
    have ha : a.toNat < s.cfg.capacity := by simpa [addressOutOfRange] using ha
    simp [MicroOp.fits_iff hlc, MicroOp.inRange, ha]
  | read a =>
    refine accept_inv (i := .read a) (ops := readByteOps a ++ [MicroOp.respondByte]) h hs (fun hlc ha => ?_)
      (by simp [readByteOps])
    have ha : a.toNat < s.cfg.capacity := by simpa [addressOutOfRange] using ha
    simp [readByteOps_fitting hlc ha, MicroOp.fits_iff hlc, MicroOp.inRange]
  | write a v =>
    refine accept_inv (i := .write a v) (ops := writeByteOps s.cfg a v ++ [MicroOp.respond .ok]) h hs (fun hlc ha => ?_)
      (by simp [writeByteOps, pollOps, optionalDelay, setPinModeOp, digitalWriteOp])
    have ha : a.toNat < s.cfg.capacity := by simpa [addressOutOfRange] using ha
    simp [writeByteOps_fitting hlc ha]
  | clear c =>
    refine accept_inv h hs (fun hlc _ => ?_) (by simp [bulkOps])
    simp [bulkOps_fitting hlc (kind := .clear) (Nat.min_le_right c.toNat s.cfg.capacity), clampBytes]
  | dump l =>
    refine accept_inv h hs (fun hlc _ => ?_) (by simp [bulkOps])
    simp [bulkOps_fitting hlc (kind := .dump) (clampLines_le h.config l)]
  | close =>
    cases hs
    exact gate_inv (h.congr rfl rfl rfl rfl) nofun fun _ _ => h.inv_waiting rfl rfl rfl rfl nofun (.inl ⟨.ok, rfl⟩)
  | writeBlock n =>
    cases hs
    exact acceptWriteBlock_inv h (by simp) _
  | reserved0 _ | reservedE _ | reservedF _ =>
    cases hs
    exact refuseReserved_inv h nofun
  | payload _ | setPinMode _ _ | digitalWrite _ _ | digitalRead _ | shiftOut _ _ _ _ => cases hi

theorem acceptCommand_inv (h : s.Inv) (hs : acceptCommand s = .next t) : t.Inv := by
  unfold acceptCommand at hs
  split at hs
  · cases hs; exact h
  · rename_i w rest hp
    have hk : (s.taken rest).Kept := h.kept.congr rfl rfl rfl rfl
    split at hs
    · exact exec_command_inv (decodeCommand_stream ‹_›) hk hs
    · cases hs; exact acceptReserved_inv hk w

/-! The other steps of the sequencer. -/

/-- An acknowledged request (R51, R180, R184): the rest of its procedure goes on, or the polling does. -/
theorem afterResponse_inv (r : Response) (h : s.Inv) (ha : s.current ≠ .idle) : (afterResponse r s).Inv := by
  have hf := h.fitting
  have hl := h.latchedLast
  unfold afterResponse
  split
  · rename_i i k hm
    rw [hm] at hf hl
    exact resume_inv_tail (h.kept.congr rfl rfl rfl rfl) ha hf hl
  · rename_i k hm
    rw [hm] at hf hl
    have hlc := (fitting_cons.1 hf).1.not_closed nofun nofun
    have hk := (fitting_cons.1 hf).2
    have free : ∀ a, MicroOp.latched a ∉ k := fun a hin => hl.free nofun nofun a (List.mem_cons_of_mem _ hin)
    have hkept : State.Kept { s with pcnt := s.pcnt + 1 } := h.kept.congr rfl rfl rfl rfl
    split
    · exact resume_inv_of_free hkept ha (by simp [MicroOp.fits_iff hlc, MicroOp.inRange, hk]) (by simpa using free)
    · split
      · exact resume_inv_of_free hkept ha (by simp [MicroOp.fits_iff hlc, MicroOp.inRange, hk]) (by simpa using free)
      · exact h.update h.kept.device rfl rfl rfl rfl rfl rfl fun hc => absurd hc ha
  · rename_i r k hm
    rw [hm] at hf hl
    exact resume_inv_tail h.kept ha hf hl
  · rename_i k hm
    rw [hm] at hf hl
    exact resume_inv_tail h.kept ha hf hl
  · exact h

/-- A request waits, fails (R273) or is acknowledged (R51). -/
theorem transport_inv {r : Request} (h : s.Inv) (ha : s.current ≠ .idle) (hs : transport r s = .next t) : t.Inv := by
  rcases transport_cases hs with ⟨rest, -, rfl⟩ | ⟨rest, -, rfl⟩ | ⟨-, rfl⟩
  · have hk : (raise .transportFailure (s.requestFailed r rest)).Kept :=
      ⟨h.config, s.envAfterFailure_inDevice h.config h.kept.device r, nofun⟩
    exact hk.inv_waiting rfl rfl rfl rfl ha (.inl ⟨_, rfl⟩)
  · exact afterResponse_inv _ (h.update (h.kept.device.perform h.config r) rfl rfl rfl rfl rfl rfl
      fun hc => absurd hc ha) ha
  · exact h.update h.kept.device rfl rfl rfl rfl rfl rfl fun hc => absurd hc ha

/-- The delivery of a response leaves what is between commands (R29, R254). -/
theorem deliver_inv (h : s.Kept) (st : Status) (v : Byte) : (s.deliver st v).Inv :=
  State.inv_iff.2 ⟨h.congr rfl rfl rfl rfl, by simp, .of_free (by simp), by simp⟩

theorem sequencerAct_inv (h : s.Inv) (hs : sequencerAct s = .next t) : t.Inv := by
  by_cases hm : s.ms = []
  · have : sequencerAct s = acceptCommand s := by rw [sequencerAct, hm]
    exact acceptCommand_inv h (this ▸ hs)
  have ha := h.not_idle hm
  rcases sequencerAct_cases hs with rfl | ⟨-, -, hm', -⟩ | ⟨-, -, rest, w, -, -, rfl⟩ | ⟨kind, n, k, hd, rfl⟩ |
    ⟨st, v, -, -, rfl⟩ | ⟨-, -, r, -, -, ht⟩
  · exact h
  · exact absurd hm' hm
  · have hk : (s.taken rest).Kept := h.kept.congr rfl rfl rfl rfl
    exact takePayloadWord_inv hk ha w
  · exact resume_inv_tail (h.kept.congr rfl rfl rfl rfl) ha (hd ▸ h.fitting) (hd ▸ h.latchedLast)
  · exact deliver_inv h.kept st v
  · exact transport_inv h ha ht

end Inv

/-! The steps that are not the sequencer's. -/

/-- The state after reset, over any device (R301, R302). -/
theorem State.afterReset_inv {cfg : Params} {env : Env} (hc : cfg.wf = true) (he : env.InDevice cfg) (inbox : List Input) :
    (State.afterReset cfg env inbox).Inv := by
  refine State.inv_iff.2 ⟨⟨hc, he, nofun⟩, ?_, .of_free (by simp [State.afterReset]), nofun⟩
  simp [State.afterReset, MicroOp.fits_iff, MicroOp.inRange]

/-- Settles O52: each kind of step of `step_cases` keeps the invariant. -/
theorem stepKeepsInvariant : Obligations.StepKeepsInvariant := by
  intro s t h hs
  have outside : ∀ (e : Env) (l : List Input) (p : List Word), e.InDevice s.cfg →
      State.Inv { s with inbox := l, port := p, env := e } := fun e l p he =>
    h.update he rfl rfl rfl rfl rfl rfl fun hc => (h.idleIsClear hc).2
  have device := h.kept.device
  rcases step_cases hs with ⟨w, rest, -, rfl⟩ | ⟨rest, -, rfl⟩ | ⟨rest, -, rfl⟩ | ⟨pins, shift, latch, rest, -, rfl⟩ |
    ⟨rest, -, rfl⟩ | ⟨l, -, hq⟩
  · exact outside s.env rest _ device
  · exact outside _ rest s.port device.completeCycle
  · exact outside _ rest s.port device.deviceFault
  · exact outside _ rest s.port (device.congr rfl rfl rfl)
  · exact State.afterReset_inv h.config (State.abandoned_inDevice h.config device) rest
  · exact sequencerAct_inv (outside s.env l s.port device).settled hq

end Sys2Proof.Machine
end

section
/-! PROOF. The state (10_state.md): reset meets the invariant, no step changes the configuration, and the steps that write
`LC` and `CAV`. Each is read off what a step can do (`step_cases`, `sequencerAct_cases`) and off what silent micro-steps can do
(`Quiet`, `Accepted`) in Laws/Step.lean. -/

namespace Sys2Proof.Machine

section Frames

variable {s t : State} {op : MicroOp} {ops k : List MicroOp}

/-! The configuration (R30). -/

theorem settled_cfg (s : State) : s.settled.cfg = s.cfg := (resume_quiet s.ms s).cfg

theorem afterResponse_cfg (r : Response) (s : State) : (afterResponse r s).cfg = s.cfg := by
  obtain ⟨s', ops, hq, -, ⟨ra, rfl⟩ | ⟨n, rfl⟩⟩ := afterResponse_quiet r s
  · exact hq.cfg
  · exact hq.cfg

theorem transport_cfg {r : Request} (h : transport r s = .next t) : t.cfg = s.cfg := by
  rcases transport_cases h with ⟨rest, -, rfl⟩ | ⟨rest, -, rfl⟩ | ⟨-, rfl⟩
  · rfl
  · exact afterResponse_cfg _ _
  · rfl

theorem sequencerAct_cfg (h : sequencerAct s = .next t) : t.cfg = s.cfg := by
  rcases sequencerAct_cases h with rfl | ⟨rest, w, -, -, ha⟩ | ⟨-, -, rest, w, -, -, rfl⟩ | ⟨kind, n, k, -, rfl⟩ |
    ⟨st, v, -, -, rfl⟩ | ⟨-, -, r, -, -, ht⟩
  · rfl
  · exact ha.cfg
  · exact (takePayloadWord_accepted w (s.taken rest)).cfg
  · exact (resume_quiet k (s.recordDelay kind n)).cfg
  · rfl
  · exact transport_cfg ht

/-! Who writes `LC` (R21). -/

/-- How a step of the sequencer from `s` to `t` may leave `LC`: as it was, or written by a Setup or by CLOSE. -/
def LifecycleWritten (s t : State) : Prop :=
  t.lc = s.lc ∨
  (t.lc = .ready ∧ (s.current = .command .setup ∨ s.current = .automaticSetup)) ∨
  (t.lc = .unconfigured ∧ s.current = .command .setup) ∨
  (t.lc = .closed ∧ t.current = .command .close)

/-- `LC <- l` waits in `MS` only as the `LC <- READY` of a Setup (R250). -/
theorem State.Inv.lifecycle_in_ms (h : s.Inv) {l : Lifecycle} (hl : MicroOp.lifecycle l ∈ s.ms) :
    l = .ready ∧ (s.current = .command .setup ∨ s.current = .automaticSetup) :=
  ⟨(h.fitting _ hl).inRange, (h.fitting _ hl).bySetup (.inl ⟨l, rfl⟩)⟩

/-- Silent micro-steps of the procedure in progress write `LC` only at the end of a Setup. -/
theorem Quiet.lc_of_inv {u v : State} (h : s.Inv) (hq : Quiet ops u v) (hu : u.lc = s.lc)
    (hops : ∀ l, MicroOp.lifecycle l ∈ ops → MicroOp.lifecycle l ∈ s.ms) :
    v.lc = s.lc ∨ (v.lc = .ready ∧ (s.current = .command .setup ∨ s.current = .automaticSetup)) := by
  rcases hq.lc with hlc | hmem
  · exact .inl (hlc.trans hu)
  · exact .inr (h.lifecycle_in_ms (hops _ hmem))

theorem settled_lc (h : s.Inv) :
    s.settled.lc = s.lc ∨ (s.settled.lc = .ready ∧ (s.current = .command .setup ∨ s.current = .automaticSetup)) :=
  (resume_quiet s.ms s).lc_of_inv h rfl fun _ => id

theorem Accepted.lifecycleWritten {s' : State} (h : Accepted s' t) (hs : s'.lc = s.lc) : LifecycleWritten s t := by
  rcases h.lc with hlc | hclose
  · exact .inl (hlc.trans hs)
  · exact .inr (.inr (.inr hclose))

theorem afterResponse_lc {u : State} (r : Response) (h : s.Inv) (hm : u.ms = s.ms) (hl : u.lc = s.lc) :
    (afterResponse r u).lc = s.lc ∨
      ((afterResponse r u).lc = .ready ∧ (s.current = .command .setup ∨ s.current = .automaticSetup)) := by
  obtain ⟨s', ops, hq, hops, hs'⟩ := afterResponse_quiet r u
  have hmem : ∀ l, MicroOp.lifecycle l ∈ ops → MicroOp.lifecycle l ∈ s.ms := fun l hin => by
    simpa [hm] using hops _ hin
  rcases hs' with ⟨ra, rfl⟩ | ⟨n, rfl⟩
  · exact hq.lc_of_inv h hl hmem
  · exact hq.lc_of_inv h hl hmem

/-- A request writes `LC` where it ends a Setup, or fails in a SETUP (R250, R272). -/
theorem transport_lc {r : Request} (h : s.Inv) (hs : transport r s = .next t) : LifecycleWritten s t := by
  rcases transport_cases hs with ⟨rest, -, rfl⟩ | ⟨rest, -, rfl⟩ | ⟨-, rfl⟩
  · by_cases hc : s.current = .command .setup
    · exact .inr (.inr (.inl ⟨by simp [hc], hc⟩))
    · exact .inl (by simp [hc])
  · exact (afterResponse_lc (u := s.acknowledged r rest) _ h rfl rfl).imp id .inl
  · exact .inl rfl

theorem sequencerAct_lc (h : s.Inv) (hs : sequencerAct s = .next t) : LifecycleWritten s t := by
  rcases sequencerAct_cases hs with rfl | ⟨rest, w, -, -, ha⟩ | ⟨-, -, rest, w, -, -, rfl⟩ | ⟨kind, n, k, hm, rfl⟩ |
    ⟨st, v, -, -, rfl⟩ | ⟨-, -, r, -, -, ht⟩
  · exact .inl rfl
  · exact ha.lifecycleWritten rfl
  · exact (takePayloadWord_accepted w (s.taken rest)).lifecycleWritten rfl
  · exact ((resume_quiet k (s.recordDelay kind n)).lc_of_inv h rfl fun l hl => by simp [hm, hl]).imp id .inl
  · exact .inl rfl
  · exact transport_lc h ht

/-- A step of the sequencer first carries out what is pending, and that can only be the end of a Setup (R250, R302). -/
theorem sequencerStep_lc (h : s.Inv) (hs : sequencerStep s = .next t) : LifecycleWritten s t := by
  have hact := sequencerAct_lc h.settled hs
  have hcur : s.settled.current = s.current := (resume_quiet s.ms s).current
  rw [LifecycleWritten, hcur] at hact
  rcases hact with hlc | hother
  · rw [LifecycleWritten, hlc]
    exact (settled_lc h).imp id .inl
  · exact .inr hother

/-! Who sets `CAV` (R23, R143). -/

/-- An acknowledged request sets `CAV` only where `CA <- a` comes right after it. -/
theorem afterResponse_sets_cav {r : Response} (h : LatchedLast s.cfg s.ms) (h0 : s.cav = false)
    (h1 : (afterResponse r s).cav = true) : ∃ op k, s.ms = op :: .latched (afterResponse r s).ca :: k := by
  have tail : ∀ {op k} (u : State), s.ms = op :: k → u.cfg = s.cfg → u.cav = s.cav → (resume k u).cav = true →
      ∃ op k', s.ms = op :: .latched (resume k u).ca :: k' := fun {op k} u hm hc hv hu => by
    obtain ⟨k', hk⟩ := resume_sets_cav (op := op) (by rw [hc, ← hm]; exact h) (hv.trans h0) hu
    exact ⟨op, k', by rw [hm, ← hk]⟩
  unfold afterResponse at h1 ⊢
  split at h1
  · exact tail _ ‹_› rfl rfl h1
  · split at h1
    · simp [resume_restoreBit7, h0] at h1
    · split at h1
      · simp [resume_restoreBit7, h0] at h1
      · simp [h0] at h1
  · exact tail _ ‹_› rfl rfl h1
  · exact tail _ ‹_› rfl rfl h1
  · simp [h0] at h1

theorem transport_sets_cav {r : Request} (h : LatchedLast s.cfg s.ms) (hs : transport r s = .next t)
    (h0 : s.cav = false) (h1 : t.cav = true) : ∃ op k, s.ms = op :: .latched t.ca :: k := by
  rcases transport_cases hs with ⟨rest, -, rfl⟩ | ⟨rest, -, rfl⟩ | ⟨-, rfl⟩
  · simp at h1
  · exact afterResponse_sets_cav (s := s.acknowledged r rest) h h0 h1
  · simp [h0] at h1

/-- From a settled position, the step that sets `CAV` is at the micro-step right before `CA <- a`. -/
theorem sequencerAct_sets_cav (h : LatchedLast s.cfg s.ms) (hs : sequencerAct s = .next t) (h0 : s.cav = false)
    (h1 : t.cav = true) : ∃ op k, s.ms = op :: .latched t.ca :: k := by
  have unset : ∀ {s'}, s'.cav = s.cav → ¬ Accepted s' t := fun hv ha => by simpa [hv, h0] using ha.cav h1
  rcases sequencerAct_cases hs with rfl | ⟨rest, w, -, -, ha⟩ | ⟨-, -, rest, w, -, -, rfl⟩ | ⟨kind, n, k, hm, rfl⟩ |
    ⟨st, v, -, -, rfl⟩ | ⟨-, -, r, -, -, ht⟩
  · simp [h0] at h1
  · exact absurd ha (unset rfl)
  · exact absurd (takePayloadWord_accepted w (s.taken rest)) (unset rfl)
  · obtain ⟨k', hk⟩ := resume_sets_cav (s := s.recordDelay kind n) (hm ▸ h) h0 h1
    exact ⟨_, k', by rw [hm, ← hk]⟩
  · simp [h0] at h1
  · exact transport_sets_cav h ht h0 h1

/-- Where `CA <- a` comes next but one, its SetAddress was in progress before: the pending silent micro-steps start a
whole SetAddress, whose first two micro-steps are its two SHIFT_OUTs (R140). -/
theorem settled_eq_of_latched_next {a : Address} (h : LatchedLast s.cfg s.ms)
    (hm : s.settled.ms = op :: .latched a :: k) : s.settled = s := by
  by_cases hf : ∀ b, MicroOp.latched b ∉ s.ms
  · exfalso
    rcases resume_latchedFresh s.ms s hf with hfree | ⟨b, k', hload, -⟩
    · exact hfree a (by rw [← State.settled, hm]; simp)
    · rw [← State.settled, hm] at hload
      simp [loadOps, shiftOutOp] at hload
  · obtain ⟨b, hb⟩ : ∃ b, MicroOp.latched b ∈ s.ms := by simpa using hf
    exact h.settled hb

/-- Silent micro-steps set `CAV` only by a `CA <- a` of their own. -/
theorem settled_cav (h : LatchedLast s.cfg s.ms) (h0 : s.cav = false) : s.settled.cav = false := by
  by_cases hf : ∀ b, MicroOp.latched b ∉ s.ms
  · refine Bool.eq_false_iff.2 fun hc => ?_
    rcases (resume_quiet s.ms s).cav hc with ⟨hcav, -⟩ | hmem
    · simp [h0] at hcav
    · exact hf _ hmem
  · obtain ⟨b, hb⟩ : ∃ b, MicroOp.latched b ∈ s.ms := by simpa using hf
    rw [h.settled hb, h0]

/-- A step of the sequencer that sets `CAV` is at the last request or delay of a SetAddress (R140, R143). -/
theorem sequencerStep_sets_cav (h : s.Inv) (hs : sequencerStep s = .next t) (h0 : s.cav = false) (h1 : t.cav = true) :
    ∃ k, (s.cfg.tSettleUs = 0 ∧ s.ms = digitalWriteOp s.cfg .latch .low :: .latched t.ca :: k) ∨
      (0 < s.cfg.tSettleUs ∧ s.ms = .delay .us s.cfg.tSettleUs :: .latched t.ca :: k) := by
  obtain ⟨op, k, hm⟩ := sequencerAct_sets_cav h.settled.latchedLast hs (settled_cav h.latchedLast h0) h1
  rw [settled_eq_of_latched_next h.latchedLast hm] at hm
  refine ⟨k, (LatchedLast.next (hm ▸ h.latchedLast)).imp ?_ ?_⟩
  · rintro ⟨ht, rfl⟩; exact ⟨ht, hm⟩
  · rintro ⟨ht, rfl⟩; exact ⟨ht, hm⟩

end Frames

/-- The inputs that have not arrived yet are not part of the invariant. -/
theorem State.Inv.withInbox {s : State} (h : s.Inv) (l : List Input) : State.Inv { s with inbox := l } :=
  h.update h.kept.device rfl rfl rfl rfl rfl rfl fun hc => (h.idleIsClear hc).2

/-- Settles O55: the sequencer writes `LC` in a Setup or a CLOSE (`sequencerStep_lc`), and of the other agents only reset
does. -/
theorem lifecycleChanges : Obligations.LifecycleChanges := by
  intro s t h hs hne
  rcases step_cases hs with ⟨w, rest, -, rfl⟩ | ⟨rest, -, rfl⟩ | ⟨rest, -, rfl⟩ | ⟨pins, shift, latch, rest, -, rfl⟩ |
    ⟨rest, hreset, -⟩ | ⟨l, -, hq⟩
  · exact absurd rfl hne
  · exact absurd rfl hne
  · exact absurd rfl hne
  · exact absurd rfl hne
  · exact .inl ⟨rest, hreset⟩
  · rcases sequencerStep_lc (h.withInbox l) hq with hlc | hwritten
    · exact absurd hlc hne
    · exact .inr hwritten

/-- Settles O54: no operation of the model writes `cfg`, and reset keeps it (R301). -/
theorem configurationNeverChanges : Obligations.ConfigurationNeverChanges := by
  intro s t hs
  rcases step_cases hs with ⟨w, rest, -, rfl⟩ | ⟨rest, -, rfl⟩ | ⟨rest, -, rfl⟩ | ⟨pins, shift, latch, rest, -, rfl⟩ |
    ⟨rest, -, rfl⟩ | ⟨l, -, hq⟩
  · rfl
  · rfl
  · rfl
  · rfl
  · rfl
  · exact (sequencerAct_cfg hq).trans (settled_cfg _)

/-- Settles O56: only the sequencer sets `CAV` (reset clears it), and it does so at the end of a SetAddress
(`sequencerStep_sets_cav`). -/
theorem addressCacheIsSetLast : Obligations.AddressCacheIsSetLast := by
  intro s t h hs h0 h1
  rcases step_cases hs with ⟨w, rest, -, rfl⟩ | ⟨rest, -, rfl⟩ | ⟨rest, -, rfl⟩ | ⟨pins, shift, latch, rest, -, rfl⟩ |
    ⟨rest, -, rfl⟩ | ⟨l, -, hq⟩
  · exact absurd (h0.symm.trans h1) nofun
  · exact absurd (h0.symm.trans h1) nofun
  · exact absurd (h0.symm.trans h1) nofun
  · exact absurd (h0.symm.trans h1) nofun
  · cases h1
  · exact sequencerStep_sets_cav (s := { s with inbox := l }) (h.withInbox l) hq h0 h1

/-- The device at power-up is in its canonical form: nothing written, no write cycle, nothing suspect. -/
theorem Env.powerUp_inDevice (cfg : Params) : Env.powerUp.InDevice cfg :=
  ⟨.nil, nofun, nofun, nofun⟩

/-- Settles O53: `State.afterReset_inv` over the device at power-up. -/
theorem resetMeetsInvariant : Obligations.ResetMeetsInvariant :=
  ⟨State.afterReset_inv (by decide) (Env.powerUp_inDevice _) [], fun cfg inbox hc =>
    State.afterReset_inv hc (Env.powerUp_inDevice cfg) inbox⟩

end Sys2Proof.Machine
end

section
/-! PROOF. The sequencer sees the environment only through the transport's answers (10_state.md R36). Each operation of the
command cycle is shown not to look at the environment (`EnvBlind`); a request is the one place where it is looked at, through
`Env.answer`. -/

namespace Sys2Proof.Machine

/-- `s` and `t` differ in the environment alone: the same sequencer, ports, inputs and trace. -/
def SameButEnv (s t : State) : Prop :=
  ∃ e, t = { s with env := e }

/-- An operation that does not look at the environment, though it may change it. -/
def EnvBlind (f : State → State) : Prop :=
  ∀ (s : State) (e : Env), SameButEnv (f s) (f { s with env := e })

/-- Blind operations in a row are blind. -/
theorem EnvBlind.sameButEnv {f : State → State} (hf : EnvBlind f) {s t : State} (h : SameButEnv s t) :
    SameButEnv (f s) (f t) := by
  obtain ⟨e, rfl⟩ := h
  exact hf s e

/-! The operations of the command cycle. -/

theorem raise_envBlind (k : ErrorKind) : EnvBlind (raise k) := fun s e => by
  cases k with
  | transportFailure => exact ⟨e, rfl⟩
  | capacityExceeded => exact ⟨e, rfl⟩
  | writeTimeout => exact ⟨_, rfl⟩

/-- Silent micro-steps look at the sequencer's registers only (R32). -/
theorem settle_envBlind (ops : List MicroOp) : EnvBlind (settle ops) := by
  induction ops with
  | nil => exact fun s e => ⟨e, rfl⟩
  | cons op k ih =>
    intro s e
    cases op with
    | lifecycle l => exact ih { s with lc := l } e
    | latched a => exact ih { s with ca := a, cav := true } e
    | directionSet d => exact ih { s with dir := d, dirv := true } e
    | outputEnableSet b => exact ih { s with oe := b, oev := true } e
    | clearAccumulator => exact ih { s with ra := 0 } e
    | captureValue v => exact ih { s with em := v[7], wv := v } e
    | shiftValue => exact ih { s with wv := s.wv >>> 1 } e
    | clearPollCount => exact ih { s with pcnt := 0 } e
    | clearIndex => exact ih { s with bi := 0 } e
    | nextIndex => exact ih { s with bi := s.bi + 1 } e
    | clearRow => exact ih { s with row := [] } e
    | storeRow => exact ih { s with row := s.row ++ [s.ra] } e
    | emitLine => exact ih { s with trace := s.trace ++ [.text (dumpLine s.cfg (16 * s.bi.toNat) s.row)] } e
    | setAddress a =>
      simp only [settle]
      split
      · exact ih s e
      · exact ⟨e, rfl⟩
    | setMode d =>
      simp only [settle]
      split
      · exact ih s e
      · exact ⟨e, rfl⟩
    | setOutputEnabled b =>
      simp only [settle]
      split
      · exact ih s e
      · exact ⟨e, rfl⟩
    | raiseTimeout => exact raise_envBlind .writeTimeout s e
    | setup | driveBit _ => exact ⟨e, rfl⟩
    | request _ | sample _ | pollRead | restoreBit7 | delay _ _ | respond _ | respondByte | takePayload _ | loop _ _ =>
      exact ⟨e, rfl⟩

theorem iterationOps_withEnv (kind : BulkKind) (s : State) (e : Env) :
    iterationOps kind { s with env := e } = iterationOps kind s := by
  cases kind <;> rfl

theorem enterLoop_envBlind : EnvBlind enterLoop := fun s e => by
  unfold enterLoop
  simp only [iterationOps_withEnv]
  split
  · split
    · exact settle_envBlind _ s e
    · exact settle_envBlind _ s e
  · exact ⟨e, rfl⟩

theorem resume_envBlind (ops : List MicroOp) : EnvBlind (resume ops) := fun s e =>
  enterLoop_envBlind.sameButEnv (settle_envBlind ops s e)

theorem settled_envBlind : EnvBlind State.settled := fun s e => resume_envBlind s.ms s e

theorem gate_envBlind (i : Instr) {run : State → State} (hr : EnvBlind run) : EnvBlind (gate i · run) := fun s e => by
  simp only [gate]
  split
  · exact ⟨e, rfl⟩
  · split
    · exact ⟨e, rfl⟩
    · split
      · exact ⟨e, rfl⟩
      · exact hr s e

theorem writeBlock_envBlind : EnvBlind writeBlock := fun s e => by
  simp only [writeBlock]
  split
  · exact raise_envBlind .capacityExceeded s e
  · exact resume_envBlind _ s e

theorem beginWriteBlock_envBlind : EnvBlind beginWriteBlock := fun s e => by
  simp only [beginWriteBlock]
  split
  · exact ⟨e, rfl⟩
  · exact gate_envBlind _ writeBlock_envBlind { s with issued := false } e

theorem acceptWriteBlock_envBlind (a : Activity) (n : Nat) : EnvBlind (acceptWriteBlock a n) := fun s e => by
  unfold acceptWriteBlock
  split
  · exact beginWriteBlock_envBlind { s with current := a, payload := [] } e
  · exact ⟨e, rfl⟩

theorem acceptReserved_envBlind (w : Word) : EnvBlind (acceptReserved w) := fun s e => by
  unfold acceptReserved
  split
  · exact acceptWriteBlock_envBlind _ _ s e
  · exact ⟨e, rfl⟩

theorem takePayloadWord_envBlind (w : Word) : EnvBlind (takePayloadWord w) := fun s e => by
  simp only [takePayloadWord]
  split
  · split
    · exact beginWriteBlock_envBlind { s with payload := s.payload ++ [w] } e
    · exact ⟨e, rfl⟩
  · exact ⟨e, rfl⟩

theorem afterResponse_envBlind (r : Response) : EnvBlind (afterResponse r) := fun s e => by
  simp only [afterResponse]
  split
  · exact resume_envBlind _ { s with ra := _ } e
  · split
    · exact resume_envBlind _ { s with pcnt := s.pcnt + 1 } e
    · split
      · exact resume_envBlind _ { s with pcnt := s.pcnt + 1 } e
      · exact ⟨e, rfl⟩
  · exact resume_envBlind _ s e
  · exact resume_envBlind _ s e
  · exact ⟨e, rfl⟩

/-! The steps. -/

/-- `o'` is what `o` is, up to the environment of the next state. -/
def SameOutcome (o o' : Host.Outcome State Fault Refusal) : Prop :=
  ∀ t, o = .next t → ∃ t', o' = .next t' ∧ SameButEnv t t'

theorem SameOutcome.next {t t' : State} (h : SameButEnv t t') : SameOutcome (.next t) (.next t') := fun _ ht => by
  cases ht
  exact ⟨t', rfl, h⟩

theorem accept_sameOutcome (i : Instr) {run : State → State} (hr : EnvBlind run) (s : State) (e : Env) :
    SameOutcome (accept i s run) (accept i { s with env := e } run) :=
  .next (gate_envBlind i hr { s with issued := false, current := .command i } e)

/-- The acceptance of a command does not look at the environment, for every command of the table (R254). -/
theorem exec_command_sameOutcome {i : Instr} (hi : i.stream = .command) (s : State) (e : Env) :
    SameOutcome (exec i s) (exec i { s with env := e }) := by
  cases i with
  | setup | setAddr _ | setMode _ | setOe _ | read _ | write _ _ | delayNs _ | delayUs _ | delayMs _ | clear _ | dump _
  | close => exact accept_sameOutcome _ (resume_envBlind _) s e
  | writeBlock n => exact .next (acceptWriteBlock_envBlind _ _ s e)
  | reserved0 _ | reservedE _ | reservedF _ => exact .next ⟨e, rfl⟩
  | payload _ | setPinMode _ _ | digitalWrite _ _ | digitalRead _ | shiftOut _ _ _ _ => cases hi

theorem acceptCommand_sameOutcome (s : State) (e : Env) :
    SameOutcome (acceptCommand s) (acceptCommand { s with env := e }) := by
  simp only [acceptCommand]
  split
  · exact .next ⟨e, rfl⟩
  · rename_i w rest _
    split
    · exact exec_command_sameOutcome (decodeCommand_stream ‹_›) (s.taken rest) e
    · exact .next (acceptReserved_envBlind w (s.taken rest) e)

/-- A request is looked at through its answer only (R51). -/
theorem transport_sameOutcome (r : Request) (s : State) (e : Env) (ha : s.env.answer s.cfg r = e.answer s.cfg r) :
    SameOutcome (transport r s) (transport r { s with env := e }) := by
  simp only [transport]
  split
  · exact .next (raise_envBlind .transportFailure (s.requestFailed r _) _)
  · simp only [State.acknowledged, ← ha]
    exact .next (afterResponse_envBlind _ (s.acknowledged r _) _)
  · exact .next ⟨e, rfl⟩

/-- A word decoded in the payload stream is a payload word (R95). -/
theorem decodePayload_payload {w : Word} {i : Instr} (h : decode .payload w = .ok i) : ∃ b, i = .payload b := by
  simp only [decode, decodePayload] at h
  split at h
  · exact ⟨_, (Except.ok.inj h).symm⟩
  · cases h

theorem acceptPayload_sameOutcome (s : State) (e : Env) :
    SameOutcome (acceptPayload s) (acceptPayload { s with env := e }) := by
  simp only [acceptPayload]
  split
  · exact .next ⟨e, rfl⟩
  · rename_i w rest _
    split
    · rename_i i hd
      obtain ⟨b, rfl⟩ := decodePayload_payload hd
      exact .next (takePayloadWord_envBlind (encode (.payload b)) (s.taken rest) e)
    · exact .next (takePayloadWord_envBlind w (s.taken rest) e)

/-- One step of the sequencer from a settled position, whose request, if it has one, is answered alike. -/
theorem sequencerAct_sameOutcome (s : State) (e : Env)
    (ha : ∀ r, s.ms.head?.bind (MicroOp.nextRequest s.cfg) = some r → s.env.answer s.cfg r = e.answer s.cfg r) :
    SameOutcome (sequencerAct s) (sequencerAct { s with env := e }) := by
  simp only [sequencerAct]
  split
  · exact acceptCommand_sameOutcome s e
  · exact acceptPayload_sameOutcome s e
  · exact .next (resume_envBlind _ (s.recordDelay _ _) e)
  · exact .next ⟨e, rfl⟩
  · exact .next ⟨e, rfl⟩
  · rename_i hm
    split
    · rename_i r hr
      rw [exec_request, exec_request]
      exact transport_sameOutcome r s e (ha r (by simpa [hm] using hr))
    · exact .next ⟨e, rfl⟩

/-- The pending silent micro-steps (R302) leave a request only where they have left the environment alone. -/
theorem sequencerStep_sameOutcome (s : State) (e : Env)
    (ha : ∀ r, s.pendingRequest = some r → s.env.answer s.cfg r = e.answer s.cfg r) :
    SameOutcome (sequencerStep s) (sequencerStep { s with env := e }) := by
  obtain ⟨e', he⟩ := settled_envBlind s e
  rw [sequencerStep, sequencerStep, he]
  refine sequencerAct_sameOutcome s.settled e' fun r hr => ?_
  have hm : s.settled.ms ≠ [.respond .writeTimeout] := fun h => by simp [h, MicroOp.nextRequest] at hr
  have henv : s.settled.env = s.env := resume_env hm
  have henv' : (State.settled { s with env := e }).env = e := resume_env (by rw [← State.settled, he]; exact hm)
  obtain rfl : e' = e := by rw [← henv', he]
  rw [settled_cfg] at hr ⊢
  rw [henv]
  exact ha r hr

theorem State.pendingRequest_withInbox (s : State) (l : List Input) :
    State.pendingRequest { s with inbox := l } = s.pendingRequest := by
  have hs : State.settled { s with inbox := l } = { s.settled with inbox := l } := resume_inbox s.ms s l
  simp only [State.pendingRequest, hs]

/-- Settles O58: the sequencer's step is blind to the environment but for the answer (`sequencerStep_sameOutcome`); the steps
of the other agents write the environment, the port and the inputs, and reset writes constants (R301). -/
theorem sequencerSeesOnlyResponses : Obligations.SequencerSeesOnlyResponses := by
  intro s t e hs ha
  suffices h : SameOutcome (step s) (step { s with env := e }) by
    obtain ⟨t', ht, e', rfl⟩ := h t hs
    exact ⟨e', ht⟩
  have sequencer : ∀ l, SameOutcome (sequencerStep { s with inbox := l }) (sequencerStep { s with inbox := l, env := e }) :=
    fun l => sequencerStep_sameOutcome { s with inbox := l } e fun r hr => ha r (s.pendingRequest_withInbox l ▸ hr)
  simp only [step]
  split
  · exact .next ⟨e, rfl⟩
  · exact .next ⟨_, rfl⟩
  · exact .next ⟨_, rfl⟩
  · exact .next ⟨_, rfl⟩
  · exact .next ⟨_, rfl⟩
  · exact sequencer _
  · exact sequencer s.inbox
  · exact sequencer s.inbox

end Sys2Proof.Machine
end

section
/-! PROOF. The transport requests of a step (20_memory.md R51, R52, R55) and the device bytes it can change (R62, R68, R70, R71).
Silent micro-steps and the acceptance of a word issue no request and change no byte (`Quiet`, `Accepted` in Laws/Step.lean);
what is left is the one request of `transport_cases`. -/

namespace Sys2Proof.Machine

section Requests

variable {s t u : State} {ops : List MicroOp}

/-- From `s` to `t` no request is issued and no input is consumed. -/
def NoRequest (s t : State) : Prop :=
  ∃ events, t.trace = s.trace ++ events ∧ (events.filter Event.isRequest).length = 0 ∧ t.inbox = s.inbox

/-- From `s` to `t` one request is issued and the transport's answer to it is consumed. -/
def OneRequest (s t : State) : Prop :=
  ∃ events, t.trace = s.trace ++ events ∧ (events.filter Event.isRequest).length = 1 ∧ ∃ f, s.inbox = .reply f :: t.inbox

theorem NoRequest.refl (s : State) : NoRequest s s := ⟨[], by simp, rfl, rfl⟩

theorem NoRequest.of_lines (hi : t.inbox = s.inbox) (hl : ∃ ls : List (List Char), t.trace = s.trace ++ ls.map Event.text) :
    NoRequest s t := by
  obtain ⟨ls, hls⟩ := hl
  exact ⟨_, hls, by simp [Event.isRequest], hi⟩

theorem Quiet.noRequest (h : Quiet ops s t) : NoRequest s t := .of_lines h.inbox h.lines

theorem Accepted.noRequest (h : Accepted s t) : NoRequest s t := .of_lines h.inbox h.lines

theorem NoRequest.trans (h1 : NoRequest s t) (h2 : NoRequest t u) : NoRequest s u := by
  obtain ⟨e1, ht1, hn1, hi1⟩ := h1
  obtain ⟨e2, ht2, hn2, hi2⟩ := h2
  exact ⟨e1 ++ e2, by rw [ht2, ht1, List.append_assoc], by simp [List.filter_append, hn1, hn2], hi2.trans hi1⟩

theorem NoRequest.then_one (h1 : NoRequest s t) (h2 : OneRequest t u) : OneRequest s u := by
  obtain ⟨e1, ht1, hn1, hi1⟩ := h1
  obtain ⟨e2, ht2, hn2, f, hi2⟩ := h2
  exact ⟨e1 ++ e2, by rw [ht2, ht1, List.append_assoc], by simp [List.filter_append, hn1, hn2], f, hi1 ▸ hi2⟩

theorem OneRequest.then_none (h1 : OneRequest s t) (h2 : NoRequest t u) : OneRequest s u := by
  obtain ⟨e1, ht1, hn1, f, hi1⟩ := h1
  obtain ⟨e2, ht2, hn2, hi2⟩ := h2
  exact ⟨e1 ++ e2, by rw [ht2, ht1, List.append_assoc], by simp [List.filter_append, hn1, hn2], f, hi2 ▸ hi1⟩

theorem afterResponse_noRequest (r : Response) (s : State) : NoRequest s (afterResponse r s) := by
  obtain ⟨s', ops, hq, -, ⟨ra, rfl⟩ | ⟨n, rfl⟩⟩ := afterResponse_quiet r s
  · exact hq.noRequest
  · exact hq.noRequest

/-- The request itself is one event, with one answer (R51, R55); waiting for the answer is none. -/
theorem transport_requests {r : Request} (h : transport r s = .next t) : OneRequest s t ∨ NoRequest s t := by
  rcases transport_cases h with ⟨rest, hi, rfl⟩ | ⟨rest, hi, rfl⟩ | ⟨-, rfl⟩
  · exact .inl ⟨[.request r .error], rfl, rfl, true, hi⟩
  · have hreq : OneRequest s (s.acknowledged r rest) := ⟨[.request r (s.env.answer s.cfg r)], rfl, rfl, false, hi⟩
    exact .inl (hreq.then_none (afterResponse_noRequest _ _))
  · exact .inr (.refl s)

theorem sequencerAct_requests (h : sequencerAct s = .next t) : OneRequest s t ∨ NoRequest s t := by
  rcases sequencerAct_cases h with rfl | ⟨rest, w, -, -, ha⟩ | ⟨-, -, rest, w, -, -, rfl⟩ | ⟨kind, n, k, -, rfl⟩ |
    ⟨st, v, -, -, rfl⟩ | ⟨-, -, r, -, -, ht⟩
  · exact .inr (.refl t)
  · exact .inr ha.noRequest
  · exact .inr (takePayloadWord_accepted w (s.taken rest)).noRequest
  · have hdelay : NoRequest s (s.recordDelay kind n) := ⟨[.delay kind n (delayTicks s.cfg kind n)], rfl, rfl, rfl⟩
    exact .inr (hdelay.trans (resume_quiet k _).noRequest)
  · exact .inr ⟨[.response (responseWord st s.issued v)], rfl, rfl, rfl⟩
  · exact transport_requests ht

theorem sequencerStep_requests (h : sequencerStep s = .next t) : OneRequest s t ∨ NoRequest s t := by
  have hsilent : NoRequest s s.settled := (resume_quiet s.ms s).noRequest
  exact (sequencerAct_requests h).imp hsilent.then_one hsilent.trans

/-- A step other than reset is that of another agent, which consumes its own input and adds no event, or the sequencer's. -/
theorem step_outside_or_sequencer (h : step s = .next t) (hreset : ∀ rest, s.inbox ≠ .reset :: rest) :
    (t.trace = s.trace ∧ ∃ x, s.inbox = x :: t.inbox ∧ ∀ f, x ≠ .reply f) ∨
    ∃ l, (s.inbox = .pass :: l ∨ s.inbox = l) ∧ sequencerStep { s with inbox := l } = .next t := by
  rcases step_cases h with ⟨w, rest, hi, rfl⟩ | ⟨rest, hi, rfl⟩ | ⟨rest, hi, rfl⟩ | ⟨pins, shift, latch, rest, hi, rfl⟩ |
    ⟨rest, hi, -⟩ | ⟨l, hl, hq⟩
  · exact .inl ⟨rfl, _, hi, nofun⟩
  · exact .inl ⟨rfl, _, hi, nofun⟩
  · exact .inl ⟨rfl, _, hi, nofun⟩
  · exact .inl ⟨rfl, _, hi, nofun⟩
  · exact absurd hi (hreset rest)
  · exact .inr ⟨l, hl.imp id And.left, hq⟩

/-- Settles O12: a step of the sequencer issues one request with one answer or none (`sequencerStep_requests`), a `pass`
before it apart; another agent's step adds no event. -/
theorem oneRequestPerStep : Obligations.OneRequestPerStep := by
  intro s t hs hreset
  rcases step_outside_or_sequencer hs hreset with ⟨htr, hin⟩ | ⟨l, hl, hq⟩
  · exact ⟨[], by simp [htr], .inr ⟨rfl, .inr hin⟩⟩
  · rcases sequencerStep_requests hq with ⟨events, htr, hone, f, hin⟩ | ⟨events, htr, hnone, hin⟩
    · refine ⟨events, htr, .inl ⟨hone, f, ?_⟩⟩
      rcases hl with hpass | hturn
      · exact .inr (hpass.trans (congrArg _ hin))
      · exact .inl (hturn.trans hin)
    · refine ⟨events, htr, .inr ⟨hnone, ?_⟩⟩
      rcases hl with hpass | hturn
      · exact .inr ⟨.pass, by rw [hpass, hin], nofun⟩
      · exact .inl (hin.trans hturn.symm)

end Requests

section Bytes

variable {s t : State} {ops : List MicroOp} {x : Nat}

/-- The bytes do not change where the environment changes in `suspect` only. -/
theorem Quiet.byteAt (h : Quiet ops s t) (x : Nat) : t.env.byteAt x = s.env.byteAt x := by
  rcases h.env with he | ⟨he, -⟩
  · rw [he]
  · rw [he]; rfl

theorem afterResponse_byteAt (r : Response) (s : State) (x : Nat) : (afterResponse r s).env.byteAt x = s.env.byteAt x := by
  obtain ⟨s', ops, hq, -, ⟨ra, rfl⟩ | ⟨n, rfl⟩⟩ := afterResponse_quiet r s
  · exact hq.byteAt x
  · exact hq.byteAt x

/-- Which byte a request may have changed: one of those of a write pulse, by a DIGITAL_WRITE of WE or by a failure past the
`DW(WE, L)` (R68, R191). -/
theorem transport_byteAt {r : Request} (h : transport r s = .next t) (hx : t.env.byteAt x ≠ s.env.byteAt x) :
    s.env.MayChange s.cfg x ∧ ((∃ l, r = .digitalWrite (pinOf s.cfg .we) l) ∨
      s.pastWriteLow = true ∧ ∃ rest, s.inbox = .reply true :: rest) := by
  rcases transport_cases h with ⟨rest, hi, rfl⟩ | ⟨rest, -, rfl⟩ | ⟨-, rfl⟩
  · obtain ⟨hmay, hpast | hwe⟩ := State.byteAt_envAfterFailure (s := s) (r := r) hx
    · exact ⟨hmay, .inr ⟨hpast, rest, hi⟩⟩
    · exact ⟨hmay, .inl hwe⟩
  · rw [afterResponse_byteAt] at hx
    exact (Env.byteAt_perform hx).imp id .inl
  · exact absurd rfl hx

/-- From a settled position a byte changes only in a step that issues a request. -/
theorem sequencerAct_byteAt (h : sequencerAct s = .next t) (hx : t.env.byteAt x ≠ s.env.byteAt x) :
    ∃ r, s.ms.head?.bind (MicroOp.nextRequest s.cfg) = some r ∧ transport r s = .next t := by
  rcases sequencerAct_cases h with rfl | ⟨rest, w, -, -, ha⟩ | ⟨-, -, rest, w, -, -, rfl⟩ | ⟨kind, n, k, -, rfl⟩ |
    ⟨st, v, -, -, rfl⟩ | ⟨op, k, r, hm, hr, ht⟩
  · exact absurd rfl hx
  · exact absurd (congrArg (Env.byteAt · x) ha.env) hx
  · exact absurd (congrArg (Env.byteAt · x) (takePayloadWord_accepted w (s.taken rest)).env) hx
  · exact absurd ((resume_quiet k (s.recordDelay kind n)).byteAt x) hx
  · exact absurd rfl hx
  · exact ⟨r, by simpa [hm] using hr, ht⟩

/-- The pending silent micro-steps leave a request only where they have left the environment alone. -/
theorem settled_env_of_request {r : Request} (h : s.settled.ms.head?.bind (MicroOp.nextRequest s.settled.cfg) = some r) :
    s.settled.env = s.env :=
  resume_env fun hm => by simp [State.settled, hm, MicroOp.nextRequest] at h

theorem sequencerStep_byteAt (h : sequencerStep s = .next t) (hx : t.env.byteAt x ≠ s.env.byteAt x) :
    s.env.MayChange s.cfg x ∧ ((∃ l, s.pendingRequest = some (.digitalWrite (pinOf s.cfg .we) l)) ∨
      s.settled.pastWriteLow = true ∧ ∃ rest, s.inbox = .reply true :: rest) := by
  have hquiet : Quiet s.ms s s.settled := resume_quiet s.ms s
  rw [← hquiet.byteAt x] at hx
  obtain ⟨r, hr, ht⟩ := sequencerAct_byteAt h hx
  have hchange := transport_byteAt ht hx
  rw [settled_env_of_request hr, settled_cfg, hquiet.inbox] at hchange
  refine hchange.imp id (Or.imp_left ?_)
  rintro ⟨l, rfl⟩
  exact ⟨l, by rw [State.pendingRequest, ← hr, settled_cfg]⟩

theorem Env.byteAt_completeCycle {e : Env} (hx : e.completeCycle.byteAt x ≠ e.byteAt x) :
    ∃ c, e.busy = some c ∧ x = c.addr := by
  unfold Env.completeCycle at hx
  split at hx
  · rename_i c hb
    exact ⟨c, hb, by_contra fun hne => hx (Env.byteAt_writeByteAt_ne e c.data hne)⟩
  · exact absurd rfl hx

theorem Env.byteAt_deviceFault {e : Env} (hx : e.deviceFault.byteAt x ≠ e.byteAt x) : e.suspect = some x := by
  unfold Env.deviceFault at hx
  split at hx
  · rename_i a hs
    rw [hs, by_contra fun hne : ¬ x = a => hx (Env.byteAt_writeByteAt_ne e _ hne)]
  · exact absurd rfl hx

/-- Settles O57: the sequencer changes a byte only by the request of `sequencerStep_byteAt`, and of the other agents only the
device's own steps do. -/
theorem onlyAddressedBytesChange : Obligations.OnlyAddressedBytesChange := by
  intro s t x hs hreset hx
  rcases step_cases hs with ⟨w, rest, -, rfl⟩ | ⟨rest, hi, rfl⟩ | ⟨rest, hi, rfl⟩ | ⟨pins, shift, latch, rest, -, rfl⟩ |
    ⟨rest, hi, -⟩ | ⟨l, hl, hq⟩
  · exact absurd rfl hx
  · exact ⟨.inr (.inl (Env.byteAt_completeCycle hx)), .inl ⟨rest, hi⟩⟩
  · exact ⟨.inr (.inr (Env.byteAt_deviceFault hx)), .inr (.inl ⟨rest, hi⟩)⟩
  · exact absurd rfl hx
  · exact absurd hi (hreset rest)
  · obtain ⟨hmay, hby⟩ := sequencerStep_byteAt (s := { s with inbox := l }) hq hx
    refine ⟨hmay.imp id .inl, .inr (.inr (hby.imp ?_ ?_))⟩
    · rintro ⟨lv, hp⟩
      exact ⟨lv, s.pendingRequest_withInbox l ▸ hp⟩
    · rintro ⟨hpast, rest, rfl⟩
      have hs' : State.settled { s with inbox := Input.reply true :: rest } =
          { s.settled with inbox := Input.reply true :: rest } := resume_inbox s.ms s _
      rw [hs'] at hpast
      exact ⟨hpast, rest, hl.symm.imp And.left id⟩

end Bytes

end Sys2Proof.Machine
end

section
/-! PROOF. The transport requests and the environment (20_memory.md R50, R53, R64 to R71). What an acknowledged request does to
the sequencer is said once for every request of a procedure (`exec_request_ack`, `exec_sample_ack`, `exec_pollRead_ack`,
`exec_restoreBit7_ack`); what a request does to the environment is said once for each write of a pin, pulse and failure. -/

namespace Sys2Proof.Machine

/-! The sequencer's side of an acknowledged request. -/

section Acknowledged

variable {s : State} {k : List MicroOp} {rest : List Input}

theorem exec_request_ack {r : Request} (hm : s.ms = .request r :: k) (hi : s.inbox = .reply false :: rest) :
    exec r.instr s = .next (resume k { s with
      issued := true, inbox := rest, env := s.env.perform s.cfg r
      trace := s.trace ++ [.request r (s.env.answer s.cfg r)] }) := by
  simp only [exec_request, transport, hi, afterResponse, State.acknowledged, hm]

theorem exec_restoreBit7_ack (hm : s.ms = .restoreBit7 :: k) (hi : s.inbox = .reply false :: rest) :
    exec (.setPinMode (pinOf s.cfg (.d 7)) .output) s = .next (resume k { s with
      issued := true, inbox := rest, env := s.env.perform s.cfg (.setPinMode (pinOf s.cfg (.d 7)) .output)
      trace := s.trace ++ [spmEvent s.cfg (.d 7) .output] }) := by
  change transport (.setPinMode (pinOf s.cfg (.d 7)) .output) s = _
  simp only [transport, hi, afterResponse, State.acknowledged, hm, spmEvent, Env.answer_setPinMode]

/-- A sample shifts its bit into `RA` (R180). -/
theorem exec_sample_ack {i : Fin 8} {b : Bool} (hm : s.ms = .sample i :: k) (hi : s.inbox = .reply false :: rest)
    (hb : s.env.answer s.cfg (.digitalRead (pinOf s.cfg (.d i))) = .bit b) :
    exec (.digitalRead (pinOf s.cfg (.d i))) s = .next (resume k { s with
      ra := (s.ra <<< 1) ||| (BitVec.ofBool b).setWidth 8, issued := true, inbox := rest, env := s.env.drawn
      trace := s.trace ++ [drEvent s.cfg i b] }) := by
  change transport (.digitalRead (pinOf s.cfg (.d i))) s = _
  simp only [transport, hi, afterResponse, State.acknowledged, hm, hb, Env.perform_digitalRead, Response.bit.injEq,
    Bool.decide_eq_true]
  rfl

/-- A polling read ends the polling on a match or at `POLL_LIMIT` (R184, R185). -/
theorem exec_pollRead_ack {b : Bool} (hm : s.ms = .pollRead :: k) (hi : s.inbox = .reply false :: rest)
    (hb : s.env.answer s.cfg (.digitalRead (pinOf s.cfg (.d 7))) = .bit b) :
    exec (.digitalRead (pinOf s.cfg (.d 7))) s = .next (
      let t := { s with
        pcnt := s.pcnt + 1, issued := true, inbox := rest, env := s.env.drawn
        trace := s.trace ++ [drEvent s.cfg 7 b] }
      if b = s.em then { t with ms := .restoreBit7 :: k }
      else if s.cfg.pollLimit = some (s.pcnt + 1) then { t with ms := .restoreBit7 :: .raiseTimeout :: k }
      else t) := by
  change transport (.digitalRead (pinOf s.cfg (.d 7))) s = _
  simp only [transport, hi, afterResponse, State.acknowledged, hm, hb, Env.perform_digitalRead, Response.bit.injEq,
    resume_restoreBit7]
  rfl

end Acknowledged

/-! The environment's side: a pin that is set, and a pin that has no role. -/

section Environment

variable {cfg : Params} {e d : Env} {r : Role} {l : Level} {x : Nat}

/-- What is not the device does not matter to it. -/
theorem Env.SameDevice.of_eq (h1 : d.mem = e.mem) (h2 : d.busy = e.busy) (h3 : d.suspect = e.suspect) : e.SameDevice d :=
  ⟨Env.byteAt_of_mem h1, h2, h3⟩

theorem Env.perform_setPinMode_noRole {p : Pin} (h : roleOf cfg p = none) (m : PinMode) :
    e.perform cfg (.setPinMode p m) = e.drawn := by
  simp [Env.perform, h]

theorem Env.perform_digitalWrite_noRole {p : Pin} (h : roleOf cfg p = none) (l : Level) :
    e.perform cfg (.digitalWrite p l) = e.drawn := by
  simp [Env.perform, h]

/-- An SPM of a role's pin, acknowledged or not, sets the pin's mode and nothing else (R53, R64). -/
theorem Env.setMode_frame (e : Env) (r : Role) (m : Option PinMode) :
    let e' := (e.setMode r m).drawn
    e'.pin r = { e.pin r with mode := m } ∧ (∀ r', r' ≠ r → e'.pin r' = e.pin r') ∧ e'.shift = e.shift ∧
      e'.latch = e.latch ∧ e.SameDevice e' := by
  refine ⟨by simp, fun r' hr => by simp [Ne.symm hr], rfl, rfl, .of_eq rfl rfl rfl⟩

/-- Settles O45: `exec_request_ack` and `exec_restoreBit7_ack` with `Env.setMode_frame`. -/
theorem setPinModeRequest : Obligations.SetPinModeRequest := by
  refine ⟨fun s r m k rest hc hm hi => ⟨_, exec_request_ack hm hi, ?_⟩,
    fun s k rest hc hm hi => ⟨_, exec_restoreBit7_ack hm hi, ?_⟩,
    fun s p m k rest hp hm hi => ⟨_, exec_request_ack hm hi, ?_⟩⟩
  · rw [Env.perform_setPinMode hc]
    exact Env.setMode_frame s.env r (some m)
  · rw [Env.perform_setPinMode hc]
    exact Env.setMode_frame s.env (.d 7) (some .output)
  · rw [Env.perform_setPinMode_noRole hp]
    exact ⟨fun _ => rfl, rfl, rfl, .of_eq rfl rfl rfl⟩

/-! DIGITAL_WRITE. -/

/-- What a DIGITAL_WRITE of the pin of `r` leaves as it was before it sets the level: the pins and the shift chain always, the
address lines but for LATCH high, the device but for the pulses of WE. -/
structure Env.Edge (e d : Env) (r : Role) (l : Level) (pulse : Prop) : Prop where
  pins : d.pins = e.pins
  shift : d.shift = e.shift
  latch : r ≠ .latch ∨ l = .low → d.latch = e.latch
  device : r ≠ .we ∨ ¬ pulse → e.SameDevice d

theorem Env.Edge.refl (e : Env) (r : Role) (l : Level) (pulse : Prop) : e.Edge e r l pulse :=
  ⟨rfl, rfl, fun _ => rfl, fun _ => .of_eq rfl rfl rfl⟩

/-- The pins and the chain after the level is set, whatever the device did. -/
theorem Env.Edge.setLevel {pulse : Prop} (h : e.Edge d r l pulse) (lv : Option Level) :
    let e' := (d.setLevel r lv).drawn
    e'.pin r = { e.pin r with level := lv } ∧ (∀ r', r' ≠ r → e'.pin r' = e.pin r') ∧ e'.shift = e.shift ∧
      (r ≠ .latch ∨ l = .low → e'.latch = e.latch) ∧ (r ≠ .we ∨ ¬ pulse → e.SameDevice e') := by
  have hpin : ∀ q, d.pin q = e.pin q := fun q => congrArg (·[q.index]) h.pins
  refine ⟨by simp [hpin], fun r' hr => by simp [Ne.symm hr, hpin], h.shift, h.latch, fun hd => ?_⟩
  obtain ⟨hbytes, hbusy, hsuspect⟩ := h.device hd
  exact ⟨hbytes, hbusy, hsuspect⟩

@[simp] theorem Env.shift_writePulse (cfg : Params) (e : Env) : (e.writePulse cfg).shift = e.shift := by
  unfold Env.writePulse
  split
  · rfl
  · split
    · rfl
    · split
      · exact Env.shift_disturbed
      · rfl

/-- An acknowledged DIGITAL_WRITE sets the level after what its edge does (R64, R66, R68). -/
theorem Env.writePin_edge (cfg : Params) (e : Env) (r : Role) (l : Level) :
    ∃ d, e.writePin cfg r l = d.setLevel r (some l) ∧ e.Edge d r l (l = .high ∧ (e.pin .we).level = some .low) := by
  cases l with
  | low => exact ⟨e, Env.writePin_low cfg e r, .refl ..⟩
  | high =>
    by_cases hlatch : r = .latch
    · subst hlatch
      exact ⟨_, Env.writePin_latch_high cfg e, rfl, rfl, by simp, fun _ => .of_eq rfl rfl rfl⟩
    · by_cases hwe : r = .we
      · subst hwe
        refine ⟨_, Env.writePin_we_high cfg e, ?_⟩
        unfold Env.writeEnableRaised
        split
        · rename_i hlow
          exact ⟨(Env.writePulse_pins cfg e).1, Env.shift_writePulse cfg e,
            fun _ => Env.latch_writePulse cfg e, by simp [hlow]⟩
        · exact .refl ..
      · exact ⟨e, Env.writePin_plain cfg e .high hlatch hwe, .refl ..⟩

/-- Settles O46: `exec_request_ack` with `Env.writePin_edge`. -/
theorem digitalWriteRequest : Obligations.DigitalWriteRequest := by
  refine ⟨fun s r l k rest hc hm hi => ⟨_, exec_request_ack hm hi, ?_⟩,
    fun s p l k rest hp hm hi => ⟨_, exec_request_ack hm hi, ?_⟩⟩
  · rw [Env.perform_digitalWrite hc]
    obtain ⟨d, hd, hedge⟩ := Env.writePin_edge s.cfg s.env r l
    rw [hd]
    obtain ⟨hpin, hothers, hshift, hlatch, hdevice⟩ := hedge.setLevel (some l)
    refine ⟨hpin, hothers, hshift, hlatch, fun h => hdevice (h.imp id ?_)⟩
    rintro (rfl | hne) ⟨hhigh, hlow⟩
    · cases hhigh
    · exact hne hlow
  · rw [Env.perform_digitalWrite_noRole hp]
    exact ⟨fun _ => rfl, rfl, rfl, .of_eq rfl rfl rfl⟩

/-! The rising edges of LATCH and WE. -/

theorem Env.latchRise_of_low (h : (e.pin .latch).level = some .low) : e.latchRise = e.shift.value := by
  simp [Env.latchRise, h]

theorem Env.latchRise_of_unknown (h : (e.pin .latch).level = none ∨ e.shift.value = none) : e.latchRise = none := by
  unfold Env.latchRise
  rcases h with hlevel | hvalue
  · rw [hlevel]
  · rw [hvalue]
    cases (e.pin .latch).level with
    | none => rfl
    | some lv => cases lv <;> rfl

theorem Env.latchRise_of_high (h : (e.pin .latch).level = some .high) :
    e.latchRise = if e.shift.value ≠ none then e.latch else none := by
  cases hv : e.shift.value <;> simp [Env.latchRise, h, hv]

/-- The bits of a byte put together from bits (R58). -/
theorem byteOfBits_bit (b : Fin 8 → Bool) (i : Fin 8) : (byteOfBits b)[i] = b i := by
  have hb : b = ![b 0, b 1, b 2, b 3, b 4, b 5, b 6, b 7] := by
    ext j; fin_cases j <;> rfl
  have bits : ∀ b0 b1 b2 b3 b4 b5 b6 b7 : Bool, ∀ i : Fin 8,
      (byteOfBits ![b0, b1, b2, b3, b4, b5, b6, b7])[i] = ![b0, b1, b2, b3, b4, b5, b6, b7] i := by decide
  rw [hb]
  exact bits ..

/-- The byte that data pins drive which are all outputs at known levels (R68). -/
theorem Env.drivenByte_bits (hm : ∀ i, (e.pin (.d i)).mode = some .output) (hl : ∀ i, (e.pin (.d i)).level ≠ none) :
    ∃ v, e.drivenByte = some v ∧ ∀ i : Fin 8, (e.pin (.d i)).level = some (if v[i] then .high else .low) := by
  have hbit : ∀ i, ∃ lv, (e.pin (.d i)).level = some lv ∧ e.drivenBit i = some (lv == .high) := fun i => by
    obtain ⟨lv, hlv⟩ := Option.ne_none_iff_exists'.1 (hl i)
    exact ⟨lv, hlv, by simp [Env.drivenBit, hm, hlv]⟩
  refine ⟨_, if_pos ?_, fun i => ?_⟩
  · simp only [List.all_eq_true]
    intro i _
    obtain ⟨lv, -, hd⟩ := hbit i
    rw [hd, Option.isSome_some]
  · obtain ⟨lv, hlv, hd⟩ := hbit i
    rw [byteOfBits_bit, hlv, hd]
    cases lv <;> rfl

/-- A write pulse with OE driven high and no cycle in progress starts one (R68). -/
theorem Env.writePulse_starts (hb : e.busy = none) (ho : e.outputEnableAt .high = true) :
    e.writePulse cfg = { e with
      busy := some ⟨e.addressLines cfg, e.drivenByte.getD (Config.freeByte e.draws 0)⟩, suspect := none } := by
  simp [Env.writePulse, hb, ho]

/-- A write pulse with OE low or Unknown (R71). -/
theorem Env.writePulse_of_oe_not_high (hb : e.busy = none) (ho : (e.pin .oe).level ≠ some .high) :
    e.writePulse cfg = e.writeByteAt (e.addressLines cfg) (Config.freeByte e.draws 0) := by
  simp [Env.writePulse, Env.outputEnableAt, hb, ho]

/-- A write pulse with OE high in a pin that is not an output (log 7). -/
theorem Env.writePulse_of_oe_not_output (hb : e.busy = none) (ho : (e.pin .oe).level = some .high)
    (hm : (e.pin .oe).mode ≠ some .output) : e.writePulse cfg = e.disturbed cfg := by
  simp [Env.writePulse, Env.outputEnableAt, hb, ho, hm]

/-- The first of two bytes that are written free is free, also where the second covers it. -/
theorem Env.byteAt_first_of_two_writes (e : Env) (a b n : Nat) :
    ∃ k, ((e.writeByteAt b (Config.freeByte n 0)).writeByteAt a (Config.freeByte n 1)).byteAt b = Config.freeByte n k := by
  by_cases h : b = a
  · exact ⟨1, h ▸ Env.byteAt_writeByteAt_same _ _ _⟩
  · exact ⟨0, (Env.byteAt_writeByteAt_ne _ _ h).trans (Env.byteAt_writeByteAt_same _ _ _)⟩

/-- The cycle that a write pulse may leave behind which came during a cycle: none, or one at any address (R71, log 26). -/
def Env.FreeCycle (cfg : Params) (e d : Env) : Prop :=
  ∃ i j k, d.busy = if Config.freeBit e.draws i then
    some ⟨deviceAddress cfg (Config.freeAddress e.draws j), Config.freeByte e.draws k⟩ else none

/-- A write pulse during a cycle leaves both bytes and the cycle free (R71, log 26). -/
theorem Env.writePulse_of_busy {c : WriteCycle} (hb : e.busy = some c) :
    (∃ k, (e.writePulse cfg).byteAt (e.addressLines cfg) = Config.freeByte e.draws k) ∧
    (∃ k, (e.writePulse cfg).byteAt c.addr = Config.freeByte e.draws k) ∧
    Env.FreeCycle cfg e (e.writePulse cfg) ∧ (e.writePulse cfg).suspect = e.suspect := by
  simp only [Env.writePulse, hb]
  exact ⟨⟨1, Env.byteAt_writeByteAt_same _ _ _⟩, Env.byteAt_first_of_two_writes _ _ _ _, ⟨0, 1, 2, rfl⟩, rfl⟩

/-- The cycle that a disturbed device without one has: one at the address lines or none (R191). -/
theorem Env.busy_disturbed_of_idle (hb : e.busy = none) :
    ∃ j k, (e.disturbed cfg).busy =
      if Config.freeBit e.draws j then some ⟨e.addressLines cfg, Config.freeByte e.draws k⟩ else none := by
  obtain ⟨k, hk⟩ := e.busy_disturbed_eq cfg
  rw [Env.writtenAddress, hb] at hk
  exact ⟨0, k, hk⟩

theorem Env.perform_we_rise (hc : cfg.wf = true) (h : (e.pin .we).level = some .low) :
    e.perform cfg (.digitalWrite (pinOf cfg .we) .high) = ((e.writePulse cfg).setLevel .we (some .high)).drawn := by
  rw [Env.perform_digitalWrite hc, Env.writePin_we_high, Env.writeEnableRaised, if_pos h]

/-- Settles O47: the edge of LATCH by `Env.latchRise`, the pulse of WE by the case of `Env.writePulse` it is. -/
theorem latchAndWriteEnableEdges : Obligations.LatchAndWriteEnableEdges := by
  refine ⟨fun cfg e hc => ?_, fun cfg e a hc hwe hmode hlevel hb hl => ?_, fun cfg e hc hwe => ?_⟩
  · rw [Env.perform_digitalWrite hc, Env.writePin_latch_high]
    exact ⟨Env.latchRise_of_low, Env.latchRise_of_unknown⟩
  · rw [Env.perform_we_rise hc hwe, Env.writePulse_starts hb (by simp [Env.outputEnableAt, hmode, hlevel]),
      addressLines_latched cfg e hl]
    refine ⟨⟨_, rfl, fun hout i => ?_⟩, fun _ => rfl⟩
    by_cases hknown : ∀ j, (e.pin (.d j)).level ≠ none
    · obtain ⟨v, hv, hbits⟩ := Env.drivenByte_bits hout hknown
      rw [hv]
      exact .inl (hbits i)
    · exact .inr (by simpa using hknown)
  · rw [Env.perform_we_rise hc hwe]
    have unchanged : ∀ x, ¬ e.MayChange cfg x → (e.writePulse cfg).byteAt x = e.byteAt x := fun x hx =>
      by_contra fun h => hx (Env.byteAt_writePulse h)
    have idle : e.busy = none → ∀ x, x ≠ e.addressLines cfg → (e.writePulse cfg).byteAt x = e.byteAt x := fun hb x hx =>
      unchanged x (by simp [Env.MayChange, hb, hx])
    refine ⟨fun hb ho => ⟨?_, idle hb, ?_⟩, fun hb ho hm => ⟨?_, idle hb, ?_⟩, fun c hb => ?_⟩
    · rw [Env.writePulse_of_oe_not_high hb ho]
      exact ⟨0, Env.byteAt_writeByteAt_same _ _ _⟩
    · rw [Env.writePulse_of_oe_not_high hb ho]
      exact hb
    · rw [Env.writePulse_of_oe_not_output hb ho hm]
      exact e.byteAt_disturbed_lines cfg
    · rw [Env.writePulse_of_oe_not_output hb ho hm]
      exact Env.busy_disturbed_of_idle hb
    · obtain ⟨hlines, hcycle, hbusy, -⟩ := Env.writePulse_of_busy (cfg := cfg) hb
      exact ⟨hlines, hcycle, fun x h1 h2 => unchanged x (by simp [Env.MayChange, hb, h1, h2]), hbusy⟩

/-! SHIFT_OUT. -/

/-- `SR <- {SR[14:0], b[k]}` (R65). -/
def shiftBit (r : Address) (b : Bool) : Address :=
  (r.extractLsb' 0 15 ++ BitVec.ofBool b : BitVec 16)

theorem toNat_shiftBit (r : Address) (b : Bool) : (shiftBit r b).toNat = (2 * r.toNat + b.toNat) % 2 ^ 16 := by
  rw [shiftBit, toNat_concat, BitVec.extractLsb'_toNat]
  cases b <;> simp <;> omega

theorem toNat_eq_sum_bits (b : Byte) : b.toNat = 128 * b[7].toNat + 64 * b[6].toNat + 32 * b[5].toNat + 16 * b[4].toNat +
    8 * b[3].toNat + 4 * b[2].toNat + 2 * b[1].toNat + b[0].toNat := by
  revert b; decide

/-- Eight shifts, most significant bit first, move the near byte to the far register and the new byte in (R65). -/
theorem shiftBit_byte (hi lo b : Byte) :
    (List.finRange 8).reverse.foldl (fun (r : Address) (i : Fin 8) => shiftBit r b[i]) (hi ++ lo) = lo ++ b := by
  have h8 : (List.finRange 8).reverse = [7, 6, 5, 4, 3, 2, 1, 0] := by decide
  apply BitVec.eq_of_toNat_eq
  simp only [h8, List.foldl_cons, List.foldl_nil, toNat_shiftBit, toNat_concat hi lo, toNat_concat lo b, toNat_eq_sum_bits b]
  have hlo := lo.isLt
  have hb := toNat_eq_sum_bits b ▸ b.isLt
  simp
  omega

/-- A known chain after a byte is shifted in (R65). -/
theorem ShiftChain.value_shiftIn {s : ShiftChain} {v : Address} (h : s.value = some v) (b : Byte) :
    (s.shiftIn b).value =
      some ((List.finRange 8).reverse.foldl (fun (r : Address) (i : Fin 8) => shiftBit r b[i]) v) := by
  unfold ShiftChain.value at h
  split at h
  · rename_i hi lo _ hlo
    obtain rfl := Option.some.inj h
    simp only [shiftBit_byte, ShiftChain.value, ShiftChain.shiftIn, hlo]
  · cases h
  · cases h
  · cases h

theorem Env.perform_shiftOut_other {dp cp : Pin} {o : BitOrder} (b : Byte)
    (h : ¬ (dp = pinOf cfg .sd ∧ cp = pinOf cfg .sc)) :
    e.perform cfg (.shiftOut dp cp o b) = { e with shift := ⟨none, none⟩ }.drawn := by
  have : ¬ (dp = pinOf cfg .sd ∧ cp = pinOf cfg .sc ∧ o = .msbFirst) := fun ⟨h1, h2, _⟩ => h ⟨h1, h2⟩
  simp [Env.perform, Env.shiftOut, this]

/-- Settles O48: `exec_request_ack` with `Env.perform_shiftOut` and `ShiftChain.value_shiftIn`. -/
theorem shiftOutRequest : Obligations.ShiftOutRequest := by
  refine ⟨fun s b k rest hm hi => ⟨_, exec_request_ack hm hi, ?_⟩, fun cfg e hi lo => ?_, fun cfg e dp cp b => rfl,
    fun s dp cp b k rest hp hm hi => ⟨_, exec_request_ack hm hi, ?_⟩⟩
  · rw [Env.perform_shiftOut]
    exact ⟨fun v hv => ShiftChain.value_shiftIn hv b, fun _ => rfl, rfl, .of_eq rfl rfl rfl⟩
  · rw [Env.perform_shiftOut, Env.perform_shiftOut]
    rfl
  · rw [Env.perform_shiftOut_other b hp]
    exact ⟨rfl, fun _ => rfl, rfl, .of_eq rfl rfl rfl⟩

/-! DIGITAL_READ. -/

/-- The bit of the byte at the address lines (R67). -/
theorem Env.dataBit_latched {i : Fin 8} (ho : e.pin .oe = ⟨some .output, some .low⟩)
    (hd : (e.pin (.d i)).mode = some .input) (hw : (e.pin .we).level = some .high) (hb : e.busy = none)
    (hl : e.latch ≠ none) : e.dataBit cfg i = (e.byteAt (e.addressLines cfg))[i] := by
  simp [Env.dataBit, Env.outputEnableAt, ho, hd, hb, hw, Option.isSome_iff_ne_none.2 hl]

theorem Env.answer_digitalRead_bit (cfg : Params) (e : Env) (p : Pin) : ∃ b, e.answer cfg (.digitalRead p) = .bit b := by
  simp only [Env.answer]
  split <;> exact ⟨_, rfl⟩

/-- Settles O49: `exec_sample_ack` and `exec_pollRead_ack` with the bit of `Env.dataBit`. -/
theorem digitalReadRequest : Obligations.DigitalReadRequest := by
  refine ⟨fun s i k rest hc hi => ⟨s.env.dataBit s.cfg i, s.env.drawn, ?_, ?_, ?_, ?_, fun _ => rfl, rfl, rfl,
    .of_eq rfl rfl rfl⟩, fun s p k rest hm hi => ?_⟩
  · exact fun hm => exec_sample_ack hm hi (Env.answer_digitalRead hc _ _)
  · rintro hm rfl
    exact exec_pollRead_ack hm hi (Env.answer_digitalRead hc _ _)
  · intro a ho hd hw hb hl
    rw [Env.dataBit_latched ho hd hw hb (by simp [hl]), addressLines_latched _ _ hl]
  · rintro c ho hd hb rfl
    exact Env.dataBit_busy ho hd hb
  · obtain ⟨b, hb⟩ := Env.answer_digitalRead_bit s.cfg s.env p
    exact ⟨b, s.env.drawn, hb ▸ exec_request_ack hm hi, fun _ => rfl, rfl, rfl, .of_eq rfl rfl rfl⟩

/-! Requests that answer `error`. -/

theorem Env.mayPulse_iff : e.mayPulse l = true ↔ l = .low ∨ (e.pin .we).level ≠ some .high := by
  simp [Env.mayPulse]

/-- The request may be part of a write pulse exactly if it is such a DIGITAL_WRITE of WE (R53, log 8). -/
theorem Env.pulses_iff (hc : cfg.wf = true) {req : Request} : e.pulses cfg req = true ↔
    ∃ l, req = .digitalWrite (pinOf cfg .we) l ∧ (l = .low ∨ (e.pin .we).level ≠ some .high) := by
  cases req with
  | setPinMode p m => simp [Env.pulses]
  | digitalRead p => simp [Env.pulses]
  | shiftOut dp cp o b => simp [Env.pulses]
  | digitalWrite p l =>
    simp only [Env.pulses, Bool.and_eq_true, beq_iff_eq, Env.mayPulse_iff]
    constructor
    · rintro ⟨hr, hl⟩
      exact ⟨l, by rw [roleOf_eq_some hr], hl⟩
    · rintro ⟨l', heq, hl⟩
      cases heq
      exact ⟨roleOf_pinOf hc .we, hl⟩

theorem Env.interruptedWrite_of_idle (hb : e.busy = none) : e.interruptedWrite cfg = e.disturbed cfg := by
  simp [Env.interruptedWrite, hb]

theorem Env.interruptedWrite_of_busy {c : WriteCycle} (hb : e.busy = some c) :
    e.interruptedWrite cfg = e.writePulse cfg := by
  simp [Env.interruptedWrite, hb]

/-- A write that may have been cut off moves no pin, not the chain and not the address lines. -/
theorem Env.interruptedWrite_edge (cfg : Params) (e : Env) (l : Level) :
    e.Edge (e.interruptedWrite cfg) .we l True := by
  cases hb : e.busy with
  | none =>
    rw [Env.interruptedWrite_of_idle hb]
    exact ⟨Env.pins_disturbed, Env.shift_disturbed, fun _ => Env.latch_disturbed, by simp⟩
  | some c =>
    rw [Env.interruptedWrite_of_busy hb]
    exact ⟨(Env.writePulse_pins cfg e).1, Env.shift_writePulse cfg e, fun _ => Env.latch_writePulse cfg e, by simp⟩

/-- What a write that may have been cut off, or have been a pulse during a cycle, leaves of the device (R191; logs 8, 26). -/
theorem Env.interruptedWrite_device (cfg : Params) (e : Env) :
    let d := e.interruptedWrite cfg
    (∃ k, d.byteAt (e.addressLines cfg) = Config.freeByte e.draws k) ∧
    (∀ x, x ≠ e.addressLines cfg → (∀ c, e.busy = some c → x ≠ c.addr) → d.byteAt x = e.byteAt x) ∧
    (e.busy = none → ∃ j k, d.busy =
      if Config.freeBit e.draws j then some ⟨e.addressLines cfg, Config.freeByte e.draws k⟩ else none) ∧
    (∀ c, e.busy = some c → (∃ k, d.byteAt c.addr = Config.freeByte e.draws k) ∧ Env.FreeCycle cfg e d) ∧
    d.suspect = e.suspect := by
  have unchanged : ∀ x, x ≠ e.addressLines cfg → (∀ c, e.busy = some c → x ≠ c.addr) →
      (e.interruptedWrite cfg).byteAt x = e.byteAt x := fun x hlines hcycle =>
    by_contra fun h => (Env.byteAt_interruptedWrite h).elim hlines fun ⟨c, hb, hx⟩ => hcycle c hb hx
  cases hb : e.busy with
  | none =>
    rw [hb] at unchanged
    rw [Env.interruptedWrite_of_idle hb] at unchanged ⊢
    exact ⟨e.byteAt_disturbed_lines cfg, unchanged, fun _ => Env.busy_disturbed_of_idle hb, nofun, Env.suspect_disturbed⟩
  | some c =>
    rw [hb] at unchanged
    rw [Env.interruptedWrite_of_busy hb] at unchanged ⊢
    obtain ⟨hlines, hcycle, hfree, hsuspect⟩ := Env.writePulse_of_busy (cfg := cfg) hb
    refine ⟨hlines, unchanged, nofun, fun c' hc' => ?_, hsuspect⟩
    cases hc'
    exact ⟨hcycle, hfree⟩

theorem Env.failPin_we (cfg : Params) (e : Env) (l : Level) : e.failPin cfg .we l =
    (if e.mayPulse l then e.interruptedWrite cfg else e).setLevel .we none := rfl

/-- A DIGITAL_WRITE that answered `error` makes the level Unknown after what its edge may have done (R53). -/
theorem Env.failPin_edge (cfg : Params) (e : Env) (r : Role) (l : Level) :
    ∃ d, e.failPin cfg r l = d.setLevel r none ∧ e.Edge d r l (e.mayPulse l = true) := by
  cases r with
  | latch =>
    cases l with
    | low => exact ⟨e, rfl, .refl ..⟩
    | high => exact ⟨_, rfl, rfl, rfl, by simp, fun _ => .of_eq rfl rfl rfl⟩
  | we =>
    refine ⟨_, Env.failPin_we cfg e l, ?_⟩
    split
    · rename_i hp
      obtain ⟨hpins, hshift, hlatch, -⟩ := Env.interruptedWrite_edge cfg e l
      exact ⟨hpins, hshift, hlatch, by simp [hp]⟩
    · exact .refl ..
  | sd | sc | d _ | oe => exact ⟨e, rfl, .refl ..⟩

/-- `LAT` after a DIGITAL_WRITE of LATCH high that answered `error` (R66, log 12). -/
theorem Env.latch_failPin_latch_high (cfg : Params) (e : Env) : (e.failPin cfg .latch .high).latch =
    if (e.pin .latch).level = some .high ∧ e.shift.value ≠ none then e.latch else none := by
  change (if (e.pin .latch).level = some .high then e.latchRise else none) = _
  by_cases h : (e.pin .latch).level = some .high
  · simp [h, Env.latchRise_of_high h]
  · simp [h]

/-- The device does not matter to a request that fails and may not have been part of a write pulse, nor it to the device. -/
theorem Env.fail_withDevice {req : Request} (hp : e.pulses cfg req = false) (m : List Host.Cell) (b : Option WriteCycle) :
    Env.fail cfg { e with mem := m, busy := b } req = { e.fail cfg req with mem := m, busy := b } := by
  cases req with
  | setPinMode p md => simp only [Env.fail]; split <;> rfl
  | digitalRead p => rfl
  | shiftOut dp cp o v => rfl
  | digitalWrite p l =>
    simp only [Env.fail]
    split
    · rename_i r hr
      cases r with
      | we =>
        have hl : e.mayPulse l = false := by simpa [Env.pulses, hr] using hp
        have hl' : Env.mayPulse { e with mem := m, busy := b } l = false := hl
        simp only [Env.failPin_we, hl, hl']
        rfl
      | latch => cases l <;> rfl
      | sd | sc | d _ | oe => rfl
    · rfl

/-- A write that is cut off touches the device only. -/
theorem Env.disturbed_eq (cfg : Params) (e : Env) : ∃ m b, e.disturbed cfg = { e with mem := m, busy := b } := by
  unfold Env.disturbed
  split <;> exact ⟨_, _, rfl⟩

/-- The byte of a cycle that a cut-off write came upon is free (R191). -/
theorem Env.byteAt_disturbed_cycle {c : WriteCycle} (hb : e.busy = some c) :
    ∃ k, (e.disturbed cfg).byteAt c.addr = Config.freeByte e.draws k := by
  simp only [Env.disturbed, hb]
  exact Env.byteAt_first_of_two_writes _ _ _ _

/-- A request that fails past the `DW(WE, L)` of a write (R191, R225). -/
theorem State.envAfterFailure_of_past {s : State} {req : Request} (h : s.pastWriteLow = true)
    (hp : s.env.pulses s.cfg req = false) : s.envAfterFailure req = (s.env.disturbed s.cfg).fail s.cfg req := by
  simp [State.envAfterFailure, h, hp]

/-- Where the request may have been part of a write pulse, it disturbs the device itself, wherever it fails (R191). -/
theorem State.envAfterFailure_of_pulse {s : State} {req : Request} (hp : s.env.pulses s.cfg req = true) :
    s.envAfterFailure req = s.env.fail s.cfg req := by
  simp [State.envAfterFailure, hp]

/-- Past the `DW(WE, L)` or not, a failed request leaves the pins, the chain and the address lines alike. -/
theorem State.envAfterFailure_lines (s : State) (req : Request) :
    (s.envAfterFailure req).pins = (s.env.fail s.cfg req).pins ∧
    (s.envAfterFailure req).shift = (s.env.fail s.cfg req).shift ∧
    (s.envAfterFailure req).latch = (s.env.fail s.cfg req).latch := by
  cases hpast : s.pastWriteLow with
  | false =>
    rw [State.envAfterFailure_of_not_past hpast]
    exact ⟨rfl, rfl, rfl⟩
  | true =>
    cases hp : s.env.pulses s.cfg req with
    | true =>
      rw [State.envAfterFailure_of_pulse hp]
      exact ⟨rfl, rfl, rfl⟩
    | false =>
      obtain ⟨m, b, hd⟩ := s.env.disturbed_eq s.cfg
      rw [State.envAfterFailure_of_past hpast hp, hd, Env.fail_withDevice hp]
      exact ⟨rfl, rfl, rfl⟩

/-- A DIGITAL_WRITE of WE that answered `error` and may have been part of a write pulse (R191). -/
theorem Env.fail_digitalWrite_we (hc : cfg.wf = true) (hl : e.mayPulse l = true) :
    e.fail cfg (.digitalWrite (pinOf cfg .we) l) = ((e.interruptedWrite cfg).setLevel .we none).drawn := by
  rw [Env.fail_digitalWrite hc, Env.failPin_we, if_pos hl]

/-- What an errored request leaves where it fails in a procedure: past the `DW(WE, L)` the byte at the address lines is free,
whichever request it is. -/
theorem State.envAfterFailure_byteAt_lines {s : State} (req : Request) (hc : s.cfg.wf = true)
    (hpast : s.pastWriteLow = true) :
    ∃ k, (s.envAfterFailure req).byteAt (s.env.addressLines s.cfg) = Config.freeByte s.env.draws k := by
  cases hp : s.env.pulses s.cfg req with
  | true =>
    obtain ⟨l, rfl, hl⟩ := (Env.pulses_iff hc).1 hp
    rw [State.envAfterFailure_of_pulse hp, Env.fail_digitalWrite_we hc (Env.mayPulse_iff.2 hl)]
    exact (s.env.interruptedWrite_device s.cfg).1
  | false =>
    rw [State.envAfterFailure_of_past hpast hp, Env.byteAt_fail_not_pulse (by simpa using hp)]
    exact s.env.byteAt_disturbed_lines s.cfg

/-- Settles O50: the failure of each request by its own equation, then `State.envAfterFailure` past the `DW(WE, L)` or not. -/
theorem erroredRequests : Obligations.ErroredRequests := by
  refine ⟨fun cfg e r hc => ⟨fun m => ?_, fun l => ?_, fun p => ?_, fun dp cp o b => ?_⟩, fun s req hc => ?_⟩
  · rw [Env.fail_setPinMode hc]
    exact Env.setMode_frame e r none
  · obtain ⟨d, hd, hedge⟩ := Env.failPin_edge cfg e r l
    obtain ⟨hpin, hothers, hshift, hlatch, hdevice⟩ := hedge.setLevel none
    rw [← hd, ← Env.fail_digitalWrite hc] at hpin hothers hshift hlatch hdevice
    refine ⟨hpin, hothers, hshift, hlatch, ?_, fun h => hdevice (h.imp id ?_), ?_⟩
    · rintro rfl rfl
      rw [Env.fail_digitalWrite hc]
      exact Env.latch_failPin_latch_high cfg e
    · rintro ⟨rfl, hhigh⟩
      simp [Env.mayPulse_iff, hhigh]
    · rintro rfl hl
      rw [Env.fail_digitalWrite_we hc (Env.mayPulse_iff.2 hl)]
      exact e.interruptedWrite_device cfg
  · exact ⟨fun _ => rfl, rfl, rfl, .of_eq rfl rfl rfl⟩
  · exact ⟨fun _ => rfl, rfl, rfl, .of_eq rfl rfl rfl⟩
  · obtain ⟨hpins, hshift, hlatch⟩ := s.envAfterFailure_lines req
    refine ⟨State.envAfterFailure_of_not_past, fun hp => State.envAfterFailure_of_pulse ((Env.pulses_iff hc).2 hp),
      fun q => congrArg (·[q.index]) hpins, hshift, hlatch, fun x hlines hcycle => ?_,
      State.envAfterFailure_byteAt_lines req hc, fun hpast hp => ?_⟩
    · by_contra h
      exact (State.byteAt_envAfterFailure h).1.elim hlines fun ⟨c, hb, hx⟩ => hcycle c hb hx
    · have hfalse : s.env.pulses s.cfg req = false := Bool.eq_false_iff.2 fun h => hp ((Env.pulses_iff hc).1 h)
      have hdist : (s.env.disturbed s.cfg).pulses s.cfg req = false := by simpa using hfalse
      rw [State.envAfterFailure_of_past hpast hfalse]
      refine ⟨fun c hb => ?_, ?_⟩
      · rw [Env.byteAt_fail_not_pulse hdist]
        exact Env.byteAt_disturbed_cycle hb
      · rw [Env.busy_fail_not_pulse hdist]
        exact ⟨0, s.env.busy_disturbed_eq s.cfg⟩

/-! The device's own steps. -/

theorem Env.completeCycle_of_busy {c : WriteCycle} (hb : e.busy = some c) :
    e.completeCycle = { e.writeByteAt c.addr c.data with busy := none } := by
  simp only [Env.completeCycle, hb]

theorem Env.deviceFault_of_suspect {a : Nat} (hs : e.suspect = some a) :
    e.deviceFault = { (e.writeByteAt a (Config.freeByte e.draws 0)).drawn with
      busy := if Config.freeBit e.draws 0 then some ⟨a, Config.freeByte e.draws 1⟩ else none } := by
  simp only [Env.deviceFault, hs]

theorem Env.deviceFault_of_none (hs : e.suspect = none) : e.deviceFault = e := by
  simp only [Env.deviceFault, hs]

theorem step_deviceFault {s : State} {rest : List Input} (hi : s.inbox = .deviceFault :: rest) :
    step s = .next { s with inbox := rest, env := s.env.deviceFault } := by
  unfold step; rw [hi]

/-- Settles O51: `Env.completeCycle_of_busy`, with the read of D7 by `Env.dataBit_latched`, and
`Env.deviceFault_of_suspect`. -/
theorem writeCycleCompletes : Obligations.WriteCycleCompletes := by
  refine ⟨fun s c rest hi hb => ⟨_, step_complete hi, ?_⟩, fun s rest hi => ⟨_, step_deviceFault hi, fun a hs => ?_,
    Env.deviceFault_of_none⟩⟩
  · rw [Env.completeCycle_of_busy hb]
    have hbyte : (s.env.writeByteAt c.addr c.data).byteAt c.addr = c.data := Env.byteAt_writeByteAt_same _ _ _
    refine ⟨rfl, hbyte, fun x hx => Env.byteAt_writeByteAt_ne s.env c.data hx, fun _ => rfl, rfl, ?_⟩
    intro hlines hl ho hw hd
    rw [Env.dataBit_latched ho hd hw rfl hl, hlines]
    exact congrArg (·[7]) hbyte
  · rw [Env.deviceFault_of_suspect hs]
    exact ⟨⟨0, Env.byteAt_writeByteAt_same _ _ _⟩, fun x hx => Env.byteAt_writeByteAt_ne s.env _ hx, hs,
      fun _ => rfl, rfl, rfl, 0, 1, rfl⟩

end Environment

end Sys2Proof.Machine
end

section
/-! PROOF. A READ after a WRITE returns the byte written (20_memory.md R75). Both commands run by `reaches_writeByte` and
`reaches_readByte` in Laws/Procedures.lean; what is added here is the acceptance of a command word and the responses of a
trace. -/

namespace Sys2Proof.Machine

/-! The words of the two commands (R92, R93). -/

theorem decode_encode_write (a : Address) (v : Byte) : decode .command (encode (.write a v)) = .ok (.write a v) := by
  obtain ⟨hop, hrsv, ha, hv⟩ := fields_encode_write a v
  simp [decode, decodeCommand, decodeOperand, hop, hrsv, ha, hv]

theorem decode_encode_read (a : Address) : decode .command (encode (.read a)) = .ok (.read a) := by
  obtain ⟨hop, hrsv, hzero, ha⟩ := fields_encodeAddress 0x5#4 a
  simp [encode, decode, decodeCommand, decodeOperand, requireZero, hop, hrsv, hzero, ha]

/-! Responses of a trace. -/

/-- The response word of an event, if it is one. -/
def Event.word? : Event → Option Word
  | .response w => some w
  | .request _ _ | .delay _ _ _ | .text _ => none

theorem State.responses_eq (s : State) : s.responses = s.trace.filterMap Event.word? := by
  refine congrArg (List.filterMap · s.trace) (funext fun x => ?_)
  cases x <;> rfl

/-- A stretch of the trace without a response word. -/
def Silent (events : List Event) : Prop :=
  events.filterMap Event.word? = []

theorem Silent.append {xs ys : List Event} (hx : Silent xs) (hy : Silent ys) : Silent (xs ++ ys) := by
  rw [Silent, List.filterMap_append, hx, hy]; rfl

theorem Silent.map {α : Type} {f : α → Event} (hf : ∀ x, (f x).word? = none) (l : List α) : Silent (l.map f) := by
  simp [Silent, hf]

/-- A delivered response word comes after those before it (R100). -/
theorem State.responses_deliver {s t : State} {events : List Event} (h : t.trace = s.trace ++ events) (hs : Silent events)
    (st : Status) (v : Byte) : (t.deliver st v).responses = s.responses ++ [responseWord st t.issued v] := by
  rw [Silent] at hs
  simp [State.responses_eq, h, hs, Event.word?]

theorem optionalDelayEvent_silent (cfg : Params) (kind : DelayKind) (n : Nat) : Silent (optionalDelayEvent cfg kind n) := by
  unfold optionalDelayEvent
  split <;> rfl

theorem addressEvents_silent (s : State) (a : Address) : Silent (addressEvents s a) := by
  unfold addressEvents
  split
  · rfl
  · have hdelay := optionalDelayEvent_silent s.cfg .us
    exact .append (.append (.append rfl (hdelay _)) rfl) (hdelay _)

theorem modeEvents_silent (s : State) (d : PinMode) : Silent (modeEvents s d) := by
  unfold modeEvents
  split
  · rfl
  · exact .map (fun _ => rfl) _

theorem outputEnableEvents_silent (s : State) (e : Bool) : Silent (outputEnableEvents s e) := by
  unfold outputEnableEvents
  split <;> rfl

theorem sampleEvents_silent (cfg : Params) (v : Byte) : Silent (sampleEvents cfg v) :=
  .map (fun _ => rfl) _

theorem driveEvents_silent (cfg : Params) (v : Byte) : Silent (driveEvents cfg v) :=
  .append (.append (.append (.map (fun _ => rfl) _) rfl) (optionalDelayEvent_silent ..)) rfl

theorem pollEvents_silent (cfg : Params) (bits : List Bool) : Silent (pollEvents cfg bits) :=
  .append (.append rfl (.map (fun _ => rfl) bits)) rfl

/-! The two commands from a command position. -/

/-- Where the block stands at a command position with the word of `i` taken (R254). -/
def State.accepting (s : State) (i : Instr) (ws : List Word) : State :=
  { s.taken ws with issued := false, current := .command i }

theorem State.Operational.accepting {s : State} (h : s.Operational) (i : Instr) (ws : List Word) :
    (s.accepting i ws).Operational :=
  ⟨h.config, h.ready, ⟨h.coherent.address, h.coherent.direction, h.coherent.outputEnable⟩, h.quiescent⟩

section Commands

variable {s : State} {a : Address} {ws : List Word} {rest : List Input}

/-- A one-word command of a READY block whose address is a device address starts its procedure (R254). -/
theorem reaches_accepting {w : Word} {i : Instr} {ops : List MicroOp} (hl : s.lc = .ready) (hm : s.ms = [])
    (ht : SequencerTurn s.inbox) (hp : s.port = w :: ws) (hd : decode .command w = .ok i)
    (hx : exec i (s.taken ws) = accept i (s.taken ws) (resume ops)) (ha : addressOutOfRange s.cfg i = false) :
    Reaches s (resume ops (s.accepting i ws)) := by
  have hstep : step s = accept i (s.taken ws) (resume ops) := (step_command hm ht hp hd).trans hx
  exact Reaches.single (hstep.trans (accept_runs (.inl hl) ha))

/-- A run of acknowledgements is the sequencer's turn, whatever comes after it. -/
theorem SequencerTurn.of_acks {n : Nat} (h : 0 < n) (l : List Input) : SequencerTurn (acks n ++ l) := by
  obtain ⟨m, rfl⟩ : ∃ m, n = m + 1 := ⟨n - 1, by omega⟩
  rw [acks_succ]
  exact .reply _ _

/-- WRITE with every request acknowledged, from its word to its response (R183): the block is operational again, the address
is cached, the data pins are outputs and output is enabled, so a READ there has the 8 SPMs and the 8 samples left. -/
theorem reaches_write_answer {v : Byte} {misses : Nat} (h : s.Operational) (hm : s.ms = [])
    (ha : a.toNat < s.cfg.capacity) (hlim : ∀ n, s.cfg.pollLimit = some n → misses < n)
    (hp : s.port = encode (.write a v) :: ws) (hi : s.inbox = writeInputs (writeCost s a) misses ++ rest)
    (hturn : SequencerTurn rest) :
    ∃ u, Reaches s u ∧ u.Operational ∧ u.Idle ∧ u.port = ws ∧ u.cp = s.cp + 1 ∧ u.inbox = rest ∧ u.cfg = s.cfg ∧
      u.responses = s.responses ++ [responseWord .ok true 0] ∧ u.env.byteAt a.toNat = v ∧ readCost u a = 16 := by
  have ht : SequencerTurn s.inbox := by
    rw [hi, writeInputs, List.append_assoc, List.append_assoc]
    exact .of_acks (by simp [writeCost]) _
  have hrange : addressOutOfRange s.cfg (.write a v) = false := by simpa [addressOutOfRange] using ha
  have haccept := reaches_accepting (i := .write a v) h.ready hm ht hp (decode_encode_write a v) rfl hrange
  obtain ⟨e, hrun, hdata, hoe, hothers, hlatch, hmem, hbusy, -⟩ := reaches_writeByte (v := v) [.respond .ok]
    (h.accepting (.write a v) ws) ha hi hlim
  refine ⟨_, haccept.trans (hrun.trans (reaches_respond hturn)), ?_, ⟨rfl, rfl⟩, rfl, rfl, rfl, rfl, ?_, ?_, ?_⟩
  · exact (h.accepting (.write a v) ws).after rfl rfl rfl rfl rfl (fun i => by simp [hdata]) hoe hothers hlatch hbusy
  · refine State.responses_deliver (s := s) rfl ?_ .ok 0
    exact .append (.append (.append (.append (addressEvents_silent ..) (outputEnableEvents_silent ..))
      (modeEvents_silent ..)) (driveEvents_silent ..)) (pollEvents_silent ..)
  · change e.byteAt a.toNat = v
    rw [Env.byteAt, hmem]
    exact Memory.read_write_same ..
  · simp [readCost, addressCost, modeCost, outputEnableCost]

/-- READ with every request acknowledged, from its word to its response (R181). -/
theorem reaches_read_answer (h : s.Operational) (hm : s.ms = []) (ha : a.toNat < s.cfg.capacity)
    (hp : s.port = encode (.read a) :: ws) (hi : s.inbox = acks (readCost s a) ++ rest) (hturn : SequencerTurn rest) :
    ∃ u, Reaches s u ∧ u.Idle ∧ u.port = ws ∧ u.cp = s.cp + 1 ∧ u.inbox = rest ∧
      u.responses = s.responses ++ [responseWord .ok true (s.env.byteAt a.toNat)] := by
  have ht : SequencerTurn s.inbox := by
    rw [hi]
    exact .acks_append _ hturn
  have hrange : addressOutOfRange s.cfg (.read a) = false := by simpa [addressOutOfRange] using ha
  have haccept := reaches_accepting (i := .read a) h.ready hm ht hp (decode_encode_read a) rfl hrange
  obtain ⟨e, hrun, -⟩ := reaches_readByte [.respondByte] (h.accepting (.read a) ws) ha hi hturn
  refine ⟨_, haccept.trans (hrun.trans (reaches_respondByte hturn)), ⟨rfl, rfl⟩, rfl, rfl, rfl, ?_⟩
  refine State.responses_deliver (s := s) rfl ?_ .ok _
  exact .append (.append (.append (addressEvents_silent ..) (modeEvents_silent ..)) (outputEnableEvents_silent ..))
    (sampleEvents_silent ..)

end Commands

/-- The response of a READ, `0x000001vv` (R100, R181). -/
theorem responseWord_ok_issued (v : Byte) : responseWord .ok true v = 0x00000100#32 ||| v.setWidth 32 := by
  revert v; decide

/-- Settles O59: `reaches_write_answer`, then `reaches_read_answer` from where it ends. -/
theorem writeThenReadReturnsTheByte : Obligations.WriteThenReadReturnsTheByte := by
  intro s a v misses ws rest h hidle ha hlim hp hi hturn
  rw [List.append_assoc] at hi
  obtain ⟨t, hwrite, hop, hidle', hport, hcp, hin, hcfg, hresp, hbyte, hcost⟩ :=
    reaches_write_answer h hidle.1 ha hlim hp hi (.acks_append 16 hturn)
  obtain ⟨u, hread, huidle, huport, hucp, huin, huresp⟩ :=
    reaches_read_answer hop hidle'.1 (hcfg ▸ ha) hport (hcost ▸ hin) hturn
  refine ⟨u, hwrite.trans hread, huidle, huport, by rw [hucp, hcp], huin, ?_⟩
  have hack : responseWord .ok true 0 = 0x00000100#32 := by decide
  rw [huresp, hresp, hbyte, hack, responseWord_ok_issued, List.append_assoc, List.singleton_append]

end Sys2Proof.Machine
end

section
/-! PROOF. The encoding (30_encoding.md R91 to R97, R102, R103). Encoder and decoder are shown to be inverse to each other format
by format: the fields of an encoded word are those of Laws/Encoding.lean, and a word is put together again from its fields. -/

namespace Sys2Proof

/-! Decoding an encoded word: what the decoder makes of a format, given what it makes of the fields of that format. -/

/-- With `RSV = 0` the operand rules of the opcode decide (R96). -/
theorem decode_command_of_rsv {w : Word} (h : field w 24 4 = 0#4) : decode .command w = decodeOperand w := by
  simp [decode, decodeCommand, h]

/-- With a reserved opcode `RSV` is not looked at (R96). -/
theorem decode_command_of_reservedOpcode {w : Word} (h : reservedOpcode w = true) : decode .command w = decodeOperand w := by
  simp [decode, decodeCommand, h]

section Formats

variable {op : BitVec 4} {i : Instr}

theorem decode_encodeCount {n : Count}
    (h : ∀ w, field w 28 4 = op → field w 0 24 = n → decodeOperand w = .ok i) :
    decode .command (encodeCount op n) = .ok i := by
  obtain ⟨hop, hrsv, hn⟩ := fields_encodeCount op n
  rw [decode_command_of_rsv hrsv, h _ hop hn]

theorem decode_encodeAddress {a : Address}
    (h : ∀ w, field w 28 4 = op → field w 0 8 = 0#8 → field w 8 16 = a → decodeOperand w = .ok i) :
    decode .command (encodeAddress op a) = .ok i := by
  obtain ⟨hop, hrsv, hzero, ha⟩ := fields_encodeAddress op a
  rw [decode_command_of_rsv hrsv, h _ hop hzero ha]

theorem decode_encodeFlag {b : BitVec 1}
    (h : ∀ w, field w 28 4 = op → field w 1 23 = 0#23 → field w 0 1 = b → decodeOperand w = .ok i) :
    decode .command (encodeFlag op b) = .ok i := by
  obtain ⟨hop, hrsv, hzero, hb⟩ := fields_encodeFlag op b
  rw [decode_command_of_rsv hrsv, h _ hop hzero hb]

/-- The fields of a reserved opcode's word (R96). -/
theorem fields_opcode_rest (op : BitVec 4) (r : BitVec 28) :
    field (op ++ r : Word) 28 4 = op ∧ field (op ++ r : Word) 0 28 = r := by
  have := op.isLt
  have := r.isLt
  refine ⟨?_, ?_⟩ <;> apply field_eq <;> rw [toNat_opcode_rest] <;> simp <;> omega

theorem decode_opcode_rest {r : BitVec 28} (hop : op = 0x0#4 ∨ op = 0xE#4 ∨ op = 0xF#4)
    (h : ∀ w, field w 28 4 = op → field w 0 28 = r → decodeOperand w = .ok i) :
    decode .command (op ++ r : Word) = .ok i := by
  obtain ⟨hw, hr⟩ := fields_opcode_rest op r
  have hres : reservedOpcode (op ++ r : Word) = true := by
    rcases hop with rfl | rfl | rfl <;> simp [reservedOpcode, hw]
  rw [decode_command_of_reservedOpcode hres, h _ hw hr]

theorem decode_encodePin {p : Pin} {b : BitVec 1}
    (h : ∀ w, field w 28 4 = op → field w 20 8 = p → field w 1 19 = 0#19 → field w 0 1 = b → decodeRequest w = .ok i) :
    decode .request (encodePin op p b) = .ok i := by
  obtain ⟨hop, hp, hzero, hb⟩ := fields_encodePin op p b
  exact h _ hop hp hzero hb

end Formats

@[simp] theorem modeOfBit_bit (m : PinMode) : modeOfBit m.bit = m := by
  cases m <;> rfl

@[simp] theorem levelOfBit_bit (l : Level) : levelOfBit l.bit = l := by
  cases l <;> rfl

@[simp] theorem ofBool_beq_one (b : Bool) : (BitVec.ofBool b == 1#1) = b := by
  cases b <;> rfl

/-- The low 20 bits of a one-pin request, whole and in the parts that R102 names: `CLK`, the zero bits, `ORD` and `ARG`. -/
theorem fields_encodePin_low (top : BitVec 4) (p : Pin) (b : BitVec 1) :
    field (encodePin top p b) 0 20 = b.setWidth 20 ∧ field (encodePin top p b) 12 8 = 0#8 ∧
      field (encodePin top p b) 9 3 = 0#3 ∧ field (encodePin top p b) 8 1 = 0#1 ∧
      field (encodePin top p b) 0 8 = b.setWidth 8 := by
  have := b.isLt
  refine ⟨?_, ?_, ?_, ?_, ?_⟩ <;> apply field_eq <;> rw [toNat_encodePin] <;> simp <;> omega

/-- Settles O1: format by format, the fields of the encoded word are the ones that the decoder reads. -/
theorem decodeOfEncode : Obligations.DecodeOfEncode := by
  intro i hw
  cases i with
  | setup | close =>
    exact decode_encodeCount fun w hop hzero => by simp [decodeOperand, requireZero, hop, hzero]
  | delayNs n | delayUs n | delayMs n | writeBlock n | clear n | dump n =>
    exact decode_encodeCount fun w hop hn => by simp [decodeOperand, hop, hn]
  | setAddr a =>
    exact decode_encodeAddress fun w hop hzero ha => by simp [decodeOperand, requireZero, hop, hzero, ha]
  | read a => exact Machine.decode_encode_read a
  | write a v => exact Machine.decode_encode_write a v
  | setMode d | setOe e =>
    exact decode_encodeFlag fun w hop hzero hflag => by simp [decodeOperand, requireZero, hop, hzero, hflag]
  | reserved0 r | reservedE r | reservedF r =>
    exact decode_opcode_rest (by simp) fun w hop hr => by simp [decodeOperand, hop, hr]
  | payload b =>
    obtain ⟨hzero, hb⟩ := fields_encode_payload b
    simp [Instr.stream, decode, decodePayload, hzero, hb]
  | setPinMode p m | digitalWrite p l =>
    exact decode_encodePin fun w hop hp hzero harg => by simp [decodeRequest, requireRequest, hop, hp, hzero, harg]
  | digitalRead p =>
    obtain ⟨hop, hp, -⟩ := fields_encodePin 0x3#4 p 0#1
    obtain ⟨hzero, -⟩ := fields_encodePin_low 0x3#4 p 0#1
    simp [Instr.stream, encode, decode, decodeRequest, requireRequest, hop, hp, hzero]
  | shiftOut dp cp o b =>
    obtain rfl : o = .msbFirst := by simpa [Instr.wellFormed] using hw
    obtain ⟨hop, hdp, hcp, hzero, hord, hb⟩ := fields_encode_shiftOut dp cp .msbFirst b
    simp [Instr.stream, decode, decodeRequest, requireRequest, hop, hdp, hcp, hzero, hord, hb, BitOrder.bit]

/-! Encoding a decoded word: a word is put together again from the fields that its format has. -/

section Formats

variable {op : BitVec 4} {w : Word}

theorem encodeCount_of_fields {n : Count} (hop : field w 28 4 = op) (hrsv : field w 24 4 = 0#4)
    (hn : field w 0 24 = n) : encodeCount op n = w := by
  subst hop hn
  apply BitVec.eq_of_toNat_eq
  have hrsv := congrArg BitVec.toNat hrsv
  have := w.isLt
  simp only [toNat_encodeCount, toNat_field, BitVec.toNat_ofNat] at *
  omega

theorem encodeAddress_of_fields {a : Address} (hop : field w 28 4 = op) (hrsv : field w 24 4 = 0#4)
    (hzero : field w 0 8 = 0#8) (ha : field w 8 16 = a) : encodeAddress op a = w := by
  subst hop ha
  apply BitVec.eq_of_toNat_eq
  have hrsv := congrArg BitVec.toNat hrsv
  have hzero := congrArg BitVec.toNat hzero
  have := w.isLt
  simp only [toNat_encodeAddress, toNat_field, BitVec.toNat_ofNat] at *
  omega

theorem encodeFlag_of_fields {b : BitVec 1} (hop : field w 28 4 = op) (hrsv : field w 24 4 = 0#4)
    (hzero : field w 1 23 = 0#23) (hb : field w 0 1 = b) : encodeFlag op b = w := by
  subst hop hb
  apply BitVec.eq_of_toNat_eq
  have hrsv := congrArg BitVec.toNat hrsv
  have hzero := congrArg BitVec.toNat hzero
  have := w.isLt
  simp only [toNat_encodeFlag, toNat_field, BitVec.toNat_ofNat] at *
  omega

theorem encode_write_of_fields {a : Address} {v : Byte} (hop : field w 28 4 = 0x6#4) (hrsv : field w 24 4 = 0#4)
    (ha : field w 8 16 = a) (hv : field w 0 8 = v) : encode (.write a v) = w := by
  subst ha hv
  apply BitVec.eq_of_toNat_eq
  have hop := congrArg BitVec.toNat hop
  have hrsv := congrArg BitVec.toNat hrsv
  have := w.isLt
  simp only [toNat_encode_write, toNat_field, BitVec.toNat_ofNat] at *
  omega

theorem opcode_rest_of_fields {r : BitVec 28} (hop : field w 28 4 = op) (hr : field w 0 28 = r) : (op ++ r : Word) = w := by
  subst hop hr
  apply BitVec.eq_of_toNat_eq
  have := w.isLt
  simp only [toNat_opcode_rest, toNat_field] at *
  omega

theorem encode_payload_of_fields {b : Byte} (hzero : field w 8 24 = 0#24) (hb : field w 0 8 = b) :
    encode (.payload b) = w := by
  subst hb
  apply BitVec.eq_of_toNat_eq
  have hzero := congrArg BitVec.toNat hzero
  have := w.isLt
  simp only [toNat_encode_payload, toNat_field, BitVec.toNat_ofNat] at *
  omega

theorem encodePin_of_fields {p : Pin} {b : BitVec 1} (hop : field w 28 4 = op) (hp : field w 20 8 = p)
    (hzero : field w 1 19 = 0#19) (hb : field w 0 1 = b) : encodePin op p b = w := by
  subst hop hp hb
  apply BitVec.eq_of_toNat_eq
  have hzero := congrArg BitVec.toNat hzero
  have := w.isLt
  simp only [toNat_encodePin, toNat_field, BitVec.toNat_ofNat] at *
  omega

theorem encodePin_zero_of_fields {p : Pin} (hop : field w 28 4 = op) (hp : field w 20 8 = p)
    (hzero : field w 0 20 = 0#20) : encodePin op p 0#1 = w := by
  have hzero := congrArg BitVec.toNat hzero
  refine encodePin_of_fields hop hp (field_eq ?_) (field_eq ?_) <;>
    simp only [toNat_field, BitVec.toNat_ofNat] at * <;> omega

theorem encode_shiftOut_of_fields {dp cp : Pin} {b : Byte} (hop : field w 28 4 = 0x4#4) (hdp : field w 20 8 = dp)
    (hcp : field w 12 8 = cp) (hzero : field w 9 3 = 0#3) (hord : field w 8 1 = 1#1) (hb : field w 0 8 = b) :
    encode (.shiftOut dp cp .msbFirst b) = w := by
  subst hdp hcp hb
  apply BitVec.eq_of_toNat_eq
  have hop := congrArg BitVec.toNat hop
  have hzero := congrArg BitVec.toNat hzero
  have hord := congrArg BitVec.toNat hord
  have := w.isLt
  simp only [toNat_encode_shiftOut, toNat_field, BitVec.toNat_ofNat, BitOrder.bit] at *
  omega

end Formats

@[simp] theorem bit_modeOfBit (b : BitVec 1) : (modeOfBit b).bit = b := by
  revert b; decide

@[simp] theorem bit_levelOfBit (b : BitVec 1) : (levelOfBit b).bit = b := by
  revert b; decide

@[simp] theorem ofBool_one_beq (b : BitVec 1) : BitVec.ofBool (b == 1#1) = b := by
  revert b; decide

@[simp] theorem requireZero_ok {zero : Bool} {i j : Instr} : requireZero zero i = .ok j ↔ zero = true ∧ i = j := by
  cases zero <;> simp [requireZero]

@[simp] theorem requireRequest_ok {zero : Bool} {i j : Instr} : requireRequest zero i = .ok j ↔ zero = true ∧ i = j := by
  cases zero <;> simp [requireRequest]

theorem opcode_of_toNat {op : BitVec 4} {k : Nat} (h : op.toNat = k) : op = BitVec.ofNat 4 k := by
  rw [← h, BitVec.ofNat_toNat, BitVec.setWidth_eq]

/-- `i` is a well-formed row of a stream and `w` is its word. -/
structure Spells (st : Stream) (w : Word) (i : Instr) : Prop where
  stream : i.stream = st
  wellFormed : i.wellFormed = true
  word : encode i = w

/-- The row of every opcode, with `RSV = 0` where the opcode is not a reserved one (R92, R93, R96). -/
theorem spells_of_decodeOperand {w : Word} {i : Instr} (hrsv : reservedOpcode w = true ∨ field w 24 4 = 0#4)
    (h : decodeOperand w = .ok i) : Spells .command w i := by
  unfold decodeOperand at h
  split at h
  case h_1 hop | h_13 hop =>
    obtain ⟨hzero, rfl⟩ := requireZero_ok.1 h
    have hrsv : field w 24 4 = 0#4 := by simpa [reservedOpcode, opcode_of_toNat hop] using hrsv
    exact ⟨rfl, rfl, encodeCount_of_fields (opcode_of_toNat hop) hrsv (by simpa using hzero)⟩
  case h_2 hop | h_5 hop =>
    obtain ⟨hzero, rfl⟩ := requireZero_ok.1 h
    have hrsv : field w 24 4 = 0#4 := by simpa [reservedOpcode, opcode_of_toNat hop] using hrsv
    exact ⟨rfl, rfl, encodeAddress_of_fields (opcode_of_toNat hop) hrsv (by simpa using hzero) rfl⟩
  case h_3 hop | h_4 hop =>
    obtain ⟨hzero, rfl⟩ := requireZero_ok.1 h
    have hrsv : field w 24 4 = 0#4 := by simpa [reservedOpcode, opcode_of_toNat hop] using hrsv
    exact ⟨rfl, rfl, encodeFlag_of_fields (opcode_of_toNat hop) hrsv (by simpa using hzero) (by simp)⟩
  case h_6 hop =>
    cases h
    have hrsv : field w 24 4 = 0#4 := by simpa [reservedOpcode, opcode_of_toNat hop] using hrsv
    exact ⟨rfl, rfl, encode_write_of_fields (opcode_of_toNat hop) hrsv rfl rfl⟩
  case h_7 hop | h_8 hop | h_9 hop | h_10 hop | h_11 hop | h_12 hop =>
    cases h
    have hrsv : field w 24 4 = 0#4 := by simpa [reservedOpcode, opcode_of_toNat hop] using hrsv
    exact ⟨rfl, rfl, encodeCount_of_fields (opcode_of_toNat hop) hrsv rfl⟩
  case h_14 hop | h_15 hop =>
    cases h
    exact ⟨rfl, rfl, opcode_rest_of_fields (opcode_of_toNat hop) rfl⟩
  case h_16 =>
    cases h
    have hop : (field w 28 4).toNat = 0 := by
      have := (field w 28 4).isLt
      grind
    exact ⟨rfl, rfl, opcode_rest_of_fields (opcode_of_toNat hop) rfl⟩

theorem spells_of_decodeCommand {w : Word} {i : Instr} (h : decode .command w = .ok i) : Spells .command w i := by
  simp only [decode, decodeCommand] at h
  split at h
  · rename_i hrsv
    exact spells_of_decodeOperand (by simpa using hrsv) h
  · cases h

theorem spells_of_decodePayload {w : Word} {i : Instr} (h : decode .payload w = .ok i) : Spells .payload w i := by
  simp only [decode, decodePayload] at h
  split at h
  · cases h
    exact ⟨rfl, rfl, encode_payload_of_fields ‹_› rfl⟩
  · cases h

/-- The row of every transport request (R102). -/
theorem spells_of_decodeRequest {w : Word} {i : Instr} (h : decode .request w = .ok i) : Spells .request w i := by
  simp only [decode, decodeRequest] at h
  split at h
  case h_1 hop | h_2 hop =>
    obtain ⟨hzero, rfl⟩ := requireRequest_ok.1 h
    exact ⟨rfl, rfl, encodePin_of_fields (opcode_of_toNat hop) rfl (by simpa using hzero) (by simp)⟩
  case h_3 hop =>
    obtain ⟨hzero, rfl⟩ := requireRequest_ok.1 h
    exact ⟨rfl, rfl, encodePin_zero_of_fields (opcode_of_toNat hop) rfl (by simpa using hzero)⟩
  case h_4 hop =>
    split at h
    · obtain ⟨hzero, rfl⟩ := requireRequest_ok.1 h
      exact ⟨rfl, rfl, encode_shiftOut_of_fields (opcode_of_toNat hop) rfl rfl (by simpa using hzero) ‹_› rfl⟩
    · cases h
  case h_5 => cases h

/-- Settles O2: in each stream a word that decodes spells the row it decodes to. -/
theorem encodeOfDecode : Obligations.EncodeOfDecode := by
  intro st w i h
  have hspells : Spells st w i := by
    cases st with
    | command => exact spells_of_decodeCommand h
    | payload => exact spells_of_decodePayload h
    | request => exact spells_of_decodeRequest h
  exact ⟨hspells.stream, hspells.wellFormed, hspells.word⟩

/-! Which words are commands (R96). -/

/-- A reserved opcode decodes to its reserved row, whatever the rest of the word is. -/
theorem decodeOperand_of_reservedOpcode {w : Word} (h : reservedOpcode w = true) :
    ∃ i, decodeOperand w = .ok i ∧ i.isReserved = true := by
  have hop : (field w 28 4 = 0x0#4 ∨ field w 28 4 = 0xE#4) ∨ field w 28 4 = 0xF#4 := by simpa [reservedOpcode] using h
  rcases hop with (hop | hop) | hop <;> simp [decodeOperand, hop, Instr.isReserved]

/-- With `RSV = 0` and an opcode that is not reserved, the bits that the format of the opcode marks 0 decide (R92). -/
theorem decodeOperand_command_iff {w : Word} (h : reservedOpcode w = false) :
    (∃ i, decodeOperand w = .ok i ∧ i.isReserved = false) ↔
      ¬ (((field w 28 4 = 0x1#4 ∨ field w 28 4 = 0xD#4) ∧ field w 0 24 ≠ 0#24) ∨
        ((field w 28 4 = 0x2#4 ∨ field w 28 4 = 0x5#4) ∧ field w 0 8 ≠ 0#8) ∨
        ((field w 28 4 = 0x3#4 ∨ field w 28 4 = 0x4#4) ∧ field w 1 23 ≠ 0#23)) := by
  obtain ⟨k, hk, hop⟩ : ∃ k < 16, field w 28 4 = BitVec.ofNat 4 k :=
    ⟨_, (field w 28 4).isLt, opcode_of_toNat rfl⟩
  have hcommand : k ≠ 0 ∧ k ≠ 14 ∧ k ≠ 15 := by
    refine ⟨?_, ?_, ?_⟩ <;> rintro rfl <;> simp [reservedOpcode, hop] at h
  have hlow : 1 ≤ k := by omega
  have hhigh : k ≤ 13 := by omega
  clear hk
  interval_cases k <;> simp [decodeOperand, hop, Instr.isReserved]

/-- Settles O3: the three causes of R96 in turn, a reserved opcode, `RSV`, and the bits of the format. -/
theorem reservedCommandWords : Obligations.ReservedCommandWords := by
  intro w
  by_cases hres : reservedOpcode w = true
  · obtain ⟨i, hi, hi'⟩ := decodeOperand_of_reservedOpcode hres
    have hop : (field w 28 4 = 0x0#4 ∨ field w 28 4 = 0xE#4) ∨ field w 28 4 = 0xF#4 := by
      simpa [reservedOpcode] using hres
    rw [decode_command_of_reservedOpcode hres, hi]
    simp [hi']
    tauto
  · have hres : reservedOpcode w = false := by simpa using hres
    have hop : (field w 28 4 ≠ 0x0#4 ∧ field w 28 4 ≠ 0xE#4) ∧ field w 28 4 ≠ 0xF#4 := by
      simpa [reservedOpcode] using hres
    by_cases hrsv : field w 24 4 = 0#4
    · rw [decode_command_of_rsv hrsv, decodeOperand_command_iff hres]
      simp [hop, hrsv]
    · simp [decode, decodeCommand, hres, hrsv]

/-! The words of requests and responses (R102, R103). -/

/-- Settles O4, by evaluation. -/
theorem writtenOutWordsDecode : Obligations.WrittenOutWordsDecode := by
  unfold Obligations.WrittenOutWordsDecode
  decide

/-- Settles O5: the layouts of the one-pin requests and of SHIFT_OUT, field by field. -/
theorem requestWordLayout : Obligations.RequestWordLayout := by
  refine ⟨fun p m => ?_, fun p l => ?_, fun p => ?_, fun dp cp b => ?_, by decide⟩
  · obtain ⟨hop, hp, -⟩ := fields_encodePin 0x1#4 p m.bit
    obtain ⟨-, hclk, hzero, hord, harg⟩ := fields_encodePin_low 0x1#4 p m.bit
    exact ⟨hop, hp, hclk, hzero, hord, harg.trans (by cases m <;> rfl)⟩
  · obtain ⟨hop, hp, -⟩ := fields_encodePin 0x2#4 p l.bit
    obtain ⟨-, hclk, hzero, hord, harg⟩ := fields_encodePin_low 0x2#4 p l.bit
    exact ⟨hop, hp, hclk, hzero, hord, harg.trans (by cases l <;> rfl)⟩
  · obtain ⟨hop, hp, -⟩ := fields_encodePin 0x3#4 p 0#1
    obtain ⟨-, hclk, hzero, hord, harg⟩ := fields_encodePin_low 0x3#4 p 0#1
    exact ⟨hop, hp, hclk, hzero, hord, harg⟩
  · exact fields_encode_shiftOut dp cp .msbFirst b

/-- Settles O6, by evaluation. -/
theorem transportResponseWords : Obligations.TransportResponseWords := by
  unfold Obligations.TransportResponseWords
  decide

end Sys2Proof
end

section
/-! PROOF. The response words and the refusals (30_encoding.md R94 to R96, R100, R101; 46_lifecycle.md R253, R254;
60_exceptions.md R276, R278). A refusal leaves a state whose only micro-step is its response (`step_refused`); a word with opcode
0xA and its payload words lead to `beginWriteBlock`, where WRITE_BLOCK is checked (`reaches_beginWriteBlock`). -/

namespace Sys2Proof.Machine

/-! The status of a response word (R100, R101). -/

theorem toNat_responseWord (st : Status) (issued : Bool) (v : Byte) :
    (responseWord st issued v).toNat = st.code.toNat * 2 ^ 24 + issued.toNat * 2 ^ 8 + v.toNat := by
  refine (toNat_concat (st.code ++ 0#15 ++ BitVec.ofBool issued) v).trans ?_
  rw [toNat_concat, toNat_concat]
  simp only [BitVec.toNat_ofNat, BitVec.toNat_ofBool]
  omega

theorem fields_responseWord (st : Status) (issued : Bool) (v : Byte) :
    field (responseWord st issued v) 24 8 = st.code ∧ field (responseWord st issued v) 9 15 = 0#15 := by
  have := st.code.isLt
  have := issued.toNat_lt
  have := v.isLt
  refine ⟨?_, ?_⟩ <;> apply field_eq <;> rw [toNat_responseWord] <;> simp <;> omega

section Responses

variable {s t u : State}

/-- From `s` to `t` the trace gains no response word but those that `responseWord` makes. -/
def AnswersStatus (s t : State) : Prop :=
  ∀ w, .response w ∈ t.trace → .response w ∈ s.trace ∨ ∃ st issued v, w = responseWord st issued v

theorem AnswersStatus.of_trace_eq (h : t.trace = s.trace) : AnswersStatus s t := fun _ hw => .inl (h ▸ hw)

theorem AnswersStatus.of_append {e : Event} (h : t.trace = s.trace ++ [e])
    (he : ∀ w, e = .response w → ∃ st issued v, w = responseWord st issued v) : AnswersStatus s t := fun w hw => by
  rw [h, List.mem_append, List.mem_singleton] at hw
  exact hw.imp id fun h => he w h.symm

theorem AnswersStatus.of_lines (h : ∃ ls : List (List Char), t.trace = s.trace ++ ls.map Event.text) :
    AnswersStatus s t := fun w hw => by
  obtain ⟨ls, hls⟩ := h
  exact .inl (by simpa [hls] using hw)

theorem AnswersStatus.trans (h1 : AnswersStatus s t) (h2 : AnswersStatus t u) : AnswersStatus s u := fun w hw =>
  (h2 w hw).elim (h1 w) .inr

theorem afterResponse_answersStatus (r : Response) (s : State) : AnswersStatus s (afterResponse r s) := by
  obtain ⟨s', ops, hq, -, ⟨ra, rfl⟩ | ⟨n, rfl⟩⟩ := afterResponse_quiet r s
  · exact .of_lines hq.lines
  · exact .of_lines hq.lines

theorem transport_answersStatus {r : Request} (h : transport r s = .next t) : AnswersStatus s t := by
  rcases transport_cases h with ⟨rest, -, rfl⟩ | ⟨rest, -, rfl⟩ | ⟨-, rfl⟩
  · exact .of_append (e := .request r .error) rfl nofun
  · have hreq : AnswersStatus s (s.acknowledged r rest) := .of_append rfl nofun
    exact hreq.trans (afterResponse_answersStatus _ _)
  · exact .of_trace_eq rfl

theorem sequencerAct_answersStatus (h : sequencerAct s = .next t) : AnswersStatus s t := by
  rcases sequencerAct_cases h with rfl | ⟨rest, w, -, -, ha⟩ | ⟨-, -, rest, w, -, -, rfl⟩ | ⟨kind, n, k, -, rfl⟩ |
    ⟨st, v, -, -, rfl⟩ | ⟨-, -, r, -, -, ht⟩
  · exact .of_trace_eq rfl
  · exact .of_lines ha.lines
  · exact .of_lines (takePayloadWord_accepted w (s.taken rest)).lines
  · have hdelay : AnswersStatus s (s.recordDelay kind n) := .of_append rfl nofun
    exact hdelay.trans (.of_lines (resume_quiet k _).lines)
  · exact .of_append rfl fun w hw => ⟨st, s.issued, v, (Event.response.inj hw).symm⟩
  · exact transport_answersStatus ht

/-- Of all the steps only the sequencer's add events, and reset starts a new trace (R300). -/
theorem step_answersStatus (h : step s = .next t) : AnswersStatus s t := by
  rcases step_cases h with ⟨w, rest, -, rfl⟩ | ⟨rest, -, rfl⟩ | ⟨rest, -, rfl⟩ | ⟨pins, shift, latch, rest, -, rfl⟩ |
    ⟨rest, -, rfl⟩ | ⟨l, -, hq⟩
  · exact .of_trace_eq rfl
  · exact .of_trace_eq rfl
  · exact .of_trace_eq rfl
  · exact .of_trace_eq rfl
  · exact fun w hw => absurd hw List.not_mem_nil
  · have hsilent : AnswersStatus s (State.settled { s with inbox := l }) := .of_lines (resume_quiet s.ms _).lines
    exact hsilent.trans (sequencerAct_answersStatus hq)

end Responses

/-- Settles O7: the codes by evaluation; every response word is one that `responseWord` makes (`step_answersStatus`). -/
theorem responseStatusCodes : Obligations.ResponseStatusCodes := by
  refine ⟨by decide, fun s t w hs hw => (step_answersStatus hs w hw).imp id ?_⟩
  rintro ⟨st, issued, v, rfl⟩
  obtain ⟨hcode, hzero⟩ := fields_responseWord st issued v
  rw [hcode]
  exact ⟨by cases st <;> decide, hzero⟩

/-! What a step does with a word that is refused, and with a payload word. -/

section Words

variable {s : State} {w : Word} {ws : List Word} {k : List MicroOp}

/-- A refusal answers in the step after it, and nothing is left of it but the response word (R276). -/
theorem step_refused (a : Activity) (st : Status) (hi : SequencerTurn s.inbox) :
    step { s with issued := false, current := a, ms := [.respond st] } =
      .next (s.answered [] (responseWord st false 0)) := by
  rw [step_respond (s := { s with issued := false, current := a, ms := [.respond st] }) rfl hi, deliver_eq_answered]
  rfl

theorem step_refuseReserved (a : Activity) (hi : SequencerTurn s.inbox) :
    step (s.refuseReserved a) = .next (s.answered [] 0x10000000#32) :=
  step_refused a .refusedReservedEncoding hi

/-- At a command position with a word that does not decode (R254). -/
theorem step_undecoded {x : DecodeError} (hm : s.ms = []) (hi : SequencerTurn s.inbox) (hp : s.port = w :: ws)
    (hd : decode .command w = .error x) : step s = .next (acceptReserved w (s.taken ws)) := by
  have hs : s.settled = s := by rw [State.settled, hm, resume_nil, ← hm]
  rw [step_eq_sequencerStep hi, sequencerStep, hs, sequencerAct, hm, acceptCommand, hp]
  simp only [hd]

/-- At a payload position a word is taken as it came, whether it decodes or not (R95). -/
theorem step_payload {n : Nat} (hm : s.ms = .takePayload n :: k) (hi : SequencerTurn s.inbox) (hp : s.port = w :: ws) :
    step s = .next (takePayloadWord w (s.taken ws)) := by
  have hs : s.settled = s := by rw [State.settled, hm, resume_takePayload, ← hm]
  rw [step_eq_sequencerStep hi, sequencerStep, hs, sequencerAct, hm, acceptPayload, hp]
  cases hd : decode .payload w with
  | error x => simp only [hd]
  | ok i =>
    obtain ⟨b, rfl⟩ := decodePayload_payload hd
    have hword : encode (.payload b) = w := (spells_of_decodePayload hd).word
    simp only [hd, exec, execPayload, hword]

theorem takePayloadWord_last (hm : s.ms = .takePayload 1 :: k) :
    takePayloadWord w s = beginWriteBlock { s with payload := s.payload ++ [w] } := by
  rw [takePayloadWord, hm]; rfl

theorem takePayloadWord_before_last {n : Nat} (hn : 0 < n) (hm : s.ms = .takePayload (n + 1) :: k) :
    takePayloadWord w s = { s with payload := s.payload ++ [w], ms := [.takePayload n] } := by
  have : ¬ n + 1 ≤ 1 := by omega
  rw [takePayloadWord, hm]
  simp only [if_neg this, Nat.add_sub_cancel]

theorem takePayloadWord_elsewhere (hm : ∀ n k, s.ms ≠ .takePayload n :: k) :
    takePayloadWord w s = s.refuseReserved (.reservedWord w) := by
  unfold takePayloadWord
  split
  · exact absurd ‹_› (hm _ _)
  · rfl

end Words

/-- Settles O14: the range check refuses before the procedure starts (`accept_out_of_range`). -/
theorem addressOutOfRangeIsRefused : Obligations.AddressOutOfRangeIsRefused := by
  intro s a v hl ha ht i hi
  have refused : ∀ {i run}, addressOutOfRange s.cfg i = true →
      ∃ t, accept i s run = .next t ∧ step t = .next (s.answered [] 0x13000000#32) := fun hrange =>
    ⟨_, accept_out_of_range hl hrange, step_refused _ _ ht⟩
  have hrange : decide (s.cfg.capacity ≤ a.toNat) = true := decide_eq_true ha
  rcases (by simpa using hi : i = .setAddr a ∨ i = .read a ∨ i = .write a v) with rfl | rfl | rfl <;>
    exact refused hrange

/-- Settles O15: a reserved row, and a word that does not decode, are refused at once unless the opcode is 0xA. -/
theorem reservedCommandsAnswer : Obligations.ReservedCommandsAnswer := by
  refine ⟨fun s r ht => ?_, fun s w ws x hm ht hp hd hop => ?_⟩
  · exact ⟨⟨_, rfl, step_refuseReserved _ ht⟩, ⟨_, rfl, step_refuseReserved _ ht⟩, ⟨_, rfl, step_refuseReserved _ ht⟩⟩
  · have hrefused : acceptReserved w (s.taken ws) = (s.taken ws).refuseReserved (.reservedWord w) := if_neg hop
    have htaken : step s = .next ((s.taken ws).refuseReserved (.reservedWord w)) :=
      hrefused ▸ step_undecoded hm ht hp hd
    exact (Reaches.single htaken).trans (.single (step_refuseReserved _ ht))

/-! The acceptance of a word with opcode 0xA (R95, R254). -/

section WriteBlock

variable {s : State} {w : Word} {ws rest : List Word}

/-- What was left to do does not matter where a WRITE_BLOCK begins. -/
theorem writeBlock_ms (s : State) (m : List MicroOp) : writeBlock { s with ms := m } = writeBlock s := by
  unfold writeBlock
  split
  · rfl
  · exact resume_ms _ s m

theorem beginWriteBlock_ms (s : State) (m : List MicroOp) : beginWriteBlock { s with ms := m } = beginWriteBlock s := by
  have hrun := writeBlock_ms { s with issued := false } m
  simp only [beginWriteBlock, gate, hrun]
  rfl

/-- The payload words are taken one by one, whatever they are (R95). -/
theorem reaches_last_payload (hne : ws ≠ []) (hm : s.ms = [.takePayload ws.length]) (ht : SequencerTurn s.inbox)
    (hp : s.port = ws ++ rest) :
    Reaches s (beginWriteBlock { s with ms := [], port := rest, cp := s.cp + ws.length, payload := s.payload ++ ws }) := by
  induction ws generalizing s with
  | nil => exact absurd rfl hne
  | cons x ws ih =>
    have hstep := step_payload hm ht hp
    cases ws with
    | nil =>
      rw [takePayloadWord_last (s := s.taken _) hm, ← beginWriteBlock_ms _ []] at hstep
      exact .single hstep
    | cons y ws =>
      rw [takePayloadWord_before_last (s := s.taken _) (Nat.succ_pos _) hm] at hstep
      refine (Reaches.single hstep).trans ?_
      have hrest := ih (s := { s.taken (y :: ws ++ rest) with
        payload := s.payload ++ [x], ms := [.takePayload (y :: ws).length] }) nofun rfl ht rfl
      simpa [State.taken, Nat.add_assoc, Nat.add_comm] using hrest

/-- The opcode 0xA alone tells that COUNT payload words follow; whether the word is a command is looked at later (R95). -/
theorem step_opcodeA (hop : field w 28 4 = 0xA#4) (hm : s.ms = []) (ht : SequencerTurn s.inbox) (hp : s.port = w :: ws) :
    ∃ a : Activity, a.isReservedWord = decide (field w 24 4 ≠ 0#4) ∧
      step s = .next (acceptWriteBlock a (field w 0 24).toNat (s.taken ws)) := by
  by_cases hrsv : field w 24 4 = 0#4
  · have hd : decode .command w = .ok (.writeBlock (field w 0 24)) := by
      simp [decode_command_of_rsv hrsv, decodeOperand, hop]
    exact ⟨.command (.writeBlock (field w 0 24)), by simp [hrsv, Activity.isReservedWord], step_command hm ht hp hd⟩
  · have hd : decode .command w = .error .reservedField := by
      simp [decode, decodeCommand, reservedOpcode, hop, hrsv]
    have hstep := step_undecoded hm ht hp hd
    rw [acceptReserved, if_pos hop] at hstep
    exact ⟨.reservedWord w, by simp [hrsv, Activity.isReservedWord], hstep⟩

/-- From a word with opcode 0xA to where it is checked: its COUNT payload words are taken (R95, R254). -/
theorem reaches_beginWriteBlock (hop : field w 28 4 = 0xA#4) (hlen : (field w 0 24).toNat = ws.length) (hm : s.ms = [])
    (ht : SequencerTurn s.inbox) (hp : s.port = w :: (ws ++ rest)) :
    ∃ a : Activity, a.isReservedWord = decide (field w 24 4 ≠ 0#4) ∧
      Reaches s (beginWriteBlock
        { s with ms := [], port := rest, cp := s.cp + 1 + ws.length, current := a, payload := ws }) := by
  obtain ⟨a, ha, hstep⟩ := step_opcodeA hop hm ht hp
  refine ⟨a, ha, ?_⟩
  rw [hlen] at hstep
  cases ws with
  | nil =>
    rw [acceptWriteBlock, if_pos List.length_nil, ← beginWriteBlock_ms _ []] at hstep
    exact .single hstep
  | cons x xs =>
    have hne : (x :: xs).length ≠ 0 := nofun
    rw [acceptWriteBlock, if_neg hne] at hstep
    exact (Reaches.single hstep).trans (reaches_last_payload
      (s := { s.taken (x :: xs ++ rest) with current := a, payload := [], ms := [.takePayload (x :: xs).length] })
      nofun rfl ht rfl)

theorem beginWriteBlock_reserved (h : s.current.isReservedWord = true ∨ ∃ x ∈ s.payload, malformedPayload x = true) :
    beginWriteBlock s = { s with issued := false, ms := [.respond .refusedReservedEncoding] } := by
  have : (s.current.isReservedWord || s.payload.any malformedPayload) = true := by simpa using h
  simp only [beginWriteBlock, this]
  rfl

/-- A WRITE_BLOCK that is no reserved encoding comes to the gates (R253, R278). -/
theorem beginWriteBlock_gate (hword : s.current.isReservedWord = false)
    (hpayload : ∀ x ∈ s.payload, malformedPayload x = false) :
    beginWriteBlock s =
      gate (.writeBlock (BitVec.ofNat 24 s.payload.length)) { s with issued := false } writeBlock := by
  have : (s.current.isReservedWord || s.payload.any malformedPayload) = false := by simpa [hword] using hpayload
  simp only [beginWriteBlock, this]
  rfl

end WriteBlock

theorem malformedPayload_iff {x : Word} : malformedPayload x = true ↔ field x 8 24 ≠ 0#24 := by
  simp [malformedPayload]

/-- Settles O16: `reaches_beginWriteBlock`, then the checks in their order. -/
theorem writeBlockRefusals : Obligations.WriteBlockRefusals := by
  intro s w ws rest hop hlen hm ht hp
  obtain ⟨a, ha, hreach⟩ := reaches_beginWriteBlock hop hlen hm ht hp
  have answer : ∀ st, beginWriteBlock
        { s with ms := [], port := rest, cp := s.cp + 1 + ws.length, current := a, payload := ws } =
        { s with
          port := rest, cp := s.cp + 1 + ws.length, payload := ws, issued := false, current := a, ms := [.respond st] } →
      Reaches s ({ s with port := rest, cp := s.cp + 1 + ws.length }.answered [] (responseWord st false 0)) :=
    fun st hst => (hst ▸ hreach).trans (.single
      (step_refused (s := { s with port := rest, cp := s.cp + 1 + ws.length, payload := ws }) a st ht))
  refine ⟨fun hbad => answer .refusedReservedEncoding (beginWriteBlock_reserved ?_), fun hrsv hgood => ?_⟩
  · exact hbad.imp (fun hrsv => by simpa [ha] using hrsv) fun ⟨x, hx, hz⟩ => ⟨x, hx, malformedPayload_iff.2 hz⟩
  · have hgate := beginWriteBlock_gate
      (s := { s with ms := [], port := rest, cp := s.cp + 1 + ws.length, current := a, payload := ws })
      (by simp [ha, hrsv]) fun x hx =>
        Bool.eq_false_iff.2 fun hz => malformedPayload_iff.1 hz (hgood x hx)
    refine ⟨fun hlc => answer .refusedClosed (hgate.trans ?_), fun hlc => answer .refusedNotConfigured (hgate.trans ?_)⟩
    · simp [gate, hlc, State.refuse]
    · simp [gate, hlc, State.refuse, runsUnconfigured]

/-! What a WRITE_BLOCK does before its first request (R220). -/

/-- From `s` to `t` only `MS` and the working registers `WV`, `EM` and `BI` are written. -/
def WritesWorking (s t : State) : Prop :=
  ∃ ms wv em bi, t = { s with ms := ms, wv := wv, em := em, bi := bi }

/-- A WriteByte up to its first request, the fast paths included (R182). -/
theorem settle_writeByteOps (cfg : Params) (a : Address) (v : Byte) (k : List MicroOp) (s : State) :
    WritesWorking s (settle (writeByteOps cfg a v ++ k) s) := by
  simp only [writeByteOps, List.cons_append, settle]
  split
  · split
    · split <;> exact ⟨_, _, _, _, rfl⟩
    · exact ⟨_, _, _, _, rfl⟩
  · exact ⟨_, _, _, _, rfl⟩

theorem writeBlock_writesWorking (s : State) : WritesWorking s (writeBlock s) := by
  unfold writeBlock
  split
  · exact ⟨_, _, _, _, rfl⟩
  · rw [bulkOps, List.cons_append, resume_clearIndex, List.singleton_append]
    by_cases hn : (0 : BulkIndex).toNat < s.payload.length
    · rw [resume_loop_next (s := { s with bi := 0 }) _ hn]
      obtain ⟨ms, wv, em, bi, h⟩ := settle_writeByteOps s.cfg (bulkAddress 0) (payloadByte s.payload 0)
        (.nextIndex :: .loop .block s.payload.length :: [.respond .ok]) { s with bi := 0 }
      exact ⟨ms, wv, em, bi, h⟩
    · rw [resume_loop_done (s := { s with bi := 0 }) _ hn]
      exact ⟨_, _, _, _, rfl⟩

theorem gate_writesWorking (i : Instr) {s : State} {run : State → State} (h : WritesWorking s (run s)) :
    WritesWorking s (gate i s run) := by
  unfold gate
  split
  · exact ⟨_, _, _, _, rfl⟩
  · split
    · exact ⟨_, _, _, _, rfl⟩
    · split
      · exact ⟨_, _, _, _, rfl⟩
      · exact h

theorem beginWriteBlock_writesWorking (s : State) : WritesWorking { s with issued := false } (beginWriteBlock s) := by
  unfold beginWriteBlock
  simp only []
  split
  · exact ⟨_, _, _, _, rfl⟩
  · exact gate_writesWorking _ (writeBlock_writesWorking _)

/-- Settles O35: the words before the last one leave a number to wait for (`takePayloadWord_before_last`); the last one begins
the WRITE_BLOCK, which writes working registers only before its first request (`beginWriteBlock_writesWorking`). -/
theorem payloadWordIsTaken : Obligations.PayloadWordIsTaken := by
  refine ⟨fun s b n k hm => ?_, fun s b hm ht => ?_⟩
  · refine ⟨takePayloadWord (0#24 ++ b) s, rfl, ?_⟩
    by_cases hn : 0 < n
    · rw [takePayloadWord_before_last hn hm]
      simp
    · obtain rfl : n = 0 := by omega
      rw [takePayloadWord_last hm]
      obtain ⟨ms, wv, em, bi, h⟩ := beginWriteBlock_writesWorking { s with payload := s.payload ++ [0#24 ++ b] }
      rw [h]
      simp
  · have hrefused : takePayloadWord (encode (.payload b)) s = s.refuseReserved (.reservedWord (encode (.payload b))) :=
      takePayloadWord_elsewhere hm
    exact ⟨_, rfl, hrefused ▸ step_refuseReserved _ ht⟩

end Sys2Proof.Machine
end

section
/-! PROOF. The Tick Timer (41_tick_timer.md): the tick conversion, the three delay commands, the steps that run no instruction,
and the pulse widths that the delay events of a trace add up to. -/

namespace Sys2Proof

/-- The word of a count command as R92 and R93 write it: the opcode's word with the count in its low bits. -/
theorem encodeCount_eq_or {op : BitVec 4} {w : Word} (hw : w.toNat = 2 ^ 28 * op.toNat) (n : Count) :
    encodeCount op n = w ||| n.setWidth 32 := by
  have hn : n.toNat < 2 ^ 28 := Nat.lt_trans n.isLt (by decide)
  apply BitVec.eq_of_toNat_eq
  rw [toNat_encodeCount, BitVec.toNat_or, hw, BitVec.toNat_setWidth_of_le (by decide),
    ← Nat.two_pow_add_eq_or_of_lt hn, Nat.mul_comm]

end Sys2Proof

namespace Sys2Proof.Machine

/-! The tick conversion (R121). -/

theorem tickHz_pos {cfg : Params} (hc : cfg.wf = true) : 0 < cfg.tickHz := by
  simp only [Params.wf, Bool.and_eq_true, decide_eq_true_eq] at hc
  obtain ⟨⟨-, htick⟩, -⟩ := hc
  exact htick

theorem targetTicks_eq_floor (cfg : Params) (n : Nat) : ((targetTicks cfg n : Nat) : Int) = ⌊(n : Rat) / nsPerTick cfg⌋ := by
  have hdiv : (n : Rat) / nsPerTick cfg = ((n * cfg.tickHz : Nat) : Rat) / ((10 ^ 9 : Nat) : Rat) := by
    rw [nsPerTick, div_div_eq_mul_div]
    push_cast
    rfl
  rw [hdiv, Rat.floor_natCast_div_natCast]
  rfl

section Ticks

variable {cfg : Params} (h : 0 < cfg.tickHz)
include h

theorem nsPerTick_pos : 0 < nsPerTick cfg :=
  div_pos (by norm_num) (by exact_mod_cast h)

theorem targetTicks_mul_nsPerTick_le (n : Nat) : (targetTicks cfg n : Rat) * nsPerTick cfg ≤ n := by
  have hfloor := Int.floor_le ((n : Rat) / nsPerTick cfg)
  rw [← targetTicks_eq_floor, Int.cast_natCast] at hfloor
  exact (le_div_iff₀ (nsPerTick_pos h)).1 hfloor

theorem lt_targetTicks_mul_nsPerTick (n : Nat) :
    (n : Rat) - nsPerTick cfg < (targetTicks cfg n : Rat) * nsPerTick cfg := by
  have hfloor := Int.lt_floor_add_one ((n : Rat) / nsPerTick cfg)
  rw [← targetTicks_eq_floor, Int.cast_natCast, div_lt_iff₀ (nsPerTick_pos h)] at hfloor
  linarith

end Ticks

/-- Settles O21: `n / NS_PER_TICK` is `n × TICK_HZ / 10^9`, and a floor is within one of its argument. -/
theorem targetTicksIsTheFloor : Obligations.TargetTicksIsTheFloor := fun cfg n h =>
  ⟨targetTicks_eq_floor cfg n, rfl, rfl, lt_targetTicks_mul_nsPerTick h n, targetTicks_mul_nsPerTick_le h n⟩

/-! The delay events of a trace. -/

/-- An optional delay lasts its ticks, and one that a parameter of 0 turns off has none (R123, R128). -/
theorem sum_nanoseconds_optionalDelayEvent {kind : DelayKind} (hk : kind ≠ .ms) (cfg : Params) (n : Nat) :
    ((optionalDelayEvent cfg kind n).map (Event.nanoseconds cfg)).sum =
      (((delayTicks cfg kind n).getD 0 : Nat) : Rat) * nsPerTick cfg := by
  cases kind with
  | ms => exact absurd rfl hk
  | ns | us =>
    rcases Nat.eq_zero_or_pos n with rfl | hn
    · simp [optionalDelayEvent, delayTicks, targetTicks]
    · simp [optionalDelayEvent, hn, Event.nanoseconds]

theorem optionalDelayEvent_no_request (cfg : Params) (kind : DelayKind) (n : Nat) :
    (optionalDelayEvent cfg kind n).filter Event.isRequest = [] := by
  unfold optionalDelayEvent
  split <;> rfl

/-- Two requests with at most a delay between them are requests in a row, and the pulse between them lasts the ticks of
the delay. -/
theorem pulseWidth_optionalDelay (xs ys : List Event) {r r' : Event} (hr : r.isRequest = true) (hr' : r'.isRequest = true)
    {kind : DelayKind} (hk : kind ≠ .ms) (cfg : Params) (n : Nat) :
    let events := xs ++ r :: (optionalDelayEvent cfg kind n ++ r' :: ys)
    let j := (xs.filter Event.isRequest).length
    (events.filter Event.isRequest)[j]? = some r ∧ (events.filter Event.isRequest)[j + 1]? = some r' ∧
      pulseWidth cfg j (j + 1) events = (((delayTicks cfg kind n).getD 0 : Nat) : Rat) * nsPerTick cfg := by
  have hnone := optionalDelayEvent_no_request cfg kind n
  refine ⟨?_, ?_, ?_⟩
  · simp [hr]
  · simp [hr, hr', hnone]
  · rw [pulseWidth_between cfg xs _ ys hr hr' hnone, sum_nanoseconds_optionalDelayEvent hk]

/-- SET_ADDR without its fast path, every request acknowledged (R140, R141). -/
theorem exec_setAddr_acknowledged {s : State} {a : Address} {rest : List Input} (hc : s.cfg.wf = true) (hl : s.lc = .ready)
    (ha : a.toNat < s.cfg.capacity) (hslow : ¬ (s.cav = true ∧ s.ca = a)) (hi : s.inbox = acks 4 ++ rest)
    (ht : SequencerTurn rest) :
    ∃ t u w, exec (.setAddr a) s = .next t ∧ Reaches t u ∧ u.Idle ∧
      u.trace = s.trace ++ (addressEvents s a ++ [.response w]) := by
  have hrange : addressOutOfRange s.cfg (.setAddr a) = false := by simpa [addressOutOfRange] using ha
  have hi' : s.inbox = acks (addressCost s a) ++ rest := by rw [addressCost, if_neg hslow, hi]
  obtain ⟨e, hrun, -⟩ := reaches_setAddress (a := a)
    (s := { s with issued := false, current := .command (.setAddr a) }) [.respond .ok] hc hi' ht
  exact ⟨_, _, _, accept_runs (.inl hl) hrange, hrun.trans (reaches_respond ht), ⟨rfl, rfl⟩, List.append_assoc ..⟩

/-- WRITE, every request acknowledged (R182, R183). -/
theorem exec_write_acknowledged {s : State} {a : Address} (v : Byte) {misses : Nat} {rest : List Input}
    (h : s.Operational) (ha : a.toNat < s.cfg.capacity) (hlim : ∀ n, s.cfg.pollLimit = some n → misses < n)
    (hi : s.inbox = writeInputs (writeCost s a) misses ++ rest) (ht : SequencerTurn rest) :
    ∃ t u w, exec (.write a v) s = .next t ∧ Reaches t u ∧ u.Idle ∧
      u.trace = s.trace ++ (addressEvents s a ++ outputEnableEvents s false ++ modeEvents s .output ++
        driveEvents s.cfg v ++ pollEvents s.cfg (List.replicate misses (!v[7]) ++ [v[7]]) ++ [.response w]) := by
  have hrange : addressOutOfRange s.cfg (.write a v) = false := by simpa [addressOutOfRange] using ha
  have hop : State.Operational { s with issued := false, current := .command (.write a v) } :=
    ⟨h.config, h.ready, ⟨h.coherent.address, h.coherent.direction, h.coherent.outputEnable⟩, h.quiescent⟩
  obtain ⟨e, hrun, -⟩ := reaches_writeByte (v := v) [.respond .ok] hop ha hi hlim
  exact ⟨_, _, _, accept_runs (.inl h.ready) hrange, hrun.trans (reaches_respond ht), ⟨rfl, rfl⟩, List.append_assoc ..⟩

/-- Settles O60: `exec_setAddr_acknowledged` and `exec_write_acknowledged` give the trace of the command, in which only an
optional delay stands between the two requests (`pulseWidth_optionalDelay`). -/
theorem pulseWidths : Obligations.PulseWidths := by
  refine ⟨fun s a rest hc hl ha hslow hi ht => ?_, fun s a v misses rest h ha hlim hi ht => ?_⟩
  · obtain ⟨t, u, w, hexec, hreach, hidle, htrace⟩ := exec_setAddr_acknowledged hc hl ha hslow hi ht
    obtain ⟨hhigh, hlow, hwidth⟩ := pulseWidth_optionalDelay
      [soEvent s.cfg (highByte a), soEvent s.cfg (lowByte a)]
      (optionalDelayEvent s.cfg .us s.cfg.tSettleUs ++ [.response w])
      (r := dwEvent s.cfg .latch .high) (r' := dwEvent s.cfg .latch .low) rfl rfl
      (kind := .us) nofun s.cfg s.cfg.tLatchUs
    refine ⟨t, u, _, hexec, hreach, hidle, ?_, hhigh, hlow, hwidth, ?_⟩
    · simp [htrace, addressEvents, hslow]
    · have hlt := lt_targetTicks_mul_nsPerTick (tickHz_pos hc) (s.cfg.tLatchUs * 1000)
      push_cast at hlt
      exact hlt.trans_eq hwidth.symm
  · obtain ⟨t, u, w, hexec, hreach, hidle, htrace⟩ := exec_write_acknowledged v h ha hlim hi ht
    obtain ⟨hlow, hhigh, hwidth⟩ := pulseWidth_optionalDelay
      (addressEvents s a ++ outputEnableEvents s false ++ modeEvents s .output ++
        (List.finRange 8).map fun i => dwEvent s.cfg (.d i) (if v[i] then .high else .low))
      (pollEvents s.cfg (List.replicate misses (!v[7]) ++ [v[7]]) ++ [.response w])
      (r := dwEvent s.cfg .we .low) (r' := dwEvent s.cfg .we .high) rfl rfl
      (kind := .ns) nofun s.cfg s.cfg.tWeNs
    refine ⟨t, u, _, _, hexec, hreach, hidle, ?_, hlow, hhigh, hwidth, fun h0 => ?_⟩
    · simp [htrace, driveEvents]
    · rw [hwidth, h0]
      simp [delayTicks, targetTicks]

/-! The steps that run no instruction (R5, R100, R123). -/

section Steps

variable {s : State}

/-- With no word at the command port the block waits (R254). -/
theorem step_no_word (hm : s.ms = []) (hi : s.inbox = []) (hp : s.port = []) : step s = .next s := by
  have hs : s.settled = s := by rw [State.settled, hm, resume_nil, ← hm]
  rw [step_eq_sequencerStep (hi ▸ .nil), sequencerStep, hs, sequencerAct, hm]
  simp only [acceptCommand, hp]

/-- At a request the sequencer's step is the transport's (R10). -/
theorem step_at_request {op : MicroOp} {k : List MicroOp} {r : Request} (hm : s.ms = op :: k)
    (hr : op.nextRequest s.cfg = some r) (hi : SequencerTurn s.inbox) : step s = transport r s := by
  rw [step_eq_sequencerStep hi, sequencerStep]
  cases op with
  | request _ | sample _ | pollRead | restoreBit7 =>
    have hs : s.settled = s := by
      rw [State.settled, hm]
      exact congrArg (fun ms => { s with ms := ms }) hm.symm
    rw [hs, sequencerAct, hm]
    simp only [hr, exec_request]
  | _ => cases hr

end Steps

/-- Settles O10: the laws of a step at a delay, at a response, at no word and at a request with no answer. -/
theorem stepOfDelayResponseAndWaiting : Obligations.StepOfDelayResponseAndWaiting := by
  refine ⟨fun s kind n k hm hi => step_delay hm hi, fun s st k hm hi => ?_, fun s k hm hi => ?_,
    fun s hm hi hp => step_no_word hm hi hp, fun s op k r hm hi hr => ?_⟩
  · exact (step_respond hm hi).trans (congrArg _ (deliver_eq_answered s st 0))
  · rw [step_respondByte hm hi, deliver_eq_answered]
  · rw [step_at_request hm hr (hi ▸ .nil), transport, hi]

/-! The delay commands (R124 to R126). -/

/-- A delay and then the response OK (R123, R100). -/
theorem reaches_delay_answer {s : State} {kind : DelayKind} {n : Nat} (hi : SequencerTurn s.inbox)
    (hissued : s.issued = false) :
    Reaches (resume [.delay kind n, .respond .ok] s)
      (s.answered [.delay kind n (delayTicks s.cfg kind n)] 0x00000000#32) := by
  have hword : responseWord .ok s.issued 0 = 0x00000000#32 := by rw [hissued]; rfl
  rw [← hword]
  exact (reaches_delay hi).trans (reaches_respond (s := s.recordDelay kind n) hi)

/-- A command that is one delay: accepted before and after Setup, it records the delay and answers OK, and nothing else of
the state is different. -/
theorem exec_delay_completes {s : State} {i : Instr} {kind : DelayKind} {n : Nat}
    (hx : exec i s = accept i s (resume [.delay kind n, .respond .ok])) (hrun : runsUnconfigured i = true)
    (hrange : addressOutOfRange s.cfg i = false) (hl : s.lc = .unconfigured ∨ s.lc = .ready)
    (hi : SequencerTurn s.inbox) :
    ∃ t, exec i s = .next t ∧ Reaches t (s.answered [.delay kind n (delayTicks s.cfg kind n)] 0x00000000#32) := by
  have haccept : s.lc = .ready ∨ s.lc = .unconfigured ∧ runsUnconfigured i = true := hl.symm.imp_right (⟨·, hrun⟩)
  exact ⟨_, hx.trans (accept_runs haccept hrange),
    reaches_delay_answer (s := { s with issued := false, current := .command i }) hi rfl⟩

/-- Settles O18: `exec_delay_completes`; below one tick the quotient is 0. -/
theorem delayNsCompletes : Obligations.DelayNsCompletes :=
  ⟨encodeCount_eq_or rfl, fun _ _ hl hi => exec_delay_completes rfl rfl rfl hl hi, fun _ _ h => Nat.div_eq_of_lt h,
    fun cfg h => by rw [targetTicks, h]; rfl⟩

/-- Settles O19: `exec_delay_completes`, the ticks those of `n × 1000` nanoseconds. -/
theorem delayUsCompletes : Obligations.DelayUsCompletes :=
  ⟨encodeCount_eq_or rfl, fun _ _ hl hi => exec_delay_completes rfl rfl rfl hl hi,
    fun cfg h => by rw [delayTicks, targetTicks, h]; rfl⟩

/-- Settles O20: `exec_delay_completes`. -/
theorem delayMsCompletes : Obligations.DelayMsCompletes :=
  ⟨encodeCount_eq_or rfl, fun _ _ hl hi => exec_delay_completes rfl rfl rfl hl hi⟩

end Sys2Proof.Machine
end

section
/-! PROOF. The Address Sequencer (42_address_sequencer.md): SET_ADDR with every request acknowledged runs by
`reaches_setAddress`; with a request that answers `error` it runs by `Straight.reaches_failed`, which holds of any run of
requests and delays that leaves the device alone. -/

namespace Sys2Proof.Machine

/-! A run of requests and delays that a request of it cuts short (R144, R272). -/

theorem Env.SameDevice.trans {e d f : Env} (h : e.SameDevice d) (h' : d.SameDevice f) : e.SameDevice f :=
  ⟨fun x => (h'.bytes x).trans (h.bytes x), h'.busy.trans h.busy, h'.suspect.trans h.suspect⟩

/-- A request that reads nothing and leaves the device as it was, acknowledged or not. -/
structure SparesDevice (cfg : Params) (r : Request) : Prop where
  answer : ∀ e : Env, e.answer cfg r = .ack
  perform : ∀ e : Env, e.SameDevice (e.perform cfg r)
  fail : ∀ e : Env, e.SameDevice (e.fail cfg r)

theorem sparesDevice_shiftOut (cfg : Params) (b : Byte) :
    SparesDevice cfg (.shiftOut (pinOf cfg .sd) (pinOf cfg .sc) .msbFirst b) where
  answer _ := rfl
  perform e := by
    rw [Env.perform_shiftOut]
    exact .of_eq rfl rfl rfl
  fail _ := .of_eq rfl rfl rfl

theorem sparesDevice_digitalWrite {cfg : Params} (hc : cfg.wf = true) {r : Role} (hr : r ≠ .we) (l : Level) :
    SparesDevice cfg (.digitalWrite (pinOf cfg r) l) where
  answer _ := rfl
  perform e := by
    obtain ⟨d, hd, hedge⟩ := Env.writePin_edge cfg e r l
    obtain ⟨-, -, -, -, hdevice⟩ := hedge.setLevel (some l)
    rw [Env.perform_digitalWrite hc, hd]
    exact hdevice (.inl hr)
  fail e := by
    obtain ⟨d, hd, hedge⟩ := Env.failPin_edge cfg e r l
    obtain ⟨-, -, -, -, hdevice⟩ := hedge.setLevel none
    rw [Env.fail_digitalWrite hc, hd]
    exact hdevice (.inl hr)

/-- Micro-steps that are requests and delays only, no request of them touching the device, with their events when every
request is acknowledged. -/
inductive Straight (cfg : Params) : List MicroOp → List Event → Prop where
  | nil : Straight cfg [] []
  | request {r : Request} {ops : List MicroOp} {events : List Event} (hr : SparesDevice cfg r)
    (h : Straight cfg ops events) : Straight cfg (.request r :: ops) (.request r .ack :: events)
  | delay (kind : DelayKind) (n : Nat) {ops : List MicroOp} {events : List Event} (h : Straight cfg ops events) :
    Straight cfg (.delay kind n :: ops) (.delay kind n (delayTicks cfg kind n) :: events)

namespace Straight

variable {cfg : Params} {ops : List MicroOp} {events : List Event}

theorem optionalDelay_append (h : Straight cfg ops events) (kind : DelayKind) (n : Nat) :
    Straight cfg (optionalDelay kind n ++ ops) (optionalDelayEvent cfg kind n ++ events) := by
  unfold optionalDelay optionalDelayEvent
  split
  · exact h.delay kind n
  · exact h

theorem not_mem (h : Straight cfg ops events) {op : MicroOp} (hreq : ∀ r, op ≠ .request r)
    (hdelay : ∀ kind n, op ≠ .delay kind n) : op ∉ ops := by
  induction h with
  | nil => exact List.not_mem_nil
  | @request r _ _ _ _ ih => exact List.not_mem_cons_of_ne_of_not_mem (hreq r) ih
  | delay kind n _ ih => exact List.not_mem_cons_of_ne_of_not_mem (hdelay kind n) ih

end Straight

/-- What a TransportFailure leaves of the sequencer: no cache is trusted, and a Setup that it cuts short
has not run (R272). -/
def State.transportFailed (s : State) (inbox : List Input) (env : Env) : State :=
  { s with
    cav := false, dirv := false, oev := false
    lc := if s.current = .command .setup then .unconfigured else s.lc
    inbox := inbox, env := env }

/-- What is in the trace before the rest of a command stands before the events of the rest. -/
theorem State.answered_cons (s : State) (x : Event) (events : List Event) (w : Word) :
    State.answered { s with trace := s.trace ++ [x] } events w = s.answered (x :: events) w := by
  simp [State.answered]

/-- Request number `n` of the run answers `error`: the run stops there, no cache is trusted, and the command is answered
(R272). -/
theorem Straight.reaches_failed {cfg : Params} {ops k : List MicroOp} {events : List Event}
    (h : Straight cfg ops events) {s : State} (hs : s.cfg = cfg) {n : Nat} {rest : List Input}
    (hn : n < (events.filter Event.isRequest).length) (hi : s.inbox = acks n ++ .reply true :: rest)
    (ht : SequencerTurn rest) (hpoll : MicroOp.pollRead ∉ k) (hrestore : MicroOp.restoreBit7 ∉ k) :
    ∃ before r e, Reaches (resume (ops ++ k) s)
      ((s.transportFailed rest e).answered (before ++ [Event.request r .error]) 0x01000100#32) ∧
      (before ++ [Event.request r .ack]) <+: events ∧ (before.filter Event.isRequest).length = n ∧
      s.env.SameDevice e := by
  induction h generalizing s n with
  | nil => exact absurd hn (Nat.not_lt_zero n)
  | @request r ops events hr h ih =>
    subst hs
    cases n with
    | zero =>
      have hrun := reaches_requestFailed_plain (k := ops ++ k) (r := r) hi ht
        (List.not_mem_append (h.not_mem nofun nofun) hpoll) (List.not_mem_append (h.not_mem nofun nofun) hrestore)
      exact ⟨[], r, _, hrun, ⟨events, rfl⟩, rfl, hr.fail s.env⟩
    | succ n =>
      have hi' : s.inbox = .reply false :: (acks n ++ .reply true :: rest) := hi.trans (acks_succ ..)
      obtain ⟨before, r', e, hrun, ⟨tail, htail⟩, hcount, hdevice⟩ :=
        ih (s := s.acknowledged r (acks n ++ .reply true :: rest)) rfl (Nat.lt_of_succ_lt_succ hn) rfl
      refine ⟨.request r .ack :: before, r', e, (reaches_request hi').trans (hrun.trans (.of_eq ?_)),
        ⟨tail, congrArg (_ :: ·) htail⟩, congrArg (· + 1) hcount, (hr.perform s.env).trans hdevice⟩
      rw [← hr.answer s.env]
      exact State.answered_cons (s.transportFailed rest e) ..
  | delay kind amount h ih =>
    subst hs
    have hturn : SequencerTurn s.inbox := hi ▸ .acks_append n (.reply true rest)
    obtain ⟨before, r, e, hrun, ⟨tail, htail⟩, hcount, hdevice⟩ := ih (s := s.recordDelay kind amount) rfl hn hi
    refine ⟨.delay kind amount (delayTicks s.cfg kind amount) :: before, r, e,
      (reaches_delay hturn).trans (hrun.trans (.of_eq ?_)), ⟨tail, congrArg (_ :: ·) htail⟩, hcount, hdevice⟩
    exact State.answered_cons (s.transportFailed rest e) ..

/-! SET_ADDR (R140, R141, R144). -/

section SetAddr

variable {s : State} {a : Address} {rest : List Input}

theorem addressOutOfRange_setAddr {cfg : Params} (ha : a.toNat < cfg.capacity) :
    addressOutOfRange cfg (.setAddr a) = false := by
  simpa [addressOutOfRange] using ha

/-- SET_ADDR with every request acknowledged: what `reaches_setAddress` says of the environment, and the response. -/
theorem exec_setAddr_completes (hc : s.cfg.wf = true) (hl : s.lc = .ready) (ha : a.toNat < s.cfg.capacity)
    (hi : s.inbox = acks (addressCost s a) ++ rest) (ht : SequencerTurn rest) :
    ∃ t e, exec (.setAddr a) s = .next t ∧
      Reaches t ({ s with ca := a, cav := true, inbox := rest, env := e }.answered (addressEvents s a)
        (if s.cav = true ∧ s.ca = a then 0x00000000#32 else 0x00000100#32)) ∧
      (s.cav = true ∧ s.ca = a → e = s.env) ∧
      (¬(s.cav = true ∧ s.ca = a) → e.pin .latch = { s.env.pin .latch with level := some .low } ∧
        ((s.env.pin .latch).level = some .low → e.latch = some a ∧ e.shift.value = some a)) ∧
      (∀ r, r ≠ .latch → e.pin r = s.env.pin r) ∧ s.env.SameDevice e := by
  obtain ⟨e, hrun, hfast, hslow, hpins, hmem, hbusy, hsuspect⟩ := reaches_setAddress (a := a)
    (s := { s with issued := false, current := .command (.setAddr a) }) [.respond .ok] hc hi ht
  have hword : responseWord .ok (false || decide (addressCost s a ≠ 0)) 0 =
      if s.cav = true ∧ s.ca = a then 0x00000000#32 else 0x00000100#32 := by
    unfold addressCost
    split <;> rfl
  refine ⟨_, e, accept_runs (.inl hl) (addressOutOfRange_setAddr ha), ?_, hfast, hslow, hpins,
    .of_eq hmem hbusy hsuspect⟩
  rw [← hword]
  exact hrun.trans (reaches_respond ht)

/-- The sequence of R140 up to `CA <- a` is requests and delays, with the events of SetAddress. -/
theorem straight_load (hc : s.cfg.wf = true) (hslow : ¬ (s.cav = true ∧ s.ca = a)) :
    ∃ ops, loadOps s.cfg a = ops ++ [.latched a] ∧ Straight s.cfg ops (addressEvents s a) := by
  have hlatch := sparesDevice_digitalWrite hc (r := .latch) nofun
  refine ⟨_, rfl, ?_⟩
  simp only [addressEvents, if_neg hslow, List.append_assoc, List.cons_append, List.nil_append]
  have hsettle := Straight.nil.optionalDelay_append (cfg := s.cfg) .us s.cfg.tSettleUs
  rw [List.append_nil, List.append_nil] at hsettle
  exact .request (sparesDevice_shiftOut _ _) <| .request (sparesDevice_shiftOut _ _) <| .request (hlatch .high) <|
    (hsettle.request (hlatch .low)).optionalDelay_append _ _

theorem length_requests_addressEvents (s : State) (a : Address) :
    ((addressEvents s a).filter Event.isRequest).length = addressCost s a := by
  unfold addressEvents addressCost
  split
  · rfl
  · simp [List.filter_cons, optionalDelayEvent_no_request, soEvent, dwEvent, Event.isRequest]

end SetAddr

/-- Settles O22: `exec_setAddr_completes`. -/
theorem setAddrCompletes : Obligations.SetAddrCompletes := by
  intro s a rest hc hl ha hi ht
  obtain ⟨t, e, hexec, hreach, hfast, hslow, hpins, hdevice⟩ := exec_setAddr_completes hc hl ha hi ht
  exact ⟨t, _, hexec, hreach, rfl, hfast, hpins, fun h => (hslow h).1, hdevice⟩

/-- Settles O23: `exec_setAddr_completes` from a low latch clock, and `Env.perform_shiftOut`. -/
theorem addressLinesCarryTheAddress : Obligations.AddressLinesCarryTheAddress := by
  refine ⟨fun s a rest hc hl ha hslow hlow hi ht => ?_, fun cfg e b => ?_⟩
  · have hi' : s.inbox = acks (addressCost s a) ++ rest := by rw [addressCost, if_neg hslow, hi]
    obtain ⟨t, e, hexec, hreach, -, hload, -, -⟩ := exec_setAddr_completes hc hl ha hi' ht
    obtain ⟨-, hcarried⟩ := hload hslow
    obtain ⟨hlatch, hshift⟩ := hcarried hlow
    exact ⟨t, _, hexec, hreach, ⟨rfl, rfl⟩, rfl, hshift, hlatch, addressLines_latched s.cfg e hlatch⟩
  · rw [Env.perform_shiftOut]
    rfl

/-- Settles O24: the failed request stands in the run of requests and delays before `CA <- a` (`straight_load`,
`Straight.reaches_failed`), and with `CAV` cleared no address takes the fast path. -/
theorem setAddrFails : Obligations.SetAddrFails := by
  intro s a k rest hc hl ha hk hi ht
  have hslow : ¬ (s.cav = true ∧ s.ca = a) := fun h => by simp [addressCost, h] at hk
  obtain ⟨ops, hops, hstraight⟩ := straight_load hc hslow
  rw [← length_requests_addressEvents] at hk
  obtain ⟨before, r, e, hrun, hbefore, hcount, hdevice⟩ := hstraight.reaches_failed
    (s := { s with issued := false, current := .command (.setAddr a) }) (k := [.latched a, .respond .ok]) rfl hk hi ht
    (by simp) (by simp)
  refine ⟨_, { s with cav := false, dirv := false, oev := false, inbox := rest, env := e }.answered
    (before ++ [Event.request r .error]) 0x01000100#32, before, r, accept_runs (.inl hl) (addressOutOfRange_setAddr ha),
    ?_, rfl, hbefore, hcount, fun _ => rfl, hdevice⟩
  rw [resume_setAddress_load _ _ (by exact hslow), hops, List.append_assoc]
  exact hrun

end Sys2Proof.Machine
end

section
/-! PROOF. The Data Bus Controller (43_data_bus.md): SET_MODE and SET_OE with every request acknowledged run by
`reaches_setMode` and `reaches_setOutputEnabled`; with a request that answers `error`, SET_MODE runs by
`Straight.reaches_failed`, and the one request of SET_OE ends the command by `reaches_requestFailed_plain`. -/

namespace Sys2Proof.Machine

/-- The response to a setter: `ISSUED` is 1 exactly if the fast path was not taken (R29, R160, R162). -/
theorem responseWord_of_cost (fast : Prop) [Decidable fast] {n : Nat} (hn : n ≠ 0) :
    responseWord .ok (false || decide ((if fast then 0 else n) ≠ 0)) 0 =
      if fast then 0x00000000#32 else 0x00000100#32 := by
  by_cases h : fast
  · rw [if_pos h, if_pos h]
    rfl
  · rw [if_neg h, if_neg h, decide_eq_true hn]
    rfl

/-! The requests of SET_MODE as a run that a failure can cut short (R160, R165). -/

theorem sparesDevice_setPinMode {cfg : Params} (hc : cfg.wf = true) (r : Role) (m : PinMode) :
    SparesDevice cfg (.setPinMode (pinOf cfg r) m) where
  answer _ := rfl
  perform e := by
    rw [Env.perform_setPinMode hc]
    obtain ⟨-, -, -, -, hdevice⟩ := Env.setMode_frame e r (some m)
    exact hdevice
  fail e := by
    rw [Env.fail_setPinMode hc]
    obtain ⟨-, -, -, -, hdevice⟩ := Env.setMode_frame e r none
    exact hdevice

theorem straight_setPinModes {cfg : Params} (hc : cfg.wf = true) (m : PinMode) (rs : List Role) :
    Straight cfg (rs.map fun r => setPinModeOp cfg r m) (rs.map fun r => spmEvent cfg r m) := by
  induction rs with
  | nil => exact .nil
  | cons r rs ih => exact .request (sparesDevice_setPinMode hc r m) ih

section Setters

variable {s : State} {d : PinMode} {b : Bool}

/-- The requests of SetMode up to `DIR <- d`, with its events. -/
theorem straight_setMode (hc : s.cfg.wf = true) (hslow : ¬ (s.dirv = true ∧ s.dir = d)) :
    ∃ ops, setModeOps s.cfg d = ops ++ [.directionSet d] ∧ Straight s.cfg ops (modeEvents s d) := by
  refine ⟨((List.finRange 8).map .d).map fun r => setPinModeOp s.cfg r d, rfl, ?_⟩
  rw [modeEvents, if_neg hslow]
  exact straight_setPinModes hc d ((List.finRange 8).map .d)

theorem isRequest_of_mem_modeEvents {x : Event} (hx : x ∈ modeEvents s d) : x.isRequest = true := by
  unfold modeEvents at hx
  split at hx
  · cases hx
  · obtain ⟨i, -, rfl⟩ := List.mem_map.1 hx
    rfl

theorem length_requests_modeEvents (s : State) (d : PinMode) :
    ((modeEvents s d).filter Event.isRequest).length = modeCost s d := by
  rw [List.filter_eq_self.2 fun _ => isRequest_of_mem_modeEvents]
  unfold modeEvents modeCost
  split <;> rfl

theorem not_fast_of_lt_modeCost {n : Nat} (h : n < modeCost s d) : ¬ (s.dirv = true ∧ s.dir = d) := fun hfast => by
  rw [modeCost, if_pos hfast] at h
  exact Nat.not_lt_zero n h

theorem not_fast_of_outputEnableCost_ne (h : outputEnableCost s b ≠ 0) : ¬ (s.oev = true ∧ s.oe = b) := fun hfast =>
  h (if_pos hfast)

end Setters

/-- Settles O25: `reaches_setMode`, then the response. -/
theorem setModeCompletes : Obligations.SetModeCompletes := by
  intro s d rest hc hl hi ht
  obtain ⟨e, hrun, hfast, hslow, hpins, hshift, hlatch, hmem, hbusy, hsuspect⟩ := reaches_setMode (d := d)
    (s := { s with issued := false, current := .command (.setMode d) }) [.respond .ok] hc hi
  have hword := responseWord_of_cost (s.dirv = true ∧ s.dir = d) (n := 8) (by decide)
  refine ⟨_, { s with dir := d, dirv := true, inbox := rest, env := e }.answered (modeEvents s d) _,
    accept_runs (.inl hl) rfl, ?_, rfl, hfast, hslow, hpins, hshift, hlatch, .of_eq hmem hbusy hsuspect⟩
  rw [← hword]
  exact hrun.trans (reaches_respond ht)

/-- Settles O26: `reaches_setOutputEnabled`, then the response. -/
theorem setOeCompletes : Obligations.SetOeCompletes := by
  intro s b rest hc hl hi ht
  obtain ⟨e, hrun, hfast, hslow, hpins, hshift, hlatch, hmem, hbusy, hsuspect⟩ := reaches_setOutputEnabled (b := b)
    (s := { s with issued := false, current := .command (.setOe b) }) [.respond .ok] hc hi
  have hword := responseWord_of_cost (s.oev = true ∧ s.oe = b) (n := 1) (by decide)
  refine ⟨_, { s with oe := b, oev := true, inbox := rest, env := e }.answered (outputEnableEvents s b) _,
    accept_runs (.inl hl) rfl, ?_, rfl, hfast, hslow, hpins, hshift, hlatch, .of_eq hmem hbusy hsuspect⟩
  rw [← hword]
  exact hrun.trans (reaches_respond ht)

/-- The failure of SET_MODE (R160, R272): the failed request stands in the run of requests before `DIR <- d`. -/
theorem exec_setMode_fails {s : State} {d : PinMode} {k : Nat} {rest : List Input} (hc : s.cfg.wf = true)
    (hl : s.lc = .ready) (hk : k < modeCost s d) (hi : s.inbox = acks k ++ .reply true :: rest)
    (ht : SequencerTurn rest) :
    ∃ t before r e, exec (.setMode d) s = .next t ∧
      Reaches t ({ s with cav := false, dirv := false, oev := false, inbox := rest, env := e }.answered
        (before ++ [Event.request r .error]) 0x01000100#32) ∧
      (before ++ [Event.request r .ack]) <+: modeEvents s d ∧ before.length = k ∧ s.env.SameDevice e := by
  have hslow := not_fast_of_lt_modeCost hk
  obtain ⟨ops, hops, hstraight⟩ := straight_setMode hc hslow
  rw [← length_requests_modeEvents] at hk
  obtain ⟨before, r, e, hrun, hbefore, hcount, hdevice⟩ := hstraight.reaches_failed
    (s := { s with issued := false, current := .command (.setMode d) }) (k := [.directionSet d, .respond .ok])
    rfl hk hi ht (by simp) (by simp)
  have hall : ∀ x ∈ before, x.isRequest = true := fun x hx =>
    isRequest_of_mem_modeEvents (hbefore.subset (List.mem_append_left _ hx))
  rw [List.filter_eq_self.2 hall] at hcount
  refine ⟨_, before, r, e, accept_runs (.inl hl) rfl, ?_, hbefore, hcount, hdevice⟩
  rw [resume_setMode_full _ _ (by exact hslow), hops, List.append_assoc]
  exact hrun

/-- The failure of SET_OE (R162, R272): its one request is the DIGITAL_WRITE of the OE pin. -/
theorem exec_setOe_fails {s : State} {b : Bool} {rest : List Input} (hc : s.cfg.wf = true) (hl : s.lc = .ready)
    (hcost : outputEnableCost s b ≠ 0) (hi : s.inbox = .reply true :: rest) (ht : SequencerTurn rest) :
    ∃ t r e, exec (.setOe b) s = .next t ∧
      Reaches t ({ s with cav := false, dirv := false, oev := false, inbox := rest, env := e }.answered
        [Event.request r .error] 0x01000100#32) ∧
      outputEnableEvents s b = [.request r .ack] ∧ s.env.SameDevice e := by
  have hslow := not_fast_of_outputEnableCost_ne hcost
  have hspares := sparesDevice_digitalWrite hc (r := .oe) nofun (outputEnableLevel b)
  have hrun := reaches_requestFailed_plain
    (s := { s with issued := false, current := .command (.setOe b) }) (k := [.outputEnableSet b, .respond .ok])
    (r := .digitalWrite (pinOf s.cfg .oe) (outputEnableLevel b)) hi ht (by simp) (by simp)
  refine ⟨_, _, _, accept_runs (.inl hl) rfl, ?_, if_neg hslow, hspares.fail s.env⟩
  rw [resume_setOutputEnabled_full _ _ (by exact hslow)]
  exact hrun

/-- Settles O27: `exec_setMode_fails` and `exec_setOe_fails`. -/
theorem busSettersFail : Obligations.BusSettersFail := by
  refine ⟨fun s d k rest hc hl hk hi ht => ?_, fun s b rest hc hl hcost hi ht => ?_⟩
  · obtain ⟨t, before, r, e, hexec, hreach, hbefore, hcount, hdevice⟩ := exec_setMode_fails hc hl hk hi ht
    exact ⟨t, _, before, r, hexec, hreach, rfl, hbefore, hcount, hdevice⟩
  · obtain ⟨t, r, e, hexec, hreach, hevents, hdevice⟩ := exec_setOe_fails hc hl hcost hi ht
    exact ⟨t, _, r, hexec, hreach, rfl, hevents, hdevice⟩

end Sys2Proof.Machine
end

section
/-! PROOF. The Byte I/O Engine (44_byte_io.md). READ and WRITE run by `reaches_readByte` and `reaches_writeByte`; the WriteByte that
times out is put together here from `reaches_writeByte_polling` and `reaches_pollTimeout`. Added to that are the acceptance of the
command, the response, and what the end of the run says of the pins. -/

namespace Sys2Proof.Machine

/-! From the acceptance of the command to its procedure (R254). -/

/-- The acceptance of a command touches neither the caches nor the pins. -/
theorem State.Operational.accepted {s : State} (h : s.Operational) (i : Instr) :
    State.Operational { s with issued := false, current := .command i } :=
  ⟨h.config, h.ready, ⟨h.coherent.address, h.coherent.direction, h.coherent.outputEnable⟩, h.quiescent⟩

theorem exec_read_runs {s : State} {a : Address} (h : s.Operational) (ha : a.toNat < s.cfg.capacity) :
    exec (.read a) s =
      .next (resume (readByteOps a ++ [.respondByte]) { s with issued := false, current := .command (.read a) }) :=
  accept_runs (.inl h.ready) (by simpa [addressOutOfRange] using ha)

theorem exec_write_runs {s : State} {a : Address} (v : Byte) (h : s.Operational) (ha : a.toNat < s.cfg.capacity) :
    exec (.write a v) s = .next (resume (writeByteOps s.cfg a v ++ [.respond .ok])
      { s with issued := false, current := .command (.write a v) }) :=
  accept_runs (.inl h.ready) (by simpa [addressOutOfRange] using ha)

/-! WriteByte to a device that never completes (R184, R186). -/

/-- A poll limit allows at least one read (R7). -/
theorem pollLimit_pos {cfg : Params} {n : Nat} (hc : cfg.wf = true) (h : cfg.pollLimit = some n) : 0 < n := by
  simp only [Params.wf, Bool.and_eq_true, h] at hc
  obtain ⟨-, hne⟩ := hc
  exact Nat.pos_of_ne_zero (by simpa using hne)

/-- WriteByte whose polling reads all miss, every request acknowledged (R184 P4, R186): D7 is restored, then WriteTimeout; no
byte is different, and the write cycle that the write pulse started is still in progress. -/
theorem reaches_writeByte_timeout {s : State} {a : Address} {v : Byte} (k : List MicroOp) {n : Nat} {rest : List Input}
    (h : s.Operational) (ha : a.toNat < s.cfg.capacity) (hi : s.inbox = acks (writeCost s a + n + 1) ++ rest)
    (hlim : s.cfg.pollLimit = some n) :
    ∃ e : Env,
      Reaches (resume (writeByteOps s.cfg a v ++ k) s)
        (raise .writeTimeout { s with
          ca := a, cav := true, dir := .output, dirv := true, oe := true, oev := true
          em := v[7], wv := v >>> 8, pcnt := n, issued := true, inbox := rest
          trace := s.trace ++ (addressEvents s a ++ outputEnableEvents s false ++ modeEvents s .output ++
            driveEvents s.cfg v ++ pollEvents s.cfg (List.replicate n (!v[7])))
          env := e }) ∧
      (∀ i, (e.pin (.d i)).mode = some .output) ∧ e.mem = s.env.mem ∧ e.busy = some ⟨a.toNat, v⟩ := by
  obtain ⟨m, rfl⟩ := Nat.exists_eq_succ_of_ne_zero (pollLimit_pos h.config hlim).ne'
  have hi' : s.inbox = acks (writeCost s a) ++ (acks (m + 2) ++ rest) := by rw [hi, ← acks_add]; rfl
  obtain ⟨e, hrun, hdata, hoe, -, -, hmem, hbusy, -⟩ := reaches_writeByte_polling (v := v) k h ha hi'
  have hpoll := reaches_pollTimeout (c := ⟨a.toNat, v⟩) (n := m) (rest := rest)
    (s := { s with
      ca := a, cav := true, dir := .output, dirv := true, oe := true, oev := true
      em := v[7], wv := v >>> 8, pcnt := 0, issued := true, inbox := acks (m + 2) ++ rest
      trace := s.trace ++ (addressEvents s a ++ outputEnableEvents s false ++ modeEvents s .output ++
        driveEvents s.cfg v ++ [spmEvent s.cfg (.d 7) .input, dwEvent s.cfg .oe .low])
      env := e }) k h.config rfl hoe (by simp [hdata]) hbusy rfl rfl hlim
  refine ⟨((e.drawnTimes (m + 1)).setMode (.d 7) (some .output)).drawn, hrun.trans (hpoll.trans (Reaches.of_eq ?_)), ?_,
    hmem, hbusy⟩
  · simp only [pollEvents, List.append_assoc]
  · intro i
    by_cases h7 : i = 7
    · simp [h7]
    · simp [Ne.symm h7, Env.drawnTimes, hdata, h7]

/-! The end of each run. -/

/-- The EEPROM drives the bus and so does the host, on any one data line (R72). -/
theorem Env.contention_of_output {e : Env} {i : Fin 8} (ho : e.pin .oe = ⟨some .output, some .low⟩)
    (hd : (e.pin (.d i)).mode = some .output) : e.contention = true := by
  have hany : (List.finRange 8).any (fun j => (e.pin (.d j)).mode == some PinMode.output) = true :=
    List.any_eq_true.2 ⟨i, List.mem_finRange i, by rw [hd]; rfl⟩
  rw [Env.contention, hany, Env.outputEnableAt, ho]
  rfl

/-- A WriteTimeout is answered next, the address of the running cycle being suspect from then on (R272, R275). -/
theorem reaches_raise_writeTimeout {s : State} {c : WriteCycle} (hb : s.env.busy = some c) (ht : SequencerTurn s.inbox) :
    Reaches (raise .writeTimeout s)
      (State.deliver { s with env := { s.env with suspect := some c.addr } } .writeTimeout 0) := by
  have hraise : raise .writeTimeout s =
      { s with env := { s.env with suspect := some c.addr }, ms := [.respond .writeTimeout] } := by
    simp only [raise, Env.writtenAddress, hb, ErrorKind.status]
  rw [hraise]
  exact Reaches.single (step_respond (k := []) rfl ht)

/-- Settles O29: `reaches_readByte`, then the response. -/
theorem readReturnsTheByte : Obligations.ReadReturnsTheByte := by
  intro s a rest h ha hi ht
  obtain ⟨e, hrun, hdata, hoe, hothers, hlatch, hmem, hbusy, hsuspect⟩ :=
    reaches_readByte [.respondByte] (h.accepted (.read a)) ha hi ht
  have hoe' : e.pin .oe = ⟨some .output, some .low⟩ := by
    simp [hoe, h.quiescent.outputEnableDriven]
  refine ⟨_, _, exec_read_runs h ha, hrun.trans (reaches_respondByte ht), ?_, ?_, .of_eq hmem hbusy hsuspect, hothers⟩
  · rw [← responseWord_ok_issued]
    rfl
  · exact h.after rfl rfl rfl rfl rfl (fun i => congrArg PinState.mode (hdata i)) hoe' hothers hlatch
      (hbusy.trans h.quiescent.notBusy)

/-- Settles O30: `reaches_writeByte`, then the response; the memory is the old one with one byte written. -/
theorem writeStoresTheByte : Obligations.WriteStoresTheByte := by
  intro s a v misses rest h ha hlim hi ht
  obtain ⟨e, hrun, hdata, hoe, hothers, hlatch, hmem, hbusy, -⟩ :=
    reaches_writeByte (v := v) [.respond .ok] (h.accepted (.write a v)) ha hi hlim
  have hmode : ∀ i, (e.pin (.d i)).mode = some .output := fun i => congrArg PinState.mode (hdata i)
  have hbytes : ∀ x, e.byteAt x = (s.env.writeByteAt a.toNat v).byteAt x := fun x => congrArg (Memory.read · x) hmem
  have hword : responseWord .ok true 0 = 0x00000100#32 := rfl
  refine ⟨_, _, exec_write_runs v h ha, hrun.trans (reaches_respond ht), ?_, ?_, ?_, fun x hx => ?_, hdata, hoe,
    Env.contention_of_output hoe (hmode 0), hothers⟩
  · rw [← hword]
    rfl
  · exact h.after rfl rfl rfl rfl rfl hmode hoe hothers hlatch hbusy
  · exact (hbytes _).trans (Env.byteAt_writeByteAt_same ..)
  · exact (hbytes x).trans (Env.byteAt_writeByteAt_ne s.env v hx)

/-- Settles O31: `reaches_writeByte_timeout`, then the response; the memory is the old one. -/
theorem writeTimesOut : Obligations.WriteTimesOut := by
  intro s a v n rest h ha hlim hi ht
  obtain ⟨e, hrun, hmode, hmem, hbusy⟩ :=
    reaches_writeByte_timeout (v := v) [.respond .ok] (h.accepted (.write a v)) ha hi hlim
  have hword : responseWord .writeTimeout true 0 = 0x03000100#32 := rfl
  refine ⟨_, _, exec_write_runs v h ha, hrun.trans (reaches_raise_writeTimeout hbusy ht), ?_,
    fun x => congrArg (Memory.read · x) hmem, hbusy, rfl, hmode⟩
  rw [← hword]
  rfl

end Sys2Proof.Machine
end

section
/-! PROOF. The bulk writes (45_bulk.md R220 to R222): WRITE_BLOCK and CLEAR are one loop of WriteBytes, each of which
runs by `reaches_writeByte`. -/

namespace Sys2Proof.Machine

theorem gate_runs {i : Instr} {s : State} {run : State → State} (hl : s.lc = .ready)
    (ha : addressOutOfRange s.cfg i = false) : gate i s run = run s := by
  simp [gate, hl, ha]

/-- The command cycle of a WRITE_BLOCK with well-formed payload words that fit into the device comes to its loop. -/
theorem beginWriteBlock_runs {s : State} (hl : s.lc = .ready) (hword : s.current.isReservedWord = false)
    (hpayload : ∀ x ∈ s.payload, malformedPayload x = false) (hcap : s.payload.length ≤ s.cfg.capacity) :
    beginWriteBlock s =
      resume (bulkOps .block s.payload.length ++ [.respond .ok]) { s with issued := false } := by
  rw [beginWriteBlock_gate hword hpayload, gate_runs (s := { s with issued := false }) hl rfl, writeBlock,
    if_neg (Nat.not_lt.2 hcap)]

/-- A bulk loop of no iterations (R221, R222). -/
theorem reaches_bulk_zero {s : State} (kind : BulkKind) (ht : SequencerTurn s.inbox) :
    Reaches (resume (bulkOps kind 0 ++ [.respond .ok]) s) (State.deliver { s with bi := 0 } .ok 0) := by
  rw [bulkOps, List.cons_append, resume_clearIndex, List.singleton_append,
    resume_loop_respond { s with bi := 0 } .ok (Nat.not_lt_zero _)]
  exact reaches_respond ht

/-- Settles O33: both loops have no iteration. -/
theorem bulkOfNothing : Obligations.BulkOfNothing := by
  intro s hl ht
  have hword : responseWord .ok false 0 = 0x00000000#32 := rfl
  rw [← hword]
  constructor
  · have hclamp : clampBytes s.cfg 0 = 0 := Nat.zero_min _
    refine ⟨_, { s with current := .command (.clear 0), issued := false, bi := 0 }.deliver .ok 0,
      accept_runs (.inl hl) rfl, ?_, deliver_eq_answered ..⟩
    rw [hclamp]
    exact reaches_bulk_zero _ ht
  · have hcount : (0 : Count).toNat = 0 := rfl
    refine ⟨_, { s with current := .command (.writeBlock 0), issued := false, payload := [], bi := 0 }.deliver .ok 0,
      rfl, ?_, deliver_eq_answered ..⟩
    rw [acceptWriteBlock, if_pos hcount, beginWriteBlock_runs
      (s := { s with current := .command (.writeBlock 0), payload := [] }) hl rfl nofun (Nat.zero_le _)]
    exact reaches_bulk_zero _ ht

/-! The loops of WRITE_BLOCK and CLEAR. -/

/-- Whether a command can run rests on the configuration, on `LC`, on the caches and on the environment only. -/
theorem State.Operational.off_caches {s : State} (h : s.Operational) (wv : Byte) (em : Bool) (ra : Byte) (pcnt : Nat)
    (bi : BulkIndex) (row : List Byte) (payload : List Word) (issued : Bool) (cp : Nat) (ms : List MicroOp)
    (current : Activity) (port : List Word) (inbox : List Input) (trace : List Event) :
    State.Operational { s with
      wv := wv, em := em, ra := ra, pcnt := pcnt, bi := bi, row := row, payload := payload, issued := issued, cp := cp
      ms := ms, current := current, port := port, inbox := inbox, trace := trace } :=
  ⟨h.config, h.ready, ⟨h.coherent.address, h.coherent.direction, h.coherent.outputEnable⟩, h.quiescent⟩

theorem bulkAddress_toNat {bi : BulkIndex} (h : bi.toNat < 65536) : (bulkAddress bi).toNat = bi.toNat := by
  rw [bulkAddress, BitVec.toNat_setWidth, Nat.mod_eq_of_lt h]

theorem succ_index_toNat {bi : BulkIndex} (h : bi.toNat < 65536) : (bi + 1).toNat = bi.toNat + 1 := by
  rw [BitVec.toNat_add]
  exact Nat.mod_eq_of_lt (by simp; omega)

/-- A stretch of the trace without a response word, in the terms of the statements. -/
theorem Silent.filter_isResponse {events : List Event} (h : Silent events) : events.filter Event.isResponse = [] := by
  refine List.filter_eq_nil_iff.2 fun x hx hresponse => ?_
  have hword := List.filterMap_eq_nil_iff.1 h x hx
  cases x with
  | response w => cases hword
  | request _ _ | delay _ _ _ | text _ => cases hresponse

/-- From `s` to `t` a bulk command has written `value x` to each address `x` from the index of `s` up to that of `t` (R220,
R222): the caches are those after a WriteByte at the last address, and a command can run again. -/
structure BulkWrites (value : Nat → Byte) (s t : State) (events : List Event) : Prop where
  state : t = { s with
    ca := t.ca, cav := true, dir := .output, dirv := true, oe := true, oev := true, wv := t.wv, em := t.em, pcnt := t.pcnt
    bi := t.bi, issued := true, inbox := t.inbox, trace := s.trace ++ events, env := t.env }
  silent : Silent events
  operational : t.Operational
  latched : t.ca.toNat + 1 = t.bi.toNat
  rises : s.bi.toNat < t.bi.toNat
  bytes : ∀ x, t.env.byteAt x = if s.bi.toNat ≤ x ∧ x < t.bi.toNat then value x else s.env.byteAt x

namespace BulkWrites

variable {value : Nat → Byte} {s t u : State} {xs ys : List Event}

theorem trans (h : BulkWrites value s t xs) (h' : BulkWrites value t u ys) : BulkWrites value s u (xs ++ ys) where
  state := by
    refine h'.state.trans ?_
    rw [h.state]
    simp
  silent := h.silent.append h'.silent
  operational := h'.operational
  latched := h'.latched
  rises := h.rises.trans h'.rises
  bytes x := by
    have hst := h.rises
    have htu := h'.rises
    rw [h'.bytes]
    by_cases hx : t.bi.toNat ≤ x ∧ x < u.bi.toNat
    · rw [if_pos hx, if_pos (by omega)]
    · have hrange : (s.bi.toNat ≤ x ∧ x < t.bi.toNat) ↔ (s.bi.toNat ≤ x ∧ x < u.bi.toNat) := by omega
      simp only [if_neg hx, h.bytes, hrange]

theorem cfg_eq (h : BulkWrites value s t xs) : t.cfg = s.cfg := by rw [h.state]

theorem payload_eq (h : BulkWrites value s t xs) : t.payload = s.payload := by rw [h.state]

/-- After one WriteByte of a bulk command the next one has 17 requests before its first polling read. -/
theorem writeCost_next (h : BulkWrites value s t xs) (hbi : t.bi.toNat < 65536) :
    writeCost t (bulkAddress t.bi) = 17 := by
  have hne : t.ca ≠ bulkAddress t.bi := fun heq => by
    have hlatched := h.latched
    rw [heq, bulkAddress_toNat hbi] at hlatched
    omega
  have hdir : t.dir = .output := by rw [h.state]
  have hdirv : t.dirv = true := by rw [h.state]
  have hoe : t.oe = true := by rw [h.state]
  simp [writeCost, addressCost, modeCost, outputEnableCost, hne, hdir, hdirv, hoe]

end BulkWrites

/-- The loop of `kind` writes `value x` at index `x`, in every state with the configuration and the payload of `s` (R220,
R222). -/
def WritesValues (kind : BulkKind) (value : Nat → Byte) (s : State) : Prop :=
  ∀ t : State, t.cfg = s.cfg → t.payload = s.payload →
    iterationOps kind t = writeByteOps t.cfg (bulkAddress t.bi) (value t.bi.toNat)

theorem writesValues_block (s : State) : WritesValues .block (payloadByte s.payload) s := fun t _ hpayload => by
  rw [iterationOps, hpayload]

theorem writesValues_clear (s : State) : WritesValues .clear (fun _ => s.cfg.erasedValue) s := fun t hcfg _ => by
  rw [iterationOps, hcfg]

section Writes

variable {kind : BulkKind} {value : Nat → Byte} {s : State} {n misses : Nat} {rest : List Input}

/-- One iteration, every request acknowledged, the write cycle completing after `misses` polling reads. -/
theorem reaches_bulkWrite (k : List MicroOp) (hv : WritesValues kind value s) (h : s.Operational) (hbi : s.bi.toNat < n)
    (hn : n ≤ s.cfg.capacity) (hlim : ∀ l, s.cfg.pollLimit = some l → misses < l)
    (hi : s.inbox = writeInputs (writeCost s (bulkAddress s.bi)) misses ++ rest) :
    ∃ t events, Reaches (resume (.loop kind n :: k) s) (resume (.loop kind n :: k) t) ∧ BulkWrites value s t events ∧
      t.bi.toNat = s.bi.toNat + 1 ∧ t.inbox = rest := by
  have hbound : s.bi.toNat < 65536 := by have := (capacity_bounds h.config).2; omega
  have haddr := bulkAddress_toNat hbound
  have hnext := succ_index_toNat hbound
  obtain ⟨e, hrun, hdata, hoe, hothers, hlatch, hmem, hbusy, -⟩ := reaches_writeByte (v := value s.bi.toNat)
    (.nextIndex :: .loop kind n :: k) h (by omega) hi hlim
  rw [resume_loop_write k s hbi (hv s rfl rfl)]
  refine ⟨_, _, hrun, ⟨rfl, ?_, ?_, ?_, ?_, fun x => ?_⟩, hnext, rfl⟩
  · exact .append (.append (.append (.append (addressEvents_silent ..) (outputEnableEvents_silent ..))
      (modeEvents_silent ..)) (driveEvents_silent ..)) (pollEvents_silent ..)
  · exact h.after rfl rfl rfl rfl rfl (fun i => congrArg PinState.mode (hdata i)) hoe hothers hlatch hbusy
  · exact (congrArg (· + 1) haddr).trans hnext.symm
  · exact (Nat.lt_succ_self _).trans_eq hnext.symm
  · have hbyte : e.byteAt x = (s.env.writeByteAt s.bi.toNat (value s.bi.toNat)).byteAt x := by
      rw [haddr] at hmem
      exact congrArg (Memory.read · x) hmem
    refine hbyte.trans ?_
    by_cases hx : x = s.bi.toNat
    · rw [hx, Env.byteAt_writeByteAt_same, if_pos ⟨le_rfl, hnext ▸ Nat.lt_succ_self _⟩]
    · rw [Env.byteAt_writeByteAt_ne _ _ hx, if_neg]
      rintro ⟨hle, hlt⟩
      have hlt' : x < (s.bi + 1).toNat := hlt
      omega

/-- The rest of the loop, one entry of `later` for each iteration after the next one. -/
theorem reaches_bulkWrites (k : List MicroOp) (later : List Nat) (hv : WritesValues kind value s) (h : s.Operational)
    (hcount : s.bi.toNat + later.length + 1 = n) (hn : n ≤ s.cfg.capacity)
    (hlim : ∀ m ∈ misses :: later, ∀ l, s.cfg.pollLimit = some l → m < l)
    (hi : s.inbox = writeInputs (writeCost s (bulkAddress s.bi)) misses ++ later.flatMap (writeInputs 17) ++ rest) :
    ∃ t events, Reaches (resume (.loop kind n :: k) s) (resume (.loop kind n :: k) t) ∧ BulkWrites value s t events ∧
      t.bi.toNat = n ∧ t.inbox = rest := by
  have hcap := (capacity_bounds h.config).2
  rw [List.append_assoc] at hi
  induction later generalizing s misses with
  | nil =>
    obtain ⟨t, events, hreach, hwrote, hbi, hin⟩ :=
      reaches_bulkWrite k hv h (by omega) hn (hlim _ (List.mem_cons_self ..)) hi
    exact ⟨t, events, hreach, hwrote, hbi.trans hcount, hin⟩
  | cons m later ih =>
    rw [List.length_cons] at hcount
    obtain ⟨t, xs, hreach, hwrote, hbi, hin⟩ :=
      reaches_bulkWrite k hv h (by omega) hn (hlim _ (List.mem_cons_self ..)) hi
    have hcfg := hwrote.cfg_eq
    have hpayload := hwrote.payload_eq
    have hin' : t.inbox =
        writeInputs (writeCost t (bulkAddress t.bi)) m ++ (later.flatMap (writeInputs 17) ++ rest) := by
      rw [hin, hwrote.writeCost_next (by omega), List.flatMap_cons, List.append_assoc]
    obtain ⟨u, ys, hreach', hwrote', hbi', hrest⟩ := ih (fun r hr hp => hv r (hr.trans hcfg) (hp.trans hpayload))
      hwrote.operational (by omega) (by rwa [hcfg]) (by rw [hcfg]; exact fun m hm => hlim m (List.mem_cons_of_mem _ hm))
      hin' (by rwa [hcfg])
    exact ⟨u, xs ++ ys, hreach.trans hreach', hwrote.trans hwrote', hbi', hrest⟩

/-- A bulk command of at least one WriteByte, from its first micro-step to its response. -/
theorem reaches_bulkWrites_answer {misses : List Nat} (hv : WritesValues kind value s) (h : s.Operational)
    (hpos : 1 ≤ n) (hlen : misses.length = n) (hn : n ≤ s.cfg.capacity)
    (hlim : ∀ m ∈ misses, ∀ l, s.cfg.pollLimit = some l → m < l)
    (hi : s.inbox = bulkWriteInputs s misses ++ rest) (ht : SequencerTurn rest) :
    ∃ u events, Reaches (resume (bulkOps kind n ++ [.respond .ok]) s) u ∧
      u = ({ s with
        ca := BitVec.ofNat 16 (n - 1), cav := true, dir := .output, dirv := true, oe := true, oev := true
        wv := u.wv, em := u.em, pcnt := u.pcnt, bi := u.bi, inbox := rest, env := u.env }.answered events 0x00000100#32) ∧
      events.filter Event.isResponse = [] ∧ u.Operational ∧
      ∀ x, u.env.byteAt x = if x < n then value x else s.env.byteAt x := by
  cases misses with
  | nil => exact absurd hpos (by simp [← hlen])
  | cons m later =>
    obtain ⟨t, events, hreach, hwrote, hbi, hin⟩ := reaches_bulkWrites (s := { s with bi := 0 }) (n := n)
      [.respond .ok] later hv (h.off_caches ..) ((congrArg (· + 1) (Nat.zero_add _)).trans hlen) hn hlim hi
    have hdone := resume_loop_respond (kind := kind) (n := n) t .ok (by omega)
    have hca : t.ca = BitVec.ofNat 16 (n - 1) := by
      have hlatched := hwrote.latched
      exact BitVec.eq_of_toNat_eq (by rw [BitVec.toNat_ofNat]; omega)
    have hword : responseWord .ok true 0 = 0x00000100#32 := rfl
    have hstate := hwrote.state
    rw [hca, hin] at hstate
    refine ⟨t.deliver .ok 0, events, hreach.trans (hdone ▸ reaches_respond (hin ▸ ht)), ?_,
      hwrote.silent.filter_isResponse, hwrote.operational.off_caches .., fun x => (hwrote.bytes x).trans ?_⟩
    · rw [← hword]
      exact congrArg (State.deliver · .ok 0) hstate
    · simp [hbi]

end Writes

/-- Settles O36: `reaches_bulkWrites_answer` with the one value ERASED_VALUE. -/
theorem clearErases : Obligations.ClearErases := by
  intro s c misses rest h hpos hlen hlim hi ht
  have hcap := capacity_bounds h.config
  obtain ⟨u, events, hreach, hstate, hsilent, hop, hbytes⟩ := reaches_bulkWrites_answer
    (writesValues_clear { s with issued := false, current := .command (.clear c) }) (h.accepted (.clear c)) (by omega) hlen
    (Nat.min_le_right ..) hlim hi ht
  exact ⟨_, u, events, accept_runs (.inl h.ready) rfl, hreach, hstate, hsilent, hop,
    fun x hx => (hbytes x).trans (if_pos hx), fun x hx => (hbytes x).trans (if_neg (Nat.not_lt.2 hx))⟩

/-! The payload of WRITE_BLOCK. -/

theorem malformedPayload_byte (b : Byte) : malformedPayload (0#24 ++ b) = false := by
  revert b; decide

/-- The bytes of well-formed payload words (R95). -/
theorem payloadByte_map {data : List Byte} {x : Nat} (h : x < data.length) :
    payloadByte (data.map fun b => 0#24 ++ b) x = data[x] := by
  have hlow : ∀ b : Byte, (0#24 ++ b).extractLsb' 0 8 = b := by decide
  simp only [payloadByte, List.getD_eq_getElem?_getD, List.getElem?_map, List.getElem?_eq_getElem h]
  exact hlow _

/-- The state at the loop of a WRITE_BLOCK: its payload words are taken, `ws` is what the port holds after them (R254). -/
def State.blockTaken (s : State) (n : Count) (words ws : List Word) : State :=
  { s with
    port := ws, cp := s.cp + words.length, current := .command (.writeBlock n), payload := words, issued := false
    ms := [] }

/-- From the acceptance of a WRITE_BLOCK over its payload words to its loop (R95, R220, R254). -/
theorem exec_writeBlock_runs {s : State} {n : Count} {words ws : List Word} (hl : s.lc = .ready)
    (hlen : words.length = n.toNat) (hpos : 1 ≤ words.length) (hcap : words.length ≤ s.cfg.capacity)
    (hgood : ∀ x ∈ words, malformedPayload x = false) (hp : s.port = words ++ ws) (ht : SequencerTurn s.inbox) :
    ∃ t, exec (.writeBlock n) s = .next t ∧
      Reaches t (resume (bulkOps .block words.length ++ [.respond .ok]) (s.blockTaken n words ws)) := by
  have htake := reaches_last_payload (ws := words) (rest := ws)
    (s := { s with current := .command (.writeBlock n), payload := [], ms := [.takePayload n.toNat] })
    (List.ne_nil_of_length_pos hpos) (by rw [hlen]) ht hp
  exact ⟨_, congrArg Host.Outcome.next (if_neg (by omega)),
    htake.trans (.of_eq (beginWriteBlock_runs hl rfl hgood hcap))⟩

theorem SequencerTurn.bulkWriteInputs {s : State} {misses : List Nat} (h : misses ≠ []) (rest : List Input) :
    SequencerTurn (bulkWriteInputs s misses ++ rest) := by
  obtain ⟨m, later, rfl⟩ := List.exists_cons_of_ne_nil h
  simp only [Machine.bulkWriteInputs, writeInputs, List.append_assoc]
  exact .of_acks (by simp [writeCost]) _

/-- Settles O34: the payload words are taken (`exec_writeBlock_runs`), then `reaches_bulkWrites_answer` with their bytes. -/
theorem writeBlockStoresTheBlock : Obligations.WriteBlockStoresTheBlock := by
  intro s n data ws misses rest h hlen hpos hcap hmisses hlim hp hi ht
  have hwords : (data.map fun b => (0#24 ++ b : Word)).length = data.length := List.length_map ..
  have hgood : ∀ x ∈ data.map fun b => (0#24 ++ b : Word), malformedPayload x = false :=
    List.forall_mem_map.2 fun b _ => malformedPayload_byte b
  have hturn : SequencerTurn s.inbox := hi ▸ .bulkWriteInputs (List.ne_nil_of_length_pos (by omega)) rest
  obtain ⟨t, hexec, htake⟩ := exec_writeBlock_runs h.ready (hwords.trans hlen) (by omega) (by omega) hgood hp hturn
  obtain ⟨u, events, hreach, hstate, hsilent, hop, hbytes⟩ := reaches_bulkWrites_answer
    (writesValues_block (s.blockTaken n (data.map fun b => 0#24 ++ b) ws)) (h.off_caches ..) hpos hmisses hcap hlim hi ht
  rw [State.blockTaken, hwords] at htake hreach hstate
  refine ⟨t, u, events, hexec, htake.trans hreach, hstate, hsilent, hop, fun x hx => ?_,
    fun x hx => (hbytes x).trans (if_neg (Nat.not_lt.2 hx))⟩
  exact (hbytes x).trans ((if_pos hx).trans (payloadByte_map hx))

end Sys2Proof.Machine
end

section
/-! PROOF. DUMP and the layout of its lines (45_bulk.md R223, R224). -/

namespace Sys2Proof.Machine

@[simp] theorem length_hex (x k : Nat) : (hex x k).length = k := by
  simp [hex]

/-- A byte of a dump line takes three characters, and byte 8 one more (R224). -/
theorem length_dumpToken (row : List Byte) (j : Nat) : (dumpToken row j).length = 3 + if j = 8 then 1 else 0 := by
  unfold dumpToken
  split <;> simp

theorem length_dumpLine (cfg : Params) (base : Nat) (row : List Byte) :
    (dumpLine cfg base row).length = dumpWidth cfg + 52 := by
  have htokens : ((List.range 16).map fun j => (dumpToken row j).length).sum = 49 := by
    simp only [length_dumpToken]
    decide
  simp [dumpLine, List.length_flatMap, htokens]

theorem hexLength_le_three {n : Nat} (h : n < 4096) : hexLength n ≤ 3 := by
  unfold hexLength
  split
  · decide
  · rename_i hn
    have hlog : n.log2 < 12 := (Nat.log2_lt hn).2 h
    omega

/-- Settles O38: the length by `length_dumpLine`, the width by `hexLength_le_three`, the digits over all 256 bytes. -/
theorem dumpLineLayout : Obligations.DumpLineLayout := by
  refine ⟨length_dumpLine, fun cfg _ hcap => ?_, ?_, by decide, by decide⟩
  · exact max_eq_left (hexLength_le_three (by omega))
  · decide

/-! The rows of DUMP. -/

/-- The text line of an event, if it is one. -/
def Event.line? : Event → Option (List Char)
  | .text l => some l
  | .request _ _ | .delay _ _ _ | .response _ => none

theorem State.text_eq (s : State) : s.text = s.trace.filterMap Event.line? := by
  refine congrArg (List.filterMap · s.trace) (funext fun x => ?_)
  cases x <;> rfl

theorem length_requests_outputEnableEvents (s : State) (b : Bool) :
    ((outputEnableEvents s b).filter Event.isRequest).length = outputEnableCost s b := by
  unfold outputEnableEvents outputEnableCost
  split <;> rfl

theorem length_requests_sampleEvents (cfg : Params) (v : Byte) :
    ((sampleEvents cfg v).filter Event.isRequest).length = 8 := by
  rw [List.filter_eq_self.2]
  · simp [sampleEvents]
  · intro x hx
    obtain ⟨i, -, rfl⟩ := List.mem_map.1 hx
    rfl

/-- From `s` to `t` a DUMP has read bytes of the device and emitted `lines`, with `requests` requests (R223). -/
structure DumpRuns (s t : State) (events : List Event) (requests : Nat) (lines : List (List Char)) : Prop where
  state : t = { s with
    ca := t.ca, cav := true, dir := .input, dirv := true, oe := true, oev := true, ra := t.ra, bi := t.bi, row := t.row
    issued := true, inbox := t.inbox, trace := s.trace ++ events, env := t.env }
  silent : Silent events
  requests : (events.filter Event.isRequest).length = requests
  text : events.filterMap Event.line? = lines
  operational : t.Operational
  device : s.env.SameDevice t.env

namespace DumpRuns

variable {s t u : State} {xs ys : List Event} {m n : Nat} {ls ls' : List (List Char)}

theorem trans (h : DumpRuns s t xs m ls) (h' : DumpRuns t u ys n ls') :
    DumpRuns s u (xs ++ ys) (m + n) (ls ++ ls') where
  state := by
    refine h'.state.trans ?_
    rw [h.state]
    simp
  silent := h.silent.append h'.silent
  requests := by rw [List.filter_append, List.length_append, h.requests, h'.requests]
  text := by rw [List.filterMap_append, h.text, h'.text]
  operational := h'.operational
  device := h.device.trans h'.device

theorem cfg_eq (h : DumpRuns s t xs n ls) : t.cfg = s.cfg := by rw [h.state]

theorem trace_eq (h : DumpRuns s t xs n ls) : t.trace = s.trace ++ xs := by rw [h.state]

/-- After one ReadByte of a dump only the address changes, so a read at another address has 12 requests. -/
theorem readCost_next (h : DumpRuns s t xs n ls) {a : Address} (hne : t.ca ≠ a) : readCost t a = 12 := by
  have hdir : t.dir = .input := by rw [h.state]
  have hdirv : t.dirv = true := by rw [h.state]
  have hoe : t.oe = true := by rw [h.state]
  have hoev : t.oev = true := by rw [h.state]
  simp [readCost, addressCost, modeCost, outputEnableCost, hne, hdir, hdirv, hoe, hoev]

/-- The end of a row: its line is emitted and the index moves on (R223). -/
theorem emitLine (h : DumpRuns s t xs n ls) (l : List Char) (bi : BulkIndex) :
    DumpRuns s { t with trace := t.trace ++ [.text l], bi := bi } (xs ++ [.text l]) n (ls ++ [l]) where
  state := by
    rw [h.state]
    simp
  silent := h.silent.append (show Silent [.text l] from rfl)
  requests := by
    rw [List.filter_append, List.length_append, h.requests]
    rfl
  text := by
    rw [List.filterMap_append, h.text]
    rfl
  operational := h.operational.off_caches ..
  device := h.device

/-- What the row held before does not matter. -/
theorem of_clearRow (h : DumpRuns { s with row := [] } t xs n ls) : DumpRuns s t xs n ls :=
  ⟨h.state, h.silent, h.requests, h.text, h.operational, h.device⟩

end DumpRuns

/-- A ReadByte emits no text line (R180). -/
theorem text_readEvents (s : State) (a : Address) (v : Byte) :
    (addressEvents s a ++ modeEvents s .input ++ outputEnableEvents s true ++ sampleEvents s.cfg v).filterMap
      Event.line? = [] := by
  have haddress : (addressEvents s a).filterMap Event.line? = [] := by
    unfold addressEvents optionalDelayEvent
    split_ifs <;> rfl
  have hmode : (modeEvents s .input).filterMap Event.line? = [] := by
    unfold modeEvents
    split <;> rfl
  have henable : (outputEnableEvents s true).filterMap Event.line? = [] := by
    unfold outputEnableEvents
    split <;> rfl
  have hsample : (sampleEvents s.cfg v).filterMap Event.line? = [] := rfl
  simp only [List.filterMap_append, haddress, hmode, henable, hsample, List.append_nil]

section Reads

variable {s : State} {rest : List Input}

/-- One ReadByte of a dump row, its byte stored (R223). -/
theorem reaches_readStore {a : Address} (k : List MicroOp) (h : s.Operational) (ha : a.toNat < s.cfg.capacity)
    (hi : s.inbox = acks (readCost s a) ++ rest) (ht : SequencerTurn rest) :
    ∃ t events, Reaches (resume (readByteOps a ++ .storeRow :: k) s) (resume k t) ∧
      DumpRuns s t events (readCost s a) [] ∧ t.ca = a ∧ t.bi = s.bi ∧ t.row = s.row ++ [s.env.byteAt a.toNat] ∧
      t.inbox = rest := by
  obtain ⟨e, hrun, hdata, hoe, hothers, hlatch, hmem, hbusy, hsuspect⟩ := reaches_readByte (.storeRow :: k) h ha hi ht
  have hoe' : e.pin .oe = ⟨some .output, some .low⟩ := by simp [hoe, h.quiescent.outputEnableDriven]
  refine ⟨_, _, hrun, ⟨rfl, ?_, ?_, ?_, ?_, .of_eq hmem hbusy hsuspect⟩, rfl, rfl, rfl, rfl⟩
  · exact .append (.append (.append (addressEvents_silent ..) (modeEvents_silent ..)) (outputEnableEvents_silent ..))
      (sampleEvents_silent ..)
  · simp only [List.filter_append, List.length_append, length_requests_addressEvents, length_requests_modeEvents,
      length_requests_outputEnableEvents, length_requests_sampleEvents, readCost]
  · exact text_readEvents ..
  · exact h.after rfl rfl rfl rfl rfl (fun i => congrArg PinState.mode (hdata i)) hoe' hothers hlatch
      (hbusy.trans h.quiescent.notBusy)

theorem rowAddress_toNat {bi : BulkIndex} {j : Nat} (h : 16 * bi.toNat + j < 65536) :
    (rowAddress bi j).toNat = 16 * bi.toNat + j := by
  rw [rowAddress, BitVec.toNat_ofNat, Nat.mod_eq_of_lt h]

/-- `m + 1` bytes of the dump row at `bi` from byte `j` on, each stored (R223). -/
theorem reaches_rowBytes (k : List MicroOp) (bi : BulkIndex) (j m : Nat) (h : s.Operational)
    (hrange : 16 * bi.toNat + j + m < s.cfg.capacity)
    (hi : s.inbox = acks (readCost s (rowAddress bi j) + 12 * m) ++ rest) (ht : SequencerTurn rest) :
    ∃ t events,
      Reaches (resume ((List.range' j (m + 1)).flatMap (fun j => readByteOps (rowAddress bi j) ++ [.storeRow]) ++ k) s)
        (resume k t) ∧
      DumpRuns s t events (readCost s (rowAddress bi j) + 12 * m) [] ∧ t.ca = rowAddress bi (j + m) ∧ t.bi = s.bi ∧
      t.row = s.row ++ (List.range' j (m + 1)).map (fun j => s.env.byteAt (16 * bi.toNat + j)) ∧ t.inbox = rest := by
  have hcap := (capacity_bounds h.config).2
  have haddr : (rowAddress bi j).toNat = 16 * bi.toNat + j := rowAddress_toNat (by omega)
  rw [acks_add] at hi
  induction m generalizing s j with
  | zero =>
    obtain ⟨t, events, hreach, hruns, hca, hbi, hrow, hin⟩ :=
      reaches_readStore (a := rowAddress bi j) k h (by omega) hi ht
    exact ⟨t, events, hreach, hruns, hca, hbi, by simpa [haddr] using hrow, hin⟩
  | succ m ih =>
    obtain ⟨t, xs, hreach, hruns, hca, hbi, hrow, hin⟩ := reaches_readStore (a := rowAddress bi j)
      ((List.range' (j + 1) (m + 1)).flatMap (fun j => readByteOps (rowAddress bi j) ++ [.storeRow]) ++ k)
      h (by omega) hi (.acks_append _ ht)
    have haddr' : (rowAddress bi (j + 1)).toNat = 16 * bi.toNat + (j + 1) := rowAddress_toNat (by omega)
    have hcost : readCost t (rowAddress bi (j + 1)) = 12 := hruns.readCost_next fun heq => by
      rw [hca] at heq
      rw [heq] at haddr
      omega
    have hin' : t.inbox = acks (readCost t (rowAddress bi (j + 1))) ++ (acks (12 * m) ++ rest) := by
      rw [hin, hcost, ← acks_add, Nat.mul_succ, Nat.add_comm]
    have hcfg := hruns.cfg_eq
    obtain ⟨u, ys, hreach', hruns', hca', hbi', hrow', hrest⟩ := ih (s := t) (j + 1) hruns.operational
      (by rw [hcfg]; omega) hin' (by rwa [hcfg]) haddr'
    refine ⟨u, xs ++ ys, ?_, ?_, ?_, hbi'.trans hbi, ?_, hrest⟩
    · rw [List.range'_succ, List.flatMap_cons, List.append_assoc, List.append_assoc]
      exact hreach.trans hreach'
    · have hcount : readCost t (rowAddress bi (j + 1)) + 12 * m = 12 * (m + 1) := by omega
      exact hcount ▸ hruns.trans hruns'
    · rw [hca', Nat.add_assoc, Nat.add_comm 1]
    · rw [hrow', hrow, haddr, List.range'_succ (s := j)]
      simp [hruns.device.bytes]

/-- The line of dump row `r` (R223, R224). -/
def Env.dumpRow (cfg : Params) (e : Env) (r : Nat) : List Char :=
  dumpLine cfg (16 * r) ((List.range 16).map fun j => e.byteAt (16 * r + j))

theorem Env.SameDevice.dumpRow {cfg : Params} {e e' : Env} (h : e.SameDevice e') : e'.dumpRow cfg = e.dumpRow cfg := by
  funext r
  simp only [Env.dumpRow, h.bytes]

/-- One iteration of DUMP: 16 reads, then the line (R223). -/
theorem reaches_dumpRow {n : Nat} (k : List MicroOp) (h : s.Operational) (hbi : s.bi.toNat < n)
    (hn : 16 * n ≤ s.cfg.capacity) (hi : s.inbox = acks (readCost s (rowAddress s.bi 0) + 12 * 15) ++ rest)
    (ht : SequencerTurn rest) :
    ∃ t events, Reaches (resume (.loop .dump n :: k) s) (resume (.loop .dump n :: k) t) ∧
      DumpRuns s t events (readCost s (rowAddress s.bi 0) + 12 * 15) [s.env.dumpRow s.cfg s.bi.toNat] ∧
      t.bi.toNat = s.bi.toNat + 1 ∧ t.ca.toNat + 1 = 16 * t.bi.toNat ∧ t.inbox = rest := by
  have hcap := (capacity_bounds h.config).2
  obtain ⟨t, events, hreach, hruns, hca, hbi', hrow, hin⟩ := reaches_rowBytes (s := { s with row := [] })
    (.emitLine :: .nextIndex :: .loop .dump n :: k) s.bi 0 15 (h.off_caches ..) (hn.trans_lt' (by omega)) hi ht
  rw [resume_loop_dump k s hbi]
  simp only [dumpRowOps, List.cons_append, List.append_assoc, List.nil_append, resume_clearRow, List.range_eq_range']
  rw [resume_emitLine, resume_nextIndex] at hreach
  have hnext : (t.bi + 1).toNat = s.bi.toNat + 1 := hbi' ▸ succ_index_toNat (bi := s.bi) (by omega)
  have haddr : (rowAddress s.bi 15).toNat = 16 * s.bi.toNat + 15 := rowAddress_toNat (by omega)
  have hline : dumpLine t.cfg (16 * t.bi.toNat) t.row = s.env.dumpRow s.cfg s.bi.toNat := by
    rw [hruns.cfg_eq, hbi', hrow]
    rfl
  rw [hline] at hreach
  refine ⟨_, _, hreach, (hruns.emitLine _ _).of_clearRow, hnext, ?_, hin⟩
  change t.ca.toNat + 1 = 16 * (t.bi + 1).toNat
  rw [hnext, hca, haddr]
  omega

/-- The rest of the loop of DUMP: `m + 1` rows, each read of which but the first has 12 requests (R223). -/
theorem reaches_dumpRows {n : Nat} (k : List MicroOp) (m : Nat) (h : s.Operational) (hcount : s.bi.toNat + m + 1 = n)
    (hn : 16 * n ≤ s.cfg.capacity)
    (hi : s.inbox = acks (readCost s (rowAddress s.bi 0) + 12 * 15 + 12 * 16 * m) ++ rest) (ht : SequencerTurn rest) :
    ∃ t events, Reaches (resume (.loop .dump n :: k) s) (resume (.loop .dump n :: k) t) ∧
      DumpRuns s t events (readCost s (rowAddress s.bi 0) + 12 * 15 + 12 * 16 * m)
        ((List.range' s.bi.toNat (m + 1)).map (s.env.dumpRow s.cfg)) ∧
      t.bi.toNat = n ∧ t.ca.toNat + 1 = 16 * t.bi.toNat ∧ t.inbox = rest := by
  have hcap := (capacity_bounds h.config).2
  rw [acks_add] at hi
  induction m generalizing s with
  | zero =>
    obtain ⟨t, events, hreach, hruns, hbi, hca, hin⟩ := reaches_dumpRow k h (by omega) hn hi ht
    exact ⟨t, events, hreach, hruns, hbi.trans hcount, hca, hin⟩
  | succ m ih =>
    obtain ⟨t, xs, hreach, hruns, hbi, hca, hin⟩ := reaches_dumpRow k h (by omega) hn hi (.acks_append _ ht)
    have hcost : readCost t (rowAddress t.bi 0) = 12 := hruns.readCost_next fun heq => by
      rw [heq, rowAddress_toNat (by omega)] at hca
      omega
    have hin' : t.inbox = acks (readCost t (rowAddress t.bi 0) + 12 * 15) ++ (acks (12 * 16 * m) ++ rest) := by
      rw [hin, hcost, ← acks_add, Nat.mul_succ, Nat.add_comm]
    have hcfg := hruns.cfg_eq
    obtain ⟨u, ys, hreach', hruns', hbi', hca', hrest⟩ := ih (s := t) hruns.operational (by omega) (by rwa [hcfg])
      hin' (by rwa [hcfg])
    have htotal : readCost t (rowAddress t.bi 0) + 12 * 15 + 12 * 16 * m = 12 * 16 * (m + 1) := by omega
    rw [htotal, hcfg, hbi, hruns.device.dumpRow] at hruns'
    exact ⟨u, xs ++ ys, hreach.trans hreach', hruns.trans hruns', hbi', hca', hrest⟩

end Reads

/-- A delivered response word adds nothing to the text port (R33). -/
theorem State.text_deliver {s t : State} {events : List Event} (h : t.trace = s.trace ++ events) (st : Status) (v : Byte) :
    (t.deliver st v).text = s.text ++ events.filterMap Event.line? := by
  simp [State.text_eq, h, Event.line?]

/-- Settles O37: `reaches_dumpRows`, then the response. -/
theorem dumpReportsTheBytes : Obligations.DumpReportsTheBytes := by
  intro s l lines rest h hlines hi ht
  have hcap := (capacity_bounds h.config).1
  have hn : 16 * lines ≤ s.cfg.capacity := by omega
  obtain ⟨m, rfl⟩ : ∃ m, lines = m + 1 := ⟨lines - 1, by omega⟩
  have hcost : dumpCost s (m + 1) = readCost s 0 + 12 * 15 + 12 * 16 * m := by rw [dumpCost]; omega
  have hword : responseWord .ok true 0 = 0x00000100#32 := rfl
  rw [hcost] at hi ⊢
  rw [← hword]
  obtain ⟨t, events, hreach, hruns, hbi, hca, hin⟩ := reaches_dumpRows (n := m + 1)
    (s := { s with issued := false, current := .command (.dump l), bi := 0 }) [.respond .ok] m (h.off_caches ..)
    (Nat.succ_inj.2 (Nat.zero_add m)) hn hi ht
  have hdone := resume_loop_respond (kind := .dump) (n := m + 1) t .ok (by omega)
  have hca : t.ca = BitVec.ofNat 16 (16 * (m + 1) - 1) := BitVec.eq_of_toNat_eq (by rw [BitVec.toNat_ofNat]; omega)
  have hstate := hruns.state
  rw [hca, hin] at hstate
  refine ⟨_, t.deliver .ok 0, events, accept_runs (.inl h.ready) rfl, ?_, congrArg (State.deliver · .ok 0) hstate,
    hruns.silent.filter_isResponse, hruns.requests, ?_, hruns.operational.off_caches .., hruns.device⟩
  · rw [clampLines, ← hlines]
    exact hreach.trans (hdone ▸ reaches_respond (hin ▸ ht))
  · rw [State.text_deliver hruns.trace_eq, hruns.text, List.range_eq_range' (n := m + 1)]
    rfl

end Sys2Proof.Machine
end

section
/-! PROOF. The lifecycle (46_lifecycle.md): the gate of the one-word commands rests on what the head of a procedure can be
(`respond_mem_of_resume_head`), SETUP runs by `reaches_setup`, and with a request that answers `error` it is cut short
(`reaches_setup_failed`). -/

namespace Sys2Proof.Machine

/-- Settles O9: the laws of a step at a command word, at a payload word and at a request. -/
theorem stepRunsTheDecodedInstruction : Obligations.StepRunsTheDecodedInstruction := by
  refine ⟨fun s w ws i hm hi hp hd => step_command hm hi hp hd, fun s w ws n k i hm hi hp hd => ?_,
    fun s op k r hm hi hr => ?_⟩
  · obtain ⟨b, rfl⟩ := decodePayload_payload hd
    have hword : encode (.payload b) = w := (spells_of_decodePayload hd).word
    rw [step_payload hm hi hp, ← hword]
    rfl
  · rw [step_at_request hm hr hi, exec_request]

/-! The gate of the one-word commands (R253, R254). -/

section Gate

variable {i : Instr} {s : State} {st : Status} {ops : List MicroOp}

/-- Carrying silent micro-steps out comes to a response other than a WriteTimeout's only where the procedure has it. -/
theorem respond_mem_of_settle_head (hst : st ≠ .writeTimeout) (h : (settle ops s).ms.head? = some (.respond st)) :
    .respond st ∈ ops := by
  induction ops generalizing s with
  | nil => cases h
  | cons op k ih =>
    have tail : ∀ {t}, (settle k t).ms.head? = some (.respond st) → .respond st ∈ op :: k := fun h =>
      List.mem_cons_of_mem _ (ih h)
    cases op with
    | respond st' =>
      obtain rfl : st' = st := MicroOp.respond.inj (Option.some.inj h)
      exact List.mem_cons_self
    | raiseTimeout => exact absurd (MicroOp.respond.inj (Option.some.inj h)).symm hst
    | setAddress _ | setMode _ | setOutputEnabled _ =>
      simp only [settle] at h
      split at h
      · exact tail h
      · cases h
    | request _ | sample _ | pollRead | restoreBit7 | delay _ _ | respondByte | takePayload _ | loop _ _ | setup
    | driveBit _ => cases h
    | _ => exact tail h

/-- No iteration of a bulk loop answers the command. -/
theorem respond_not_mem_iterationOps (kind : BulkKind) (s : State) (st : Status) : .respond st ∉ iterationOps kind s := by
  cases kind <;>
    simp [iterationOps, writeByteOps, pollOps, dumpRowOps, readByteOps, optionalDelay, setPinModeOp, digitalWriteOp]

/-- Going on with a procedure comes to a response other than a WriteTimeout's only where the procedure has it. -/
theorem respond_mem_of_resume_head (hst : st ≠ .writeTimeout) (h : (resume ops s).ms.head? = some (.respond st)) :
    .respond st ∈ ops := by
  unfold resume enterLoop at h
  split at h
  · rename_i kind n k hm
    have after : .respond st ∈ k → .respond st ∈ ops := fun hk =>
      (settle_loop ops s hm).mem (List.mem_cons_of_mem _ hk)
    split at h
    · have hmem := respond_mem_of_settle_head hst h
      simp only [List.mem_append, respond_not_mem_iterationOps, List.mem_cons, reduceCtorEq, false_or] at hmem
      exact after hmem
    · exact after (respond_mem_of_settle_head hst h)
  · exact respond_mem_of_settle_head hst h

/-- Every one-word command is a procedure behind the gate whose only response is OK (R254). -/
theorem exec_oneWord (hs : i.stream = .command) (hr : i.isReserved = false) (hw : ∀ n, i ≠ .writeBlock n) (s : State) :
    ∃ ops, exec i s = accept i s (resume ops) ∧ ∀ st, .respond st ∈ ops → st = .ok := by
  cases i with
  | setup | setAddr _ | setMode _ | setOe _ | delayNs _ | delayUs _ | delayMs _ | close => exact ⟨_, rfl, by simp⟩
  | read _ => exact ⟨_, rfl, by simp [readByteOps]⟩
  | write _ _ => exact ⟨_, rfl, by simp [writeByteOps, pollOps, optionalDelay, setPinModeOp, digitalWriteOp]⟩
  | clear _ | dump _ => exact ⟨_, rfl, by simp [bulkOps]⟩
  | writeBlock n => exact absurd rfl (hw n)
  | reserved0 _ | reservedE _ | reservedF _ => cases hr
  | payload _ | setPinMode _ _ | digitalWrite _ _ | digitalRead _ | shiftOut _ _ _ _ => cases hs

/-- The commands that run before Setup, by name (R253). -/
theorem runsUnconfigured_iff : runsUnconfigured i = true ↔
    (i = .setup ∨ i = .close ∨ (∃ n, i = .delayNs n) ∨ (∃ n, i = .delayUs n) ∨ ∃ n, i = .delayMs n) := by
  cases i <;> simp [runsUnconfigured]

/-- A command that runs before Setup passes the lifecycle gate in every state but CLOSED (R253). -/
theorem passes_gate_of_not_closed (hl : s.lc ≠ .closed) (hr : runsUnconfigured i = true) :
    s.lc = .ready ∨ (s.lc = .unconfigured ∧ runsUnconfigured i = true) := by
  cases h : s.lc with
  | unconfigured => exact .inr ⟨rfl, hr⟩
  | ready => exact .inl rfl
  | closed => exact absurd h hl

/-- Past the lifecycle gate only the range check is left (R254). -/
theorem gate_passes (run : State → State) (hl : s.lc = .ready ∨ (s.lc = .unconfigured ∧ runsUnconfigured i = true)) :
    gate i s run = if addressOutOfRange s.cfg i = true then s.refuse .refusedAddressOutOfRange else run s := by
  unfold gate
  rcases hl with hl | ⟨hl, hr⟩
  · simp [hl]
  · simp [hl, hr]

/-- A command that passes the lifecycle gate is not answered by one of its refusals (R253). -/
theorem accept_not_lifecycle_refused (hl : s.lc = .ready ∨ (s.lc = .unconfigured ∧ runsUnconfigured i = true))
    (hops : ∀ st, .respond st ∈ ops → st = .ok) :
    ∃ t, accept i s (resume ops) = .next t ∧ t.ms.head? ≠ some (.respond .refusedClosed) ∧
      t.ms.head? ≠ some (.respond .refusedNotConfigured) := by
  refine ⟨_, rfl, ?_⟩
  rw [gate_passes (s := { s with issued := false, current := .command i }) _ hl]
  split
  · simp [State.refuse]
  · have other : ∀ st u, st ≠ .writeTimeout → st ≠ .ok → (resume ops u).ms.head? ≠ some (.respond st) :=
      fun st u htimeout hok h => hok (hops st (respond_mem_of_resume_head htimeout h))
    exact ⟨other _ _ nofun nofun, other _ _ nofun nofun⟩

end Gate

/-- Settles O13: every one-word command goes through the gate (`exec_oneWord`), which refuses by `LC` first. -/
theorem lifecycleGate : Obligations.LifecycleGate := by
  intro i s hs hr hw
  obtain ⟨ops, hexec, hops⟩ := exec_oneWord hs hr hw s
  rw [hexec, ← runsUnconfigured_iff]
  exact ⟨accept_closed, fun hl hruns => accept_unconfigured hl (Bool.eq_false_iff.2 hruns),
    fun hl => accept_not_lifecycle_refused hl hops⟩

/-! SETUP (R250, R251). -/

/-- Settles O39: `reaches_setup`, then the response; the first request is a write pulse only with WE low. -/
theorem setupForcesThePins : Obligations.SetupForcesThePins := by
  intro s rest hc hl hi ht
  obtain ⟨e, hrun, hwe, hoe, hlatch, hsd, hsc, hdata, -, haddress, hmem, hbusy, hsuspect⟩ := reaches_setup
    (s := { s with issued := false, current := .command .setup }) [.respond .ok] hc hi
  have hword : responseWord .ok true 0 = 0x00000100#32 := rfl
  have hdataMode : ∀ i, (e.pin (.d i)).mode = some .input := fun i => by rw [hdata]
  rw [← hword]
  refine ⟨_, _, accept_runs (passes_gate_of_not_closed hl rfl) rfl, hrun.trans (reaches_respond ht), rfl, ?_, hwe, hoe,
    hlatch, ?_, ?_, hdataMode, haddress, fun hlevel => ?_⟩
  · exact ⟨nofun, fun _ => hdataMode, fun _ => congrArg PinState.level hoe⟩
  · exact congrArg PinState.mode hsd
  · exact congrArg PinState.mode hsc
  · have hraised : s.env.writeEnableRaised s.cfg = s.env := if_neg hlevel
    rw [hraised] at hmem hbusy hsuspect
    exact .of_eq hmem hbusy hsuspect

/-- In the procedure `ops` of a Setup, whose direction cache is cleared and whose output-enable cache is as `oev` says, each
of the requests of `events` may be the one that answers `error`: those before it are acknowledged, those after it are not
issued, and the command is answered TransportFailure (R250, R272). -/
def FailsWithin (cfg : Params) (oev : Bool) (ops : List MicroOp) (events : List Event) : Prop :=
  ∀ (s : State) (n : Nat) (rest : List Input), s.cfg = cfg → s.dirv = false → s.oev = oev → n < events.length →
    s.inbox = acks n ++ .reply true :: rest → SequencerTurn rest →
    ∃ before r oe e, Reaches (resume ops s)
      ((State.transportFailed { s with oe := oe } rest e).answered (before ++ [.request r .error]) 0x01000100#32) ∧
      (before ++ [Event.request r .ack]) <+: events ∧ before.length = n

namespace FailsWithin

variable {cfg : Params} {oev : Bool} {k : List MicroOp} {events : List Event}

theorem nil (k : List MicroOp) : FailsWithin cfg oev k [] := fun _ _ _ _ _ _ hn => absurd hn (Nat.not_lt_zero _)

/-- The first request fails, or it is acknowledged and a later one fails. -/
theorem request {r : Request} (hr : ∀ e : Env, e.answer cfg r = .ack) (h : FailsWithin cfg oev k events) :
    FailsWithin cfg oev (.request r :: k) (.request r .ack :: events) := by
  intro s n rest hcfg hdirv hoev hn hi ht
  subst hcfg
  cases n with
  | zero => exact ⟨[], r, s.oe, _, reaches_requestFailed hi ht, ⟨events, rfl⟩, rfl⟩
  | succ n =>
    have hi' : s.inbox = .reply false :: (acks n ++ .reply true :: rest) := hi.trans (acks_succ ..)
    obtain ⟨before, r', oe, e, hrun, ⟨tail, htail⟩, hcount⟩ :=
      h (s.acknowledged r (acks n ++ .reply true :: rest)) n rest rfl hdirv hoev (Nat.lt_of_succ_lt_succ hn) rfl ht
    refine ⟨.request r .ack :: before, r', oe, e, (reaches_request hi').trans (hrun.trans (.of_eq ?_)),
      ⟨tail, congrArg (_ :: ·) htail⟩, congrArg (· + 1) hcount⟩
    rw [← hr s.env]
    exact State.answered_cons (State.transportFailed { s with oe := oe } rest e) ..

theorem setPinMode {r : Role} {m : PinMode} (h : FailsWithin cfg oev k events) :
    FailsWithin cfg oev (setPinModeOp cfg r m :: k) (spmEvent cfg r m :: events) := request (fun _ => rfl) h

theorem digitalWrite {r : Role} {l : Level} (h : FailsWithin cfg oev k events) :
    FailsWithin cfg oev (digitalWriteOp cfg r l :: k) (dwEvent cfg r l :: events) := request (fun _ => rfl) h

/-- `OE <- b; OEV <- 1` issues no request (R162). -/
theorem outputEnableSet (b : Bool) (h : FailsWithin cfg true k events) :
    FailsWithin cfg oev (.outputEnableSet b :: k) events := fun s n rest hcfg hdirv _ hn hi ht =>
  h { s with oe := b, oev := true } n rest hcfg hdirv rfl hn hi ht

/-- SetOutputEnabled with the cache cleared takes no fast path (R162). -/
theorem setOutputEnabled {b : Bool} (h : FailsWithin cfg true k events) :
    FailsWithin cfg false (.setOutputEnabled b :: k) (dwEvent cfg .oe (outputEnableLevel b) :: events) := by
  intro s n rest hcfg hdirv hoev hn hi ht
  subst hcfg
  rw [resume_setOutputEnabled_full _ _ (by simp [hoev])]
  exact (h.outputEnableSet b).digitalWrite s n rest rfl hdirv hoev hn hi ht

theorem setPinModes (rs : List Role) (m : PinMode) (k : List MicroOp) :
    FailsWithin cfg oev (rs.map (fun r => setPinModeOp cfg r m) ++ k) (rs.map fun r => spmEvent cfg r m) := by
  induction rs with
  | nil => exact nil k
  | cons r rs ih => exact setPinMode ih

/-- SetMode with the cache cleared takes no fast path (R160, R165). -/
theorem setMode (d : PinMode) (k : List MicroOp) :
    FailsWithin cfg oev (.setMode d :: k) ((List.finRange 8).map fun i => spmEvent cfg (.d i) d) := by
  intro s n rest hcfg hdirv hoev hn hi ht
  subst hcfg
  rw [resume_setMode_full _ _ (by simp [hdirv])]
  exact setPinModes ((List.finRange 8).map .d) d (.directionSet d :: k) s n rest rfl hdirv hoev hn hi ht

/-- Each of the 16 requests of Setup may fail (R250). -/
theorem of_setup (cfg : Params) (k : List MicroOp) : FailsWithin cfg false (setupOps cfg ++ k) (setupEvents cfg) :=
  digitalWrite <| setPinMode <| setOutputEnabled <| setPinMode <| digitalWrite <| setPinMode <| setPinMode <|
    setPinMode <| setMode .input _

end FailsWithin

/-- Setup whose request number `n` answers `error`, from any state: it is cut short there (R250, R272). -/
theorem reaches_setup_failed {s : State} (k : List MicroOp) {n : Nat} {rest : List Input} (hn : n < 16)
    (hi : s.inbox = acks n ++ .reply true :: rest) (ht : SequencerTurn rest) :
    ∃ before r oe e, Reaches (resume (.setup :: k) s)
      ((State.transportFailed { s with oe := oe } rest e).answered (before ++ [.request r .error]) 0x01000100#32) ∧
      (before ++ [Event.request r .ack]) <+: setupEvents s.cfg ∧ before.length = n :=
  FailsWithin.of_setup s.cfg k { s with cav := false, dirv := false, oev := false } n rest rfl rfl rfl hn hi ht

/-- Settles O40: Setup is cut short (`reaches_setup_failed`), and since it is that of the command SETUP, `LC` is cleared with
the caches. -/
theorem setupFails : Obligations.SetupFails := by
  intro s k rest hc hl hk hi ht
  obtain ⟨before, r, oe, e, hrun, hbefore, hcount⟩ := reaches_setup_failed
    (s := { s with issued := false, current := .command .setup }) [.respond .ok] hk hi ht
  exact ⟨_, _, before, r, accept_runs (passes_gate_of_not_closed hl rfl) rfl, hrun, rfl, hbefore, hcount⟩

/-- Settles O41: CLOSE passes the gate, writes `LC` and answers (`step_refused` holds of every response). -/
theorem closeReleases : Obligations.CloseReleases :=
  ⟨rfl, fun s hl hi => ⟨_, accept_runs (passes_gate_of_not_closed hl rfl) rfl,
    step_refused (s := { s with lc := .closed }) (.command .close) .ok hi⟩⟩

end Sys2Proof.Machine
end

section
/-! PROOF. Exceptions and refusals (60_exceptions.md): no step is a fault (R270), and how each kind of error is taken (R272). A
WRITE_BLOCK of more bytes than the device has raises CapacityExceeded where it is checked (`beginWriteBlock_capacityExceeded`). -/

namespace Sys2Proof.Machine

/-! Every step answers a next state (R270). -/

/-- A transport request waits, fails or is acknowledged, and goes on in each case (R10, R273). -/
theorem transport_next (r : Request) (s : State) : ∃ t, transport r s = .next t := by
  unfold transport
  split <;> exact ⟨_, rfl⟩

/-- Every instruction goes on in every state, if only to be refused (R254, R276). -/
theorem exec_next (i : Instr) (s : State) : ∃ t, exec i s = .next t := by
  cases i with
  | setPinMode _ _ | digitalWrite _ _ | digitalRead _ | shiftOut _ _ _ _ => exact transport_next _ s
  | _ => exact ⟨_, rfl⟩

theorem acceptCommand_next (s : State) : ∃ t, acceptCommand s = .next t := by
  unfold acceptCommand
  split
  · exact ⟨_, rfl⟩
  · split
    · exact exec_next _ _
    · exact ⟨_, rfl⟩

theorem acceptPayload_next (s : State) : ∃ t, acceptPayload s = .next t := by
  unfold acceptPayload
  split
  · exact ⟨_, rfl⟩
  · split
    · exact exec_next _ _
    · exact ⟨_, rfl⟩

/-- From a settled position the sequencer accepts, performs, delays, answers or waits (R5). -/
theorem sequencerAct_next (s : State) : ∃ t, sequencerAct s = .next t := by
  unfold sequencerAct
  split
  · exact acceptCommand_next s
  · exact acceptPayload_next s
  · exact ⟨_, rfl⟩
  · exact ⟨_, rfl⟩
  · exact ⟨_, rfl⟩
  · split
    · exact exec_next _ _
    · exact ⟨_, rfl⟩

/-- Settles O11: an input takes the step by itself, or the sequencer does, which always goes on (`sequencerAct_next`). -/
theorem everyStepAnswersNext : Obligations.EveryStepAnswersNext := by
  intro s
  unfold step
  split
  · exact ⟨_, rfl⟩
  · exact ⟨_, rfl⟩
  · exact ⟨_, rfl⟩
  · exact ⟨_, rfl⟩
  · exact ⟨_, rfl⟩
  · exact sequencerAct_next _
  · exact sequencerAct_next _
  · exact sequencerAct_next _

/-! A WRITE_BLOCK of more bytes than CAPACITY (R220, R274). -/

/-- The command cycle of a WRITE_BLOCK with well-formed payload words that do not fit into the device ends in its error. -/
theorem beginWriteBlock_capacityExceeded {s : State} (hl : s.lc = .ready) (hword : s.current.isReservedWord = false)
    (hpayload : ∀ x ∈ s.payload, malformedPayload x = false) (hcap : s.cfg.capacity < s.payload.length) :
    beginWriteBlock s = { s with issued := false, ms := [.respond .capacityExceeded] } := by
  rw [beginWriteBlock_gate hword hpayload, gate_runs (s := { s with issued := false }) hl rfl, writeBlock, if_pos hcap]
  rfl

/-- The word of a WRITE_BLOCK of `n` bytes as R93 writes it. -/
theorem fields_writeBlock_word {n : Nat} (hn : n < 2 ^ 24) :
    let w : Word := 0xA0000000#32 ||| BitVec.ofNat 32 n
    field w 28 4 = 0xA#4 ∧ field w 24 4 = 0#4 ∧ (field w 0 24).toNat = n := by
  obtain ⟨hop, hrsv, hcount⟩ := fields_encodeCount 0xA#4 (BitVec.ofNat 24 n)
  rw [encodeCount_eq_or (w := 0xA0000000#32) rfl, BitVec.setWidth_ofNat_of_le_of_lt (by decide) hn] at hop hrsv hcount
  exact ⟨hop, hrsv, (congrArg BitVec.toNat hcount).trans (Nat.mod_eq_of_lt hn)⟩

/-- Settles O17: the payload words are taken (`reaches_beginWriteBlock`), then the error raised there is answered
(`step_refused` holds of every response). -/
theorem capacityExceededIssuesNothing : Obligations.CapacityExceededIssuesNothing := by
  intro s data rest hl hm ht hcap hlen hp
  have hwords : (data.map fun b => (0#24 ++ b : Word)).length = data.length := List.length_map ..
  obtain ⟨hop, hrsv, hcount⟩ := fields_writeBlock_word hlen
  obtain ⟨a, ha, hreach⟩ := reaches_beginWriteBlock hop (hcount.trans hwords.symm) hm ht hp
  have hraised := hreach.trans (.of_eq (beginWriteBlock_capacityExceeded hl (by simpa [ha] using hrsv)
    (List.forall_mem_map.2 fun b _ => malformedPayload_byte b) (hcap.trans_eq hwords.symm)))
  rw [hwords] at hraised
  exact hraised.trans (.single (step_refused
    (s := { s with port := rest, cp := s.cp + 1 + data.length, payload := data.map fun b => 0#24 ++ b })
    a .capacityExceeded ht))

/-! Taking an error (R272). -/

theorem malformedPayload_eq_false_iff {x : Word} : malformedPayload x = false ↔ field x 8 24 = 0#24 := by
  simp [malformedPayload]

/-- Settles O28: the laws of a step at a request that answers `error`, at the restore of D7, at the last payload word
(`beginWriteBlock_capacityExceeded`) and at a response. -/
theorem takingAnError : Obligations.TakingAnError := by
  refine ⟨fun s op k r rest hm hr hi => step_request_error hm hr hi, fun s k rest hm hi => ⟨_, step_restoreBit7_ack hm hi⟩,
    fun s n b ws k hm hcur ht hl hp hgood hcap => ?_,
    fun s e k hm ht => (step_respond hm ht).trans (congrArg _ (deliver_eq_answered s e.status 0))⟩
  have hwell : ∀ x ∈ s.payload ++ [0#24 ++ b], malformedPayload x = false :=
    List.forall_mem_append.2 ⟨fun x hx => malformedPayload_eq_false_iff.2 (hgood x hx),
      List.forall_mem_singleton.2 (malformedPayload_byte b)⟩
  have htake := (takePayloadWord_last (w := 0#24 ++ b) (s := s.taken ws) hm).trans
    (beginWriteBlock_capacityExceeded hl (congrArg Activity.isReservedWord hcur) hwell (by simpa using hcap))
  exact (step_payload hm ht hp).trans (congrArg _ htake)

end Sys2Proof.Machine
end

section
/-! PROOF. The pseudo-instructions (30_encoding.md R99) are words of the encoder. -/

namespace Sys2Proof

/-- The word of an address command as R92 and R93 write it: the opcode's word with the address from bit 8 upwards. -/
theorem encodeAddress_eq_or {op : BitVec 4} {w : Word} (hw : w.toNat = 2 ^ 28 * op.toNat) (a : Address) :
    encodeAddress op a = w ||| BitVec.ofNat 32 (a.toNat * 256) := by
  have ha : a.toNat * 256 < 2 ^ 28 := by have := a.isLt; omega
  apply BitVec.eq_of_toNat_eq
  rw [toNat_encodeAddress, BitVec.toNat_or, hw, BitVec.toNat_ofNat, Nat.mod_eq_of_lt (by omega),
    ← Nat.two_pow_add_eq_or_of_lt ha, Nat.mul_comm]
  rfl

end Sys2Proof

namespace Sys2Proof.Machine

theorem encode_read_ofNat {n : Nat} (hn : n < 2 ^ 16) :
    encode (.read (BitVec.ofNat 16 n)) = 0x50000000#32 ||| BitVec.ofNat 32 (n * 256) := by
  rw [encode, encodeAddress_eq_or (w := 0x50000000#32) rfl, BitVec.toNat_ofNat, Nat.mod_eq_of_lt hn]

/-- Settles O8: the two fixed words by evaluation, those of READ_ROW by `encode_read_ofNat`; no device has more bytes than the
count of ERASE_ALL. -/
theorem pseudoInstructions : Obligations.PseudoInstructions := by
  refine ⟨by decide, by decide, fun r hr => ?_, fun cfg => ?_, fun cfg hc => ?_⟩
  · rw [assemble, emitIf, if_pos (decide_eq_true hr), List.map_map]
    refine congrArg some (List.map_congr_left fun j hj => encode_read_ofNat ?_)
    have := List.mem_range.1 hj
    omega
  · rw [targetTicks, Nat.zero_mul, Nat.zero_div]
  · exact min_eq_right ((capacity_bounds hc).2.trans (by decide))

end Sys2Proof.Machine
end

section
/-! PROOF. Reset and hazards (70_reset_and_hazards.md): what the reset input leaves of the block and of a command in progress
(R300 to R305), the Setup that runs by itself after it (R302), and unbounded polling (R316). -/

namespace Sys2Proof.Machine

/-! The reset input (R300, R301, R305). -/

section Reset

variable {s : State} {rest : List Input}

theorem step_reset (hi : s.inbox = .reset :: rest) : step s = .next (s.resetInput rest) := by
  unfold step; rw [hi]

/-- Reset leaves the environment to what becomes of the command in progress (R304, R305). -/
@[simp] theorem State.resetInput_env (s : State) (rest : List Input) : (s.resetInput rest).env = s.abandoned := rfl

/-- Settles O42: between commands nothing is in flight and no write is past its `DW(WE, L)`; the rest is `State.afterReset`. -/
theorem resetState : Obligations.ResetState := by
  refine fun s rest hi => ⟨_, step_reset hi, rfl, rfl, rfl, rfl, rfl, rfl, rfl, rfl, rfl, rfl, rfl, rfl, rfl, fun hm => ?_⟩
  simp [State.abandoned, State.pastWriteLow, hm]

/-- Only a DIGITAL_WRITE of WE may have been part of a write pulse, in any configuration (R53). -/
theorem Env.pulses_eq_false {cfg : Params} {r : Request} (hr : ∀ l, r ≠ .digitalWrite (pinOf cfg .we) l) (e : Env) :
    e.pulses cfg r = false := by
  cases r with
  | digitalWrite p l =>
    have hrole : roleOf cfg p ≠ some .we := fun h => hr l (roleOf_eq_some h ▸ rfl)
    simp [Env.pulses, hrole]
  | setPinMode _ _ | digitalRead _ | shiftOut _ _ _ _ => rfl

/-- A request that fails and may not have been part of a write pulse leaves the device alone (R53). -/
theorem Env.sameDevice_fail {cfg : Params} {e : Env} {r : Request} (hp : e.pulses cfg r = false) :
    e.SameDevice (e.fail cfg r) := by
  cases r with
  | digitalRead _ | shiftOut _ _ _ _ => exact .of_eq rfl rfl rfl
  | setPinMode p m =>
    simp only [Env.fail]
    split <;> exact .of_eq rfl rfl rfl
  | digitalWrite p l =>
    simp only [Env.fail]
    split
    · rename_i role hrole
      obtain ⟨d, hd, hedge⟩ := Env.failPin_edge cfg e role l
      obtain ⟨-, -, -, -, hdevice⟩ := hedge.setLevel none
      have hno : ¬ (role = .we ∧ e.mayPulse l = true) := by simpa [Env.pulses, hrole] using hp
      rw [hd]
      exact hdevice (not_and_or.1 hno)
    · exact .of_eq rfl rfl rfl

theorem State.abandoned_of_request {r : Request} (h : s.ms.head?.bind (MicroOp.nextRequest s.cfg) = some r) :
    s.abandoned = s.envAfterFailure r := by
  rw [State.abandoned, h]

theorem State.abandoned_of_none (h : s.ms.head?.bind (MicroOp.nextRequest s.cfg) = none) :
    s.abandoned = if s.pastWriteLow then (s.env.disturbed s.cfg).drawn else s.env := by
  rw [State.abandoned, h]

/-- The device when a command is abandoned with no DIGITAL_WRITE of WE in flight: disturbed past the `DW(WE, L)` of a write,
as it was before it (R305). -/
theorem State.abandoned_device
    (h : ∀ l, s.ms.head?.bind (MicroOp.nextRequest s.cfg) ≠ some (.digitalWrite (pinOf s.cfg .we) l)) :
    (if s.pastWriteLow then s.env.disturbed s.cfg else s.env).SameDevice s.abandoned := by
  cases hr : s.ms.head?.bind (MicroOp.nextRequest s.cfg) with
  | none =>
    rw [State.abandoned_of_none hr]
    split <;> exact .of_eq rfl rfl rfl
  | some r =>
    have hp : s.env.pulses s.cfg r = false := Env.pulses_eq_false (fun l hl => h l (hr.trans (congrArg some hl))) s.env
    rw [State.abandoned_of_request hr]
    cases hpast : s.pastWriteLow with
    | true =>
      rw [State.envAfterFailure_of_past hpast hp]
      exact Env.sameDevice_fail (by simpa using hp)
    | false =>
      rw [State.envAfterFailure_of_not_past hpast]
      exact Env.sameDevice_fail hp

/-- With no request in flight an abandoned command leaves the pins, the chain and the address lines alone (R305). -/
theorem State.abandoned_lines (h : s.ms.head?.bind (MicroOp.nextRequest s.cfg) = none) :
    (∀ r, s.abandoned.pin r = s.env.pin r) ∧ s.abandoned.shift = s.env.shift ∧ s.abandoned.latch = s.env.latch := by
  rw [State.abandoned_of_none h]
  split
  · exact ⟨fun _ => Env.pin_disturbed _, Env.shift_disturbed, Env.latch_disturbed⟩
  · exact ⟨fun _ => rfl, rfl, rfl⟩

/-- Settles O44: `State.abandoned_lines` and `State.abandoned_device`, with what a cut-off write disturbs. -/
theorem resetAbandonsTheCommand : Obligations.ResetAbandonsTheCommand := by
  refine fun s rest hi => ⟨_, step_reset hi, rfl, State.abandoned_lines, fun hwe => ?_⟩
  rw [State.resetInput_env]
  have hdevice := State.abandoned_device hwe
  cases hpast : s.pastWriteLow with
  | true =>
    rw [hpast, if_pos rfl] at hdevice
    obtain ⟨hbytes, hbusy, -⟩ := hdevice
    refine ⟨nofun, fun _ => ?_, fun x hlines hcycle => ?_, fun c' hc' => Env.busy_disturbed (hbusy ▸ hc')⟩
    · rw [hbytes]
      exact s.env.byteAt_disturbed_lines s.cfg
    · rw [hbytes]
      by_contra hx
      exact (Env.byteAt_disturbed hx).elim hlines fun ⟨c, hb, hxc⟩ => hcycle c hb hxc
  | false =>
    rw [hpast, if_neg Bool.false_ne_true] at hdevice
    exact ⟨fun _ => hdevice, nofun, fun x _ _ => hdevice.bytes x, fun c' hc' => .inr ⟨c', hdevice.busy ▸ hc', rfl⟩⟩

end Reset

/-! The automatic Setup (R302). -/

section AutomaticSetup

variable {s : State} {k : List MicroOp} {events : List Event} {n : Nat} {rest : List Input}

/-- A run from a state whose procedure is still to begin with a Setup (R302). -/
theorem Reaches.of_setup {u : State} (hm : s.ms = .setup :: k) (ht : SequencerTurn s.inbox) (hu : u.ms = [])
    (h : Reaches (resume (.setup :: k) s) u) : Reaches s u := by
  have hs : s.settled = { s with cav := false, dirv := false, oev := false, ms := setupOps s.cfg ++ k } := by
    rw [State.settled, hm, resume_setup]
  refine .of_settled ht (by rw [hs]) (by rw [hs]; rfl) (by rwa [State.settled, hm]) fun hus => ?_
  have hms := congrArg State.ms (hus.trans hs)
  rw [hu] at hms
  cases hms

/-- From `s` the procedure `ops`, whose requests are `events`, is cut short by the error of request number `n`: those before
it are acknowledged, and the command is answered TransportFailure (R272). Unlike `FailsWithin` it says that `OE` keeps its value. -/
def State.CutShort (s : State) (ops : List MicroOp) (events : List Event) (n : Nat) (rest : List Input) : Prop :=
  ∃ before r e, Reaches (resume ops s)
    ((s.transportFailed rest e).answered (before ++ [.request r .error]) 0x01000100#32) ∧
    (before ++ [Event.request r .ack]) <+: events ∧ before.length = n

/-- The first request fails, or it is acknowledged and a later one fails. -/
theorem State.CutShort.request {r : Request} (hr : s.env.answer s.cfg r = .ack)
    (hi : s.inbox = acks n ++ .reply true :: rest) (ht : SequencerTurn rest)
    (h : ∀ m, n = m + 1 → (s.acknowledged r (acks m ++ .reply true :: rest)).CutShort k events m rest) :
    s.CutShort (.request r :: k) (.request r .ack :: events) n rest := by
  cases n with
  | zero => exact ⟨[], r, _, reaches_requestFailed hi ht, ⟨events, rfl⟩, rfl⟩
  | succ m =>
    obtain ⟨before, r', e, hrun, ⟨tail, htail⟩, hcount⟩ := h m rfl
    refine ⟨.request r .ack :: before, r', e, (reaches_request (hi.trans (acks_succ ..))).trans (hrun.trans (.of_eq ?_)),
      ⟨tail, congrArg (_ :: ·) htail⟩, congrArg (· + 1) hcount⟩
    rw [← hr]
    exact State.answered_cons (s.transportFailed rest e) ..

theorem State.CutShort.setPinModes (rs : List Role) (m : PinMode) (hn : n < rs.length)
    (hi : s.inbox = acks n ++ .reply true :: rest) (ht : SequencerTurn rest) :
    s.CutShort (rs.map (fun r => setPinModeOp s.cfg r m) ++ k) (rs.map fun r => spmEvent s.cfg r m) n rest := by
  induction rs generalizing s n with
  | nil => exact absurd hn (Nat.not_lt_zero n)
  | cons r rs ih => exact .request rfl hi ht fun j hj => ih (Nat.lt_of_succ_lt_succ (hj.symm.trans_lt hn)) rfl

theorem State.CutShort.of_resume_eq {ops : List MicroOp} (h : resume ops s = resume k s)
    (hk : s.CutShort k events n rest) : s.CutShort ops events n rest := by
  rwa [State.CutShort, h]

/-- SetMode with the cache cleared takes no fast path (R160, R165). -/
theorem State.CutShort.setMode {cfg : Params} {d : PinMode} (hcfg : s.cfg = cfg) (hdirv : s.dirv = false) (hn : n < 8)
    (hi : s.inbox = acks n ++ .reply true :: rest) (ht : SequencerTurn rest) :
    s.CutShort (.setMode d :: k) ((List.finRange 8).map fun i => spmEvent cfg (.d i) d) n rest := by
  subst hcfg
  exact .of_resume_eq (resume_setMode_full k s (by simp [hdirv])) <|
    .setPinModes (k := .directionSet d :: k) ((List.finRange 8).map .d) d hn hi ht

/-- SetOutputEnabled with the cache cleared takes no fast path, and what it writes to `OE` is there already (R162). -/
theorem State.CutShort.setOutputEnabled {b : Bool} (hoe : s.oe = b) (hoev : s.oev = false)
    (hi : s.inbox = acks n ++ .reply true :: rest) (ht : SequencerTurn rest)
    (h : ∀ m, n = m + 1 → State.CutShort { s.acknowledged (.digitalWrite (pinOf s.cfg .oe) (outputEnableLevel b))
      (acks m ++ .reply true :: rest) with oev := true } k events m rest) :
    s.CutShort (.setOutputEnabled b :: k) (dwEvent s.cfg .oe (outputEnableLevel b) :: events) n rest := by
  subst hoe
  exact .of_resume_eq (resume_setOutputEnabled_full k s (by simp [hoev])) <|
    .request (k := .outputEnableSet s.oe :: k) rfl hi ht h

/-- Each of the 16 requests of Setup may fail, `OE` being 0 as it is right after reset (R250, R302). -/
theorem State.cutShort_setup (hoe : s.oe = false) (hn : n < 16) (hi : s.inbox = acks n ++ .reply true :: rest)
    (ht : SequencerTurn rest) : s.CutShort (.setup :: k) (setupEvents s.cfg) n rest := by
  have hops : State.CutShort { s with cav := false, dirv := false, oev := false }
      (setupOps s.cfg ++ k) (setupEvents s.cfg) n rest := by
    refine .request rfl hi ht fun _ h1 => .request rfl rfl ht fun _ h2 => .setOutputEnabled hoe rfl rfl ht fun _ h3 => ?_
    refine .request rfl rfl ht fun _ h4 => .request rfl rfl ht fun _ h5 => .request rfl rfl ht fun _ h6 => ?_
    refine .request rfl rfl ht fun _ h7 => .request rfl rfl ht fun _ h8 => ?_
    exact .setMode (by simp) (by simp) (by omega) rfl ht
  exact hops

/-- Settles O43: Setup runs by `reaches_setup` and is cut short by `State.cutShort_setup`; it is not that of the command SETUP,
but `LC` is UNCONFIGURED since reset. -/
theorem automaticSetup : Obligations.AutomaticSetup := by
  refine ⟨fun cfg env port rest hc ht => ?_, fun cfg env port n rest hc hn ht => ?_⟩
  · obtain ⟨e, hrun, -⟩ := reaches_setup (rest := rest)
      (s := { State.afterReset cfg env (acks 16 ++ rest) with port := port }) [.respond .ok] hc rfl
    have hword : responseWord .ok true 0 = 0x00000100#32 := rfl
    rw [← hword]
    exact ⟨_, .of_setup rfl (.acks_append 16 ht) rfl (hrun.trans (reaches_respond ht)), rfl⟩
  · obtain ⟨before, r, e, hrun, hbefore, hcount⟩ := State.cutShort_setup
      (s := { State.afterReset cfg env (acks n ++ .reply true :: rest) with port := port }) (k := [.respond .ok]) rfl hn rfl ht
    exact ⟨_, before, r, .of_setup rfl (.acks_append n (.reply true rest)) rfl hrun, rfl, hbefore, hcount⟩

end AutomaticSetup

/-! Unbounded polling (R184, R186, R316). -/

theorem length_requests_map {α : Type} {f : α → Event} (hf : ∀ x, (f x).isRequest = true) (l : List α) :
    ((l.map f).filter Event.isRequest).length = l.length := by
  rw [List.filter_eq_self.2 (List.forall_mem_map.2 fun x _ => hf x), List.length_map]

theorem length_requests_driveEvents (cfg : Params) (v : Byte) :
    ((driveEvents cfg v).filter Event.isRequest).length = 10 := by
  have hdata := length_requests_map (f := fun i : Fin 8 => dwEvent cfg (.d i) (if v[i] then .high else .low))
    (fun _ => rfl) (List.finRange 8)
  simp only [driveEvents, List.filter_append, List.length_append, hdata, optionalDelayEvent_no_request]
  rfl

/-- The events of a WRITE up to `n` polling reads that miss (R182, R184). -/
def pollingEvents (s : State) (a : Address) (v : Byte) (n : Nat) : List Event :=
  addressEvents s a ++ outputEnableEvents s false ++ modeEvents s .output ++ driveEvents s.cfg v ++
    [spmEvent s.cfg (.d 7) .input, dwEvent s.cfg .oe .low] ++ (List.replicate n (!v[7])).map (drEvent s.cfg 7)

theorem pollingEvents_silent (s : State) (a : Address) (v : Byte) (n : Nat) : Silent (pollingEvents s a v n) :=
  .append (.append (.append (.append (.append (addressEvents_silent ..) (outputEnableEvents_silent ..))
    (modeEvents_silent ..)) (driveEvents_silent ..)) rfl) (.map (fun _ => rfl) _)

theorem length_requests_pollingEvents (s : State) (a : Address) (v : Byte) (n : Nat) :
    ((pollingEvents s a v n).filter Event.isRequest).length = writeCost s a + n := by
  have hpolls := length_requests_map (f := drEvent s.cfg 7) (fun _ => rfl) (List.replicate n (!v[7]))
  simp only [pollingEvents, List.filter_append, List.length_append, length_requests_addressEvents,
    length_requests_outputEnableEvents, length_requests_modeEvents, length_requests_driveEvents, hpolls, List.length_replicate]
  rfl

/-- Settles O32: the write cycle starts (`reaches_writeByte_polling`), and with no limit every polling read misses
(`reaches_pollMisses`). -/
theorem unboundedPollingNeverAnswers : Obligations.UnboundedPollingNeverAnswers := by
  intro s a v n h ha hlim hi
  have hi' : s.inbox = acks (writeCost s a) ++ (acks n ++ []) := by rw [hi, ← acks_add]; simp
  obtain ⟨e, hrun, hdata, hoe, -, -, -, hbusy, -⟩ := reaches_writeByte_polling (v := v) [.respond .ok]
    (h.accepted (.write a v)) ha hi'
  have hpoll := reaches_pollMisses (c := ⟨a.toNat, v⟩) (s := { s with
      issued := true, current := .command (.write a v)
      ca := a, cav := true, dir := .output, dirv := true, oe := true, oev := true
      em := v[7], wv := v >>> 8, pcnt := 0, inbox := acks n ++ []
      trace := s.trace ++ (addressEvents s a ++ outputEnableEvents s false ++ modeEvents s .output ++
        driveEvents s.cfg v ++ [spmEvent s.cfg (.d 7) .input, dwEvent s.cfg .oe .low])
      env := e }) [.respond .ok] n h.config rfl hoe (by simp [hdata]) hbusy rfl (by simp [hlim])
  exact ⟨_, _, pollingEvents s a v n, exec_write_runs v h ha, hrun.trans hpoll, rfl, rfl, hbusy, List.append_assoc ..,
    length_requests_pollingEvents s a v n, (pollingEvents_silent s a v n).filter_isResponse⟩

end Sys2Proof.Machine
end
